-- ==== Sys2Proof/Word.lean ====
section
/-! DEFINITION. Word.lean: the word types. A CSR is a byte, the CSRs of Timer1 are 16 bits (spec/10_state.md), a
command word is 32 bits (spec/30_encoding.md R123). Bit 0 is the least significant bit (spec/00_scope.md R11). -/

namespace Sys2Proof

abbrev Byte := BitVec 8
abbrev Word16 := BitVec 16
abbrev Word32 := BitVec 32

end Sys2Proof
end

