-- ==== Sys2Proof/Config.lean ====
section
/-! DEFINITION. Config.lean: the constants of spec/00_scope.md R10 and its open parameters. An open parameter is an
opaque constant: nothing in Lean can evaluate it (notes/assumptions/9.md). -/

namespace Sys2Proof

/-- `TX_BUSY_BIT` is one of 1, 4, 5, 6, 7: spec/00_scope.md R10, spec/30_encoding.md R117. -/
inductive TxBusyBit
  | b1 | b4 | b5 | b6 | b7
  deriving DecidableEq, Repr, Inhabited

namespace Config

/-- `NOISE_WINDOW`, ticks (R10, R192). -/
def noiseWindow : Nat := 20
/-- `STUCK_BOUND`, ticks (R10, R318). -/
def stuckBound : Nat := 1250
/-- `OUT_RATE`, samples per second (R10, R326). -/
def outRate : Nat := 48000
/-- `AMPLITUDE` (R10, R321). -/
def amplitude : Int := 120
/-- `LEADER_SECONDS` (R10, R311). -/
def leaderSeconds : Nat := 3
/-- `CSV_UNITS_PER_TICK` (R10, R285). -/
def csvUnitsPerTick : Nat := 10
/-- `WGM2_CTC` (R10, R115). -/
def wgm2Ctc : BitVec 3 := 0b010

/-- `CLOCK_HZ` less one, OPEN (R10, R21): a positive integer of which the spec gives no value. -/
opaque clockHzLessOne : Nat
/-- `CLOCK_HZ`, positive by construction. -/
def clockHz : Nat := clockHzLessOne + 1
/-- `LEADER_OFFSET_TICKS`, OPEN (R10, R315). -/
opaque leaderOffset : Nat
/-- `IDLE_TIMEOUT_TICKS`, OPEN (R10, R311). -/
opaque idleTimeout : Nat
/-- `TX_BUSY_BIT`, OPEN (R10, R117). -/
opaque txBusyBit : TxBusyBit
/-- What a 4-byte size field of the output header holds for a size of `2 ^ 32` or more, of which the spec states
nothing (R120, R324): a free value (notes/assumptions/17.md). -/
opaque oversizeField : Nat → Word32
/-- What the field at bit `lo` of the register at `address` holds after `SET` of a value that does not fit the field, of
which the spec states nothing (R132, R245): a free value, cut to the field (notes/assumptions/19.md). -/
opaque wideFieldValue (address lo value : Nat) : Byte

end Config
end Sys2Proof
end

