-- ==== Sys2Proof/Syntax.lean ====
section
/-! DEFINITION. Syntax.lean: the operations of the block, one constructor of `Instr` for each row of
spec/opcode_table.json, the firmware's stubs as data (spec/30_encoding.md R131), and the coded form of an operation. -/

namespace Sys2Proof

/-- The three timer channels (spec/00_scope.md R3). -/
inductive Channel
  | t0 | t1 | t2
  deriving DecidableEq, Repr

/-- The events of a channel (spec/41_timer_channel.md R165 to R167). -/
inductive Event
  | ovf | compA | compB
  deriving DecidableEq, Repr

/-- The nine timer sources `Tn_OVF`, `Tn_COMPA`, `Tn_COMPB` (spec/60_exceptions.md R350). -/
structure TimerSource where
  channel : Channel
  event : Event
  deriving DecidableEq, Repr

/-- The callbacks of `fw`: `setup`, `loop` (spec/00_scope.md R7) and one handler for each of the twelve interrupt
sources (spec/60_exceptions.md R350). -/
inductive Callback
  | setup
  | loop
  | timer (src : TimerSource)
  | capture
  | pcRead
  | pcWrite
  deriving DecidableEq, Repr

/-- The two bus registers (spec/44_csr_bus.md R230, R239). -/
inductive BusReg
  | control
  | data
  deriving DecidableEq, Repr

/-- The bytes of the CSR space (spec/20_memory.md R81); a 16-bit CSR is a low and a high byte. -/
inductive CsrCell
  | tifr0 | tifr1 | tifr2
  | tccr0a | tccr0b | tcnt0 | ocr0a | ocr0b
  | timsk0 | timsk1 | timsk2
  | tccr1a | tccr1b | tccr1c
  | tcnt1Low | tcnt1High | icr1Low | icr1High | ocr1aLow | ocr1aHigh | ocr1bLow | ocr1bHigh
  | tccr2a | tccr2b | tcnt2 | ocr2a | ocr2b
  | busctl | busdata
  deriving DecidableEq, Repr

/-- The 16-bit CSRs (spec/20_memory.md R81, R89). -/
inductive Csr16
  | tcnt1 | icr1 | ocr1a | ocr1b
  deriving DecidableEq, Repr

/-- The named fields of the registers, by register, high bit first (spec/30_encoding.md R111). -/
inductive CsrField
  | com0a | com0b | wgm0Low
  | foc0a | foc0b | wgm0High | cs0
  | ocie0b | ocie0a | toie0
  | ocf0b | ocf0a | tov0
  | com1a | com1b | wgm1Low
  | icnc1 | ices1 | wgm1High | cs1
  | foc1a | foc1b
  | icie1 | ocie1b | ocie1a | toie1
  | icf1 | ocf1b | ocf1a | tov1
  | com2a | com2b | wgm2Low
  | foc2a | foc2b | wgm2High | cs2
  | ocie2b | ocie2a | toie2
  | ocf2b | ocf2a | tov2
  | wrs | rds | addr
  | busData
  deriving DecidableEq, Repr

/-- The operators of a stub's expressions, on natural numbers. A comparison gives 1 or 0. -/
inductive FwOp
  | add | sub | mul | div | mod | and | or | xor | eq | lt
  deriving DecidableEq, Repr

/-- A stub's expressions: a constant, a private variable, the value of the firmware's last CSR read, the tick
(notes/assumptions/7.md), an operator. -/
inductive FwExp
  | lit (n : Nat)
  | var (x : Nat)
  | lastRead
  | tick
  | bin (op : FwOp) (a b : FwExp)
  deriving DecidableEq, Repr

/-- The host operations, which a callback may name only to be refused (spec/60_exceptions.md R362). -/
inductive HostOp
  | reset | step | feed | rd | wr
  deriving DecidableEq, Repr

/-- A stub: the firmware's CSR operations and assignments to its private state (spec/30_encoding.md R131), in
sequence, by condition, or a counted number of times. `append` adds a value to the stub's list of records. -/
inductive FwStmt
  | skip
  | seq (a b : FwStmt)
  | assign (x : Nat) (e : FwExp)
  | append (e : FwExp)
  | csrr (a : Byte)
  | csrw (a : Byte) (e : FwExp)
  | csrr16 (a : Byte)
  | csrw16 (a : Byte) (e : FwExp)
  | set (f : CsrField) (e : FwExp)
  | ite (c : FwExp) (a b : FwStmt)
  | times (e : FwExp) (a : FwStmt)
  | host (op : HostOp)
  deriving DecidableEq, Repr

/-- The record `fw` of callbacks (spec/00_scope.md R7): one stub each, the no-op where the firmware gives none. -/
structure Firmware where
  setup : FwStmt := .skip
  loop : FwStmt := .skip
  t0Ovf : FwStmt := .skip
  t0CompA : FwStmt := .skip
  t0CompB : FwStmt := .skip
  t1Ovf : FwStmt := .skip
  t1CompA : FwStmt := .skip
  t1CompB : FwStmt := .skip
  t1Capt : FwStmt := .skip
  t2Ovf : FwStmt := .skip
  t2CompA : FwStmt := .skip
  t2CompB : FwStmt := .skip
  pcRead : FwStmt := .skip
  pcWrite : FwStmt := .skip
  deriving DecidableEq, Repr

/-- The operations, one for each row of spec/opcode_table.json, in its order. -/
inductive Instr
  /-- `RESET` (R380). -/
  | reset
  /-- `STEP` (R140). -/
  | step
  /-- `FEED l` (R190). -/
  | feed (l : Bool)
  /-- `RD s` (R231). -/
  | rd (r : BusReg)
  /-- `WR s, v` (R232). -/
  | wr (r : BusReg) (v : Byte)
  /-- `CSRR a` (R235). -/
  | csrr (a : Byte)
  /-- `CSRW a, v` (R236). -/
  | csrw (a : Byte) (v : Byte)
  /-- `CSRR16 a` (R237). -/
  | csrr16 (a : Byte)
  /-- `CSRW16 a, v` (R238). -/
  | csrw16 (a : Byte) (v : Word16)
  /-- `CS0 = 0b000 (stopped)` (R112). -/
  | cs0Stopped
  /-- `CS0 = 0b001 (divisor 1)` (R112). -/
  | cs0Div1
  /-- `CS0 = 0b010 (divisor 8)` (R112). -/
  | cs0Div8
  /-- `CS0 = 0b011 (divisor 64)` (R112). -/
  | cs0Div64
  /-- `CS0 = 0b100 (divisor 256)` (R112). -/
  | cs0Div256
  /-- `CS0 = 0b101 (divisor 1024)` (R112). -/
  | cs0Div1024
  /-- `CS0 = 0b110 (reserved, stopped)` (R112). -/
  | cs0Reserved6
  /-- `CS0 = 0b111 (reserved, stopped)` (R112). -/
  | cs0Reserved7
  /-- `CS1 = 0b000 (stopped)` (R112). -/
  | cs1Stopped
  /-- `CS1 = 0b001 (divisor 1)` (R112). -/
  | cs1Div1
  /-- `CS1 = 0b010 (divisor 8)` (R112). -/
  | cs1Div8
  /-- `CS1 = 0b011 (divisor 64)` (R112). -/
  | cs1Div64
  /-- `CS1 = 0b100 (divisor 256)` (R112). -/
  | cs1Div256
  /-- `CS1 = 0b101 (divisor 1024)` (R112). -/
  | cs1Div1024
  /-- `CS1 = 0b110 (reserved, stopped)` (R112). -/
  | cs1Reserved6
  /-- `CS1 = 0b111 (reserved, stopped)` (R112). -/
  | cs1Reserved7
  /-- `CS2 = 0b000 (stopped)` (R113). -/
  | cs2Stopped
  /-- `CS2 = 0b001 (divisor 1)` (R113). -/
  | cs2Div1
  /-- `CS2 = 0b010 (divisor 8)` (R113). -/
  | cs2Div8
  /-- `CS2 = 0b011 (divisor 32)` (R113). -/
  | cs2Div32
  /-- `CS2 = 0b100 (divisor 64)` (R113). -/
  | cs2Div64
  /-- `CS2 = 0b101 (divisor 128)` (R113). -/
  | cs2Div128
  /-- `CS2 = 0b110 (divisor 256)` (R113). -/
  | cs2Div256
  /-- `CS2 = 0b111 (divisor 1024)` (R113). -/
  | cs2Div1024
  /-- `COM2A = 0b00 (no change)` (R212). -/
  | com2aNoChange
  /-- `COM2A = 0b01 (toggle)` (R212). -/
  | com2aToggle
  /-- `COM2A = 0b10 (force low)` (R212). -/
  | com2aForceLow
  /-- `COM2A = 0b11 (force high)` (R212). -/
  | com2aForceHigh
  /-- `WGM2 = 0b010 (WGM2_CTC, clear on compare match)` (R172). -/
  | wgm2Ctc
  /-- `ICNC1 = 1 (noise canceler on)` (R192). -/
  | icnc1On
  /-- `ICNC1 = 0 (noise canceler off)` (R192). -/
  | icnc1Off
  /-- `ICES1 = 1 (rising edge selected)` (R194). -/
  | ices1Rising
  /-- `ICES1 = 0 (falling edge selected)` (R194). -/
  | ices1Falling
  /-- `FOC2A = 1 (forced compare requested)` (R213). -/
  | foc2aRequest
  /-- `TOIE0 = 1 (dispatch of T0_OVF enabled)` (R175). -/
  | toie0Enable
  /-- `TOV0 = 1 (T0_OVF pending, not dispatched)` (R176). -/
  | tov0Pending
  /-- `OCIE0A = 1 (dispatch of T0_COMPA enabled)` (R175). -/
  | ocie0aEnable
  /-- `OCF0A = 1 (T0_COMPA pending, not dispatched)` (R176). -/
  | ocf0aPending
  /-- `OCIE0B = 1 (dispatch of T0_COMPB enabled)` (R175). -/
  | ocie0bEnable
  /-- `OCF0B = 1 (T0_COMPB pending, not dispatched)` (R176). -/
  | ocf0bPending
  /-- `TOIE1 = 1 (dispatch of T1_OVF enabled)` (R175). -/
  | toie1Enable
  /-- `TOV1 = 1 (T1_OVF pending, not dispatched)` (R176). -/
  | tov1Pending
  /-- `OCIE1A = 1 (dispatch of T1_COMPA enabled)` (R175). -/
  | ocie1aEnable
  /-- `OCF1A = 1 (T1_COMPA pending, not dispatched)` (R176). -/
  | ocf1aPending
  /-- `OCIE1B = 1 (dispatch of T1_COMPB enabled)` (R175). -/
  | ocie1bEnable
  /-- `OCF1B = 1 (T1_COMPB pending, not dispatched)` (R176). -/
  | ocf1bPending
  /-- `TOIE2 = 1 (dispatch of T2_OVF enabled)` (R175). -/
  | toie2Enable
  /-- `TOV2 = 1 (T2_OVF pending, not dispatched)` (R176). -/
  | tov2Pending
  /-- `OCIE2A = 1 (dispatch of T2_COMPA enabled)` (R175). -/
  | ocie2aEnable
  /-- `OCF2A = 1 (T2_COMPA pending, not dispatched)` (R176). -/
  | ocf2aPending
  /-- `OCIE2B = 1 (dispatch of T2_COMPB enabled)` (R175). -/
  | ocie2bEnable
  /-- `OCF2B = 1 (T2_COMPB pending, not dispatched)` (R176). -/
  | ocf2bPending
  /-- `bus read of register s` (R231). -/
  | busRead (r : BusReg)
  /-- `bus write of register s` (R232). -/
  | busWrite (r : BusReg)
  /-- `status: framing error` (R262). -/
  | statusFraming
  /-- `status: parity error` (R262). -/
  | statusParity
  /-- `status: byte available` (R262). -/
  | statusByteAvailable
  /-- `status: room for a byte (TX_BUSY_BIT = 7, the default)` (R313). -/
  | statusRoom
  /-- `TIMER_TICK n` (R160). -/
  | timerTick (n : Channel)
  /-- `OVERFLOW n` (R165). -/
  | overflow (n : Channel)
  /-- `MATCH n, A` (R166). -/
  | matchA (n : Channel)
  /-- `MATCH n, B` (R167). -/
  | matchB (n : Channel)
  /-- `DISPATCH src` (R175). -/
  | dispatch (src : TimerSource)
  /-- `OC2A_UPDATE` (R210). -/
  | oc2aUpdate
  /-- `POLL` (R262). -/
  | poll
  /-- `COMPARE b` (R266). -/
  | compare (b : Byte)
  /-- `CSV_PLAY records` (R282). -/
  | csvPlay (records : List (Nat × Int))
  /-- `WAV_PLAY bytes` (R287). -/
  | wavPlay (bytes : List Byte)
  /-- `SINK_RUN data` (R312). -/
  | sinkRun (data : List Byte)
  /-- `STEPS n` (R132). -/
  | steps (n : Nat)
  /-- `RUNTO t` (R132). -/
  | runTo (t : Nat)
  /-- `FEEDAT t, l` (R132). -/
  | feedAt (t : Nat) (l : Bool)
  /-- `SET REG.FIELD, v` (R132). -/
  | setField (f : CsrField) (v : Nat)
  deriving DecidableEq, Repr

/-- Who performs an operation (spec/00_scope.md R8, R9). -/
inductive Agent
  | host | firmware | block
  deriving DecidableEq, Repr

/-- The agent of each operation: column `performed_by` of the table, spec/00_scope.md R8; a field value of a CSR is
written by the firmware (notes/assumptions/3.md). -/
def Instr.performer : Instr → Agent
  | .reset => .host
  | .step => .host
  | .feed _ => .host
  | .rd _ => .host
  | .wr _ _ => .host
  | .csrr _ => .firmware
  | .csrw _ _ => .firmware
  | .csrr16 _ => .firmware
  | .csrw16 _ _ => .firmware
  | .cs0Stopped => .firmware
  | .cs0Div1 => .firmware
  | .cs0Div8 => .firmware
  | .cs0Div64 => .firmware
  | .cs0Div256 => .firmware
  | .cs0Div1024 => .firmware
  | .cs0Reserved6 => .firmware
  | .cs0Reserved7 => .firmware
  | .cs1Stopped => .firmware
  | .cs1Div1 => .firmware
  | .cs1Div8 => .firmware
  | .cs1Div64 => .firmware
  | .cs1Div256 => .firmware
  | .cs1Div1024 => .firmware
  | .cs1Reserved6 => .firmware
  | .cs1Reserved7 => .firmware
  | .cs2Stopped => .firmware
  | .cs2Div1 => .firmware
  | .cs2Div8 => .firmware
  | .cs2Div32 => .firmware
  | .cs2Div64 => .firmware
  | .cs2Div128 => .firmware
  | .cs2Div256 => .firmware
  | .cs2Div1024 => .firmware
  | .com2aNoChange => .firmware
  | .com2aToggle => .firmware
  | .com2aForceLow => .firmware
  | .com2aForceHigh => .firmware
  | .wgm2Ctc => .firmware
  | .icnc1On => .firmware
  | .icnc1Off => .firmware
  | .ices1Rising => .firmware
  | .ices1Falling => .firmware
  | .foc2aRequest => .firmware
  | .toie0Enable => .firmware
  | .tov0Pending => .firmware
  | .ocie0aEnable => .firmware
  | .ocf0aPending => .firmware
  | .ocie0bEnable => .firmware
  | .ocf0bPending => .firmware
  | .toie1Enable => .firmware
  | .tov1Pending => .firmware
  | .ocie1aEnable => .firmware
  | .ocf1aPending => .firmware
  | .ocie1bEnable => .firmware
  | .ocf1bPending => .firmware
  | .toie2Enable => .firmware
  | .tov2Pending => .firmware
  | .ocie2aEnable => .firmware
  | .ocf2aPending => .firmware
  | .ocie2bEnable => .firmware
  | .ocf2bPending => .firmware
  | .busRead _ => .host
  | .busWrite _ => .host
  | .statusFraming => .host
  | .statusParity => .host
  | .statusByteAvailable => .host
  | .statusRoom => .host
  | .timerTick _ => .block
  | .overflow _ => .block
  | .matchA _ => .block
  | .matchB _ => .block
  | .dispatch _ => .block
  | .oc2aUpdate => .block
  | .poll => .host
  | .compare _ => .host
  | .csvPlay _ => .host
  | .wavPlay _ => .host
  | .sinkRun _ => .host
  | .steps _ => .host
  | .runTo _ => .host
  | .feedAt _ _ => .host
  | .setField _ _ => .firmware

/-- Where a selector row of the table stands: a CSR's address, the pair `TCCR2B ++ TCCR2A`, or the status byte read
from bus register 0. -/
inductive Location
  | csr (address : Byte)
  | tccr2Pair
  | status
  deriving DecidableEq, Repr

/-- The coded form of an operation, the item of a trace: bits numbered as the table numbers them (a `CMD32` word has
32), a selector row's location, mask and bits, or, for the rows the table gives no encoding, the operation itself
(spec/30_encoding.md R123: "a model may ... use a datatype of operations instead"). -/
inductive Code
  | word (nbits w : Nat)
  | selector (loc : Location) (mask bits : Word16)
  | operation (i : Instr)
  deriving DecidableEq, Repr

end Sys2Proof
end

