-- ==== Sys2Proof/Machine/Layout.lean ====
section
/-! DEFINITION. Machine/Layout.lean: the CSR map (spec/20_memory.md R81), the positions of the fields
(spec/30_encoding.md R111), and the two bit-field helpers every field access uses. -/

namespace Sys2Proof

/-- The address of each CSR byte (R81). -/
def CsrCell.address : CsrCell → Byte
  | .tifr0 => 0x35 | .tifr1 => 0x36 | .tifr2 => 0x37
  | .tccr0a => 0x44 | .tccr0b => 0x45 | .tcnt0 => 0x46 | .ocr0a => 0x47 | .ocr0b => 0x48
  | .timsk0 => 0x6E | .timsk1 => 0x6F | .timsk2 => 0x70
  | .tccr1a => 0x80 | .tccr1b => 0x81 | .tccr1c => 0x82
  | .tcnt1Low => 0x84 | .tcnt1High => 0x85 | .icr1Low => 0x86 | .icr1High => 0x87
  | .ocr1aLow => 0x88 | .ocr1aHigh => 0x89 | .ocr1bLow => 0x8A | .ocr1bHigh => 0x8B
  | .tccr2a => 0xB0 | .tccr2b => 0xB1 | .tcnt2 => 0xB2 | .ocr2a => 0xB3 | .ocr2b => 0xB4
  | .busctl => 0xE0 | .busdata => 0xE1

/-- The CSR byte at an address, none where the map of R81 has nothing (R82). -/
def csrAt (a : Byte) : Option CsrCell :=
  match a.toNat with
  | 0x35 => some .tifr0 | 0x36 => some .tifr1 | 0x37 => some .tifr2
  | 0x44 => some .tccr0a | 0x45 => some .tccr0b | 0x46 => some .tcnt0 | 0x47 => some .ocr0a | 0x48 => some .ocr0b
  | 0x6E => some .timsk0 | 0x6F => some .timsk1 | 0x70 => some .timsk2
  | 0x80 => some .tccr1a | 0x81 => some .tccr1b | 0x82 => some .tccr1c
  | 0x84 => some .tcnt1Low | 0x85 => some .tcnt1High | 0x86 => some .icr1Low | 0x87 => some .icr1High
  | 0x88 => some .ocr1aLow | 0x89 => some .ocr1aHigh | 0x8A => some .ocr1bLow | 0x8B => some .ocr1bHigh
  | 0xB0 => some .tccr2a | 0xB1 => some .tccr2b | 0xB2 => some .tcnt2 | 0xB3 => some .ocr2a | 0xB4 => some .ocr2b
  | 0xE0 => some .busctl | 0xE1 => some .busdata
  | _ => none

/-- The 16-bit CSR whose low byte is at an address: the only places of a 2-byte access (R89). -/
def csr16At (a : Byte) : Option Csr16 :=
  match a.toNat with
  | 0x84 => some .tcnt1 | 0x86 => some .icr1 | 0x88 => some .ocr1a | 0x8A => some .ocr1b
  | _ => none

/-- The address of a 16-bit CSR's low byte (R81, R86). -/
def Csr16.address : Csr16 → Byte
  | .tcnt1 => 0x84 | .icr1 => 0x86 | .ocr1a => 0x88 | .ocr1b => 0x8A

/-- Where a field stands: its register, its lowest bit, its number of bits. -/
structure FieldPos where
  cell : CsrCell
  lo : Nat
  width : Nat
  deriving DecidableEq, Repr

/-- The position of each named field (R111). -/
def CsrField.pos : CsrField → FieldPos
  | .com0a => ⟨.tccr0a, 6, 2⟩ | .com0b => ⟨.tccr0a, 4, 2⟩ | .wgm0Low => ⟨.tccr0a, 0, 2⟩
  | .foc0a => ⟨.tccr0b, 7, 1⟩ | .foc0b => ⟨.tccr0b, 6, 1⟩ | .wgm0High => ⟨.tccr0b, 3, 1⟩ | .cs0 => ⟨.tccr0b, 0, 3⟩
  | .ocie0b => ⟨.timsk0, 2, 1⟩ | .ocie0a => ⟨.timsk0, 1, 1⟩ | .toie0 => ⟨.timsk0, 0, 1⟩
  | .ocf0b => ⟨.tifr0, 2, 1⟩ | .ocf0a => ⟨.tifr0, 1, 1⟩ | .tov0 => ⟨.tifr0, 0, 1⟩
  | .com1a => ⟨.tccr1a, 6, 2⟩ | .com1b => ⟨.tccr1a, 4, 2⟩ | .wgm1Low => ⟨.tccr1a, 0, 2⟩
  | .icnc1 => ⟨.tccr1b, 7, 1⟩ | .ices1 => ⟨.tccr1b, 6, 1⟩ | .wgm1High => ⟨.tccr1b, 3, 2⟩ | .cs1 => ⟨.tccr1b, 0, 3⟩
  | .foc1a => ⟨.tccr1c, 7, 1⟩ | .foc1b => ⟨.tccr1c, 6, 1⟩
  | .icie1 => ⟨.timsk1, 5, 1⟩ | .ocie1b => ⟨.timsk1, 2, 1⟩ | .ocie1a => ⟨.timsk1, 1, 1⟩ | .toie1 => ⟨.timsk1, 0, 1⟩
  | .icf1 => ⟨.tifr1, 5, 1⟩ | .ocf1b => ⟨.tifr1, 2, 1⟩ | .ocf1a => ⟨.tifr1, 1, 1⟩ | .tov1 => ⟨.tifr1, 0, 1⟩
  | .com2a => ⟨.tccr2a, 6, 2⟩ | .com2b => ⟨.tccr2a, 4, 2⟩ | .wgm2Low => ⟨.tccr2a, 0, 2⟩
  | .foc2a => ⟨.tccr2b, 7, 1⟩ | .foc2b => ⟨.tccr2b, 6, 1⟩ | .wgm2High => ⟨.tccr2b, 3, 1⟩ | .cs2 => ⟨.tccr2b, 0, 3⟩
  | .ocie2b => ⟨.timsk2, 2, 1⟩ | .ocie2a => ⟨.timsk2, 1, 1⟩ | .toie2 => ⟨.timsk2, 0, 1⟩
  | .ocf2b => ⟨.tifr2, 2, 1⟩ | .ocf2a => ⟨.tifr2, 1, 1⟩ | .tov2 => ⟨.tifr2, 0, 1⟩
  | .wrs => ⟨.busctl, 2, 1⟩ | .rds => ⟨.busctl, 1, 1⟩ | .addr => ⟨.busctl, 0, 1⟩
  | .busData => ⟨.busdata, 0, 8⟩

/-- `width` ones from bit `lo` up. -/
def fieldMask (lo width : Nat) : Byte := BitVec.ofNat 8 ((2 ^ width - 1) * 2 ^ lo)

/-- The field of `width` bits from bit `lo` of `x`, in the low bits (spec/00_scope.md R11). -/
def extractField (lo width : Nat) (x : Byte) : Byte := (x >>> lo) &&& fieldMask 0 width

/-- `x` with that field replaced by `v` and every other bit kept (spec/44_csr_bus.md R245). -/
def replaceField (lo width : Nat) (v x : Byte) : Byte :=
  (x &&& ~~~ fieldMask lo width) ||| ((v <<< lo) &&& fieldMask lo width)

end Sys2Proof
end

