-- ==== Sys2Proof/WellFormed.lean ====
section
/-! DEFINITION. WellFormed.lean: which terms of `Instr` have operands of which the spec states the result. Two checks:
a value written to a field fits the field (spec/30_encoding.md R132), and no CSV record lies before the first one, the
time origin (spec/46_audio_source_resampler.md R285). A CSR address that is refused when performed is well-formed
(spec/30_encoding.md R130 (e)). The decoder reads the other terms too: a value that does not fit leaves a free value in
the field (notes/assumptions/19.md), and a record before the origin is refused where it is reached. -/

namespace Sys2Proof

/-- No record's time is before the first record's (R284, R285). -/
def recordsFromOrigin : List (Nat × Int) → Bool
  | [] => true
  | (t0, _) :: rest => rest.all fun r => decide (t0 ≤ r.1)

/-- The well-formed operations. -/
def Instr.wellFormed : Instr → Bool
  | .reset => true
  | .step => true
  | .feed _ => true
  | .rd _ => true
  | .wr _ _ => true
  | .csrr _ => true
  | .csrw _ _ => true
  | .csrr16 _ => true
  | .csrw16 _ _ => true
  | .cs0Stopped => true
  | .cs0Div1 => true
  | .cs0Div8 => true
  | .cs0Div64 => true
  | .cs0Div256 => true
  | .cs0Div1024 => true
  | .cs0Reserved6 => true
  | .cs0Reserved7 => true
  | .cs1Stopped => true
  | .cs1Div1 => true
  | .cs1Div8 => true
  | .cs1Div64 => true
  | .cs1Div256 => true
  | .cs1Div1024 => true
  | .cs1Reserved6 => true
  | .cs1Reserved7 => true
  | .cs2Stopped => true
  | .cs2Div1 => true
  | .cs2Div8 => true
  | .cs2Div32 => true
  | .cs2Div64 => true
  | .cs2Div128 => true
  | .cs2Div256 => true
  | .cs2Div1024 => true
  | .com2aNoChange => true
  | .com2aToggle => true
  | .com2aForceLow => true
  | .com2aForceHigh => true
  | .wgm2Ctc => true
  | .icnc1On => true
  | .icnc1Off => true
  | .ices1Rising => true
  | .ices1Falling => true
  | .foc2aRequest => true
  | .toie0Enable => true
  | .tov0Pending => true
  | .ocie0aEnable => true
  | .ocf0aPending => true
  | .ocie0bEnable => true
  | .ocf0bPending => true
  | .toie1Enable => true
  | .tov1Pending => true
  | .ocie1aEnable => true
  | .ocf1aPending => true
  | .ocie1bEnable => true
  | .ocf1bPending => true
  | .toie2Enable => true
  | .tov2Pending => true
  | .ocie2aEnable => true
  | .ocf2aPending => true
  | .ocie2bEnable => true
  | .ocf2bPending => true
  | .busRead _ => true
  | .busWrite _ => true
  | .statusFraming => true
  | .statusParity => true
  | .statusByteAvailable => true
  | .statusRoom => true
  | .timerTick _ => true
  | .overflow _ => true
  | .matchA _ => true
  | .matchB _ => true
  | .dispatch _ => true
  | .oc2aUpdate => true
  | .poll => true
  | .compare _ => true
  | .csvPlay records => recordsFromOrigin records
  | .wavPlay _ => true
  | .sinkRun _ => true
  | .steps _ => true
  | .runTo _ => true
  | .feedAt _ _ => true
  | .setField f v => decide (v < 2 ^ f.pos.width)

end Sys2Proof
end

