-- ==== Sys2Proof/Decode.lean ====
section
/-! DEFINITION. Decode.lean: reading an operation from its coded form, total and rejecting by name, and after it the
encoder. `CMD32` words: spec/30_encoding.md R123, R124, R130. Selector rows: the `register`, `address`, `mask` and
`match` columns of spec/opcode_table.json. -/

namespace Sys2Proof

/-- Why a coded form spells no operation (R130 (d), notes/assumptions/2.md). -/
inductive Reject
  /-- `op` is one of 0x9 to 0xF. -/
  | reservedOp
  /-- `z` is not 0. -/
  | nonzeroZ
  /-- An operand bit that R123 says is 0 is 1. -/
  | operandBits
  /-- Bits of a width or value that no row of the table has. -/
  | noSuchWord
  /-- A location, mask and bits that no row of the table has. -/
  | noSuchSelector
  deriving DecidableEq, Repr

/-- The bus register a one-bit index names (R239). -/
def busRegOf (b : Bool) : BusReg := if b then .data else .control

/-- Decodes a `CMD32` word: `op = w[31:28]`, `z = w[27:24]`, `a = w[23:16]`, `d = w[15:0]` (R123). -/
def decodeCmd32 (w : Word32) : Except Reject Instr :=
  let op := (w.extractLsb' 28 4).toNat
  let z := (w.extractLsb' 24 4).toNat
  let a : Byte := w.extractLsb' 16 8
  let d : Word16 := w.extractLsb' 0 16
  let v : Byte := w.extractLsb' 0 8
  let noA := a.toNat = 0
  let noD := d.toNat = 0
  let aOneBit := a.toNat < 2
  let dOneByte := d.toNat < 256
  if z ≠ 0 then .error .nonzeroZ else
  match op with
  | 0x0 => if noA ∧ noD then .ok .reset else .error .operandBits
  | 0x1 => if noA ∧ noD then .ok .step else .error .operandBits
  | 0x2 => if noA ∧ d.toNat < 2 then .ok (.feed (d.getLsbD 0)) else .error .operandBits
  | 0x3 => if aOneBit ∧ noD then .ok (.rd (busRegOf (a.getLsbD 0))) else .error .operandBits
  | 0x4 => if aOneBit ∧ dOneByte then .ok (.wr (busRegOf (a.getLsbD 0)) v) else .error .operandBits
  | 0x5 => if noD then .ok (.csrr a) else .error .operandBits
  | 0x6 => if dOneByte then .ok (.csrw a v) else .error .operandBits
  | 0x7 => if noD then .ok (.csrr16 a) else .error .operandBits
  | 0x8 => .ok (.csrw16 a d)
  | _ => .error .reservedOp

/-- A selector row of the table without an operand: where it stands, the bits it fixes (`mask`) and their value
(`bits`), and the operation it stands for. -/
structure SelectorRow where
  loc : Location
  mask : Word16
  bits : Word16
  instr : Instr
  deriving DecidableEq, Repr

/-- Prescaler selects of Timer0 (R112). -/
def selectorRowsCs0 : List SelectorRow := [
  ⟨.csr 0x45, 0x07, 0x00, .cs0Stopped⟩,
  ⟨.csr 0x45, 0x07, 0x01, .cs0Div1⟩,
  ⟨.csr 0x45, 0x07, 0x02, .cs0Div8⟩,
  ⟨.csr 0x45, 0x07, 0x03, .cs0Div64⟩,
  ⟨.csr 0x45, 0x07, 0x04, .cs0Div256⟩,
  ⟨.csr 0x45, 0x07, 0x05, .cs0Div1024⟩,
  ⟨.csr 0x45, 0x07, 0x06, .cs0Reserved6⟩,
  ⟨.csr 0x45, 0x07, 0x07, .cs0Reserved7⟩]

/-- Prescaler selects of Timer1 (R112). -/
def selectorRowsCs1 : List SelectorRow := [
  ⟨.csr 0x81, 0x07, 0x00, .cs1Stopped⟩,
  ⟨.csr 0x81, 0x07, 0x01, .cs1Div1⟩,
  ⟨.csr 0x81, 0x07, 0x02, .cs1Div8⟩,
  ⟨.csr 0x81, 0x07, 0x03, .cs1Div64⟩,
  ⟨.csr 0x81, 0x07, 0x04, .cs1Div256⟩,
  ⟨.csr 0x81, 0x07, 0x05, .cs1Div1024⟩,
  ⟨.csr 0x81, 0x07, 0x06, .cs1Reserved6⟩,
  ⟨.csr 0x81, 0x07, 0x07, .cs1Reserved7⟩]

/-- Prescaler selects of Timer2 (R113). -/
def selectorRowsCs2 : List SelectorRow := [
  ⟨.csr 0xB1, 0x07, 0x00, .cs2Stopped⟩,
  ⟨.csr 0xB1, 0x07, 0x01, .cs2Div1⟩,
  ⟨.csr 0xB1, 0x07, 0x02, .cs2Div8⟩,
  ⟨.csr 0xB1, 0x07, 0x03, .cs2Div32⟩,
  ⟨.csr 0xB1, 0x07, 0x04, .cs2Div64⟩,
  ⟨.csr 0xB1, 0x07, 0x05, .cs2Div128⟩,
  ⟨.csr 0xB1, 0x07, 0x06, .cs2Div256⟩,
  ⟨.csr 0xB1, 0x07, 0x07, .cs2Div1024⟩]

/-- Output modes, waveform mode, capture selects, forced compare (R114 to R116). -/
def selectorRowsModes : List SelectorRow := [
  ⟨.csr 0xB0, 0xC0, 0x00, .com2aNoChange⟩,
  ⟨.csr 0xB0, 0xC0, 0x40, .com2aToggle⟩,
  ⟨.csr 0xB0, 0xC0, 0x80, .com2aForceLow⟩,
  ⟨.csr 0xB0, 0xC0, 0xC0, .com2aForceHigh⟩,
  ⟨.tccr2Pair, 0x0803, 0x0002, .wgm2Ctc⟩,
  ⟨.csr 0x81, 0x80, 0x80, .icnc1On⟩,
  ⟨.csr 0x81, 0x80, 0x00, .icnc1Off⟩,
  ⟨.csr 0x81, 0x40, 0x40, .ices1Rising⟩,
  ⟨.csr 0x81, 0x40, 0x00, .ices1Falling⟩,
  ⟨.csr 0xB1, 0x80, 0x80, .foc2aRequest⟩]

/-- Enable and flag bits (R116, R175, R176). -/
def selectorRowsFlags : List SelectorRow := [
  ⟨.csr 0x6E, 0x01, 0x01, .toie0Enable⟩,
  ⟨.csr 0x35, 0x01, 0x01, .tov0Pending⟩,
  ⟨.csr 0x6E, 0x02, 0x02, .ocie0aEnable⟩,
  ⟨.csr 0x35, 0x02, 0x02, .ocf0aPending⟩,
  ⟨.csr 0x6E, 0x04, 0x04, .ocie0bEnable⟩,
  ⟨.csr 0x35, 0x04, 0x04, .ocf0bPending⟩,
  ⟨.csr 0x6F, 0x01, 0x01, .toie1Enable⟩,
  ⟨.csr 0x36, 0x01, 0x01, .tov1Pending⟩,
  ⟨.csr 0x6F, 0x02, 0x02, .ocie1aEnable⟩,
  ⟨.csr 0x36, 0x02, 0x02, .ocf1aPending⟩,
  ⟨.csr 0x6F, 0x04, 0x04, .ocie1bEnable⟩,
  ⟨.csr 0x36, 0x04, 0x04, .ocf1bPending⟩,
  ⟨.csr 0x70, 0x01, 0x01, .toie2Enable⟩,
  ⟨.csr 0x37, 0x01, 0x01, .tov2Pending⟩,
  ⟨.csr 0x70, 0x02, 0x02, .ocie2aEnable⟩,
  ⟨.csr 0x37, 0x02, 0x02, .ocf2aPending⟩,
  ⟨.csr 0x70, 0x04, 0x04, .ocie2bEnable⟩,
  ⟨.csr 0x37, 0x04, 0x04, .ocf2bPending⟩]

/-- Status bits (R117). -/
def selectorRowsStatus : List SelectorRow := [
  ⟨.status, 0x08, 0x08, .statusFraming⟩,
  ⟨.status, 0x04, 0x04, .statusParity⟩,
  ⟨.status, 0x01, 0x00, .statusByteAvailable⟩,
  ⟨.status, 0x80, 0x00, .statusRoom⟩]

/-- The selector rows without an operand, in the table's order. -/
def selectorRows : List SelectorRow :=
  selectorRowsCs0 ++ selectorRowsCs1 ++ selectorRowsCs2 ++ selectorRowsModes ++ selectorRowsFlags ++ selectorRowsStatus

/-- Decodes a selector row from its location, mask and bits; the `BUSPIN` rows carry the register index in bit 0
(R118). Bits outside the mask are "not part of this selector" (the table's `source_fields`). -/
def decodeSelector (loc : Location) (mask bits : Word16) : Except Reject Instr :=
  if loc = .csr 0xE0 then
    if mask = 0xFE ∧ bits &&& 0xFE = 0x02 then .ok (.busRead (busRegOf (bits.getLsbD 0)))
    else if mask = 0xFE ∧ bits &&& 0xFE = 0x04 then .ok (.busWrite (busRegOf (bits.getLsbD 0)))
    else .error .noSuchSelector
  else
    match selectorRows.find? fun r => decide (r.loc = loc ∧ r.mask = mask ∧ r.bits = bits &&& mask) with
    | some r => .ok r.instr
    | none => .error .noSuchSelector

/-- Decodes a bare 8-bit or 16-bit word that carries no location: the first row of the table of that width whose fixed
bits are the word's and whose other bits are all 0 in it (notes/assumptions/2.md). -/
def decodeBare (pair : Bool) (w : Word16) : Except Reject Instr :=
  match selectorRows.find? fun r => decide (decide (r.loc = .tccr2Pair) = pair ∧ r.bits = w) with
  | some r => .ok r.instr
  | none => .error .noSuchWord

/-- Decodes the coded form of an operation. -/
def decode : Code → Except Reject Instr
  | .word nbits w =>
    if nbits = 32 ∧ w < 2 ^ 32 then decodeCmd32 (BitVec.ofNat 32 w)
    else if nbits = 16 ∧ w < 2 ^ 16 then decodeBare true (BitVec.ofNat 16 w)
    else if nbits = 8 ∧ w < 2 ^ 8 then decodeBare false (BitVec.ofNat 16 w)
    else .error .noSuchWord
  | .selector loc mask bits => decodeSelector loc mask bits
  | .operation i => .ok i

/-- The operation the decoder reads from `nbits` bits `w`, numbered as spec/opcode_table.json numbers them. -/
def decodeTableWord (nbits w : Nat) : Option Instr :=
  match decode (.word nbits w) with
  | .ok i => some i
  | .error _ => none

/-- The `CMD32` word of `op`, `a`, `d` with `z = 0` (R123). -/
def cmd32 (op : BitVec 4) (a : Byte) (d : Word16) : Word32 := op ++ 0#4 ++ a ++ d

/-- The level operand in `d` (R123). -/
def boolBits (l : Bool) : Word16 := if l then 1 else 0

/-- The register index in `a` (R123). -/
def busRegBits : BusReg → Byte
  | .control => 0
  | .data => 1

/-- The coded form of an operation. -/
def encode : Instr → Code
  | .reset => .word 32 (cmd32 0x0 0 0).toNat
  | .step => .word 32 (cmd32 0x1 0 0).toNat
  | .feed l => .word 32 (cmd32 0x2 0 (boolBits l)).toNat
  | .rd r => .word 32 (cmd32 0x3 (busRegBits r) 0).toNat
  | .wr r v => .word 32 (cmd32 0x4 (busRegBits r) (v.setWidth 16)).toNat
  | .csrr a => .word 32 (cmd32 0x5 a 0).toNat
  | .csrw a v => .word 32 (cmd32 0x6 a (v.setWidth 16)).toNat
  | .csrr16 a => .word 32 (cmd32 0x7 a 0).toNat
  | .csrw16 a v => .word 32 (cmd32 0x8 a v).toNat
  | .cs0Stopped => .selector (.csr 0x45) 0x07 0x00
  | .cs0Div1 => .selector (.csr 0x45) 0x07 0x01
  | .cs0Div8 => .selector (.csr 0x45) 0x07 0x02
  | .cs0Div64 => .selector (.csr 0x45) 0x07 0x03
  | .cs0Div256 => .selector (.csr 0x45) 0x07 0x04
  | .cs0Div1024 => .selector (.csr 0x45) 0x07 0x05
  | .cs0Reserved6 => .selector (.csr 0x45) 0x07 0x06
  | .cs0Reserved7 => .selector (.csr 0x45) 0x07 0x07
  | .cs1Stopped => .selector (.csr 0x81) 0x07 0x00
  | .cs1Div1 => .selector (.csr 0x81) 0x07 0x01
  | .cs1Div8 => .selector (.csr 0x81) 0x07 0x02
  | .cs1Div64 => .selector (.csr 0x81) 0x07 0x03
  | .cs1Div256 => .selector (.csr 0x81) 0x07 0x04
  | .cs1Div1024 => .selector (.csr 0x81) 0x07 0x05
  | .cs1Reserved6 => .selector (.csr 0x81) 0x07 0x06
  | .cs1Reserved7 => .selector (.csr 0x81) 0x07 0x07
  | .cs2Stopped => .selector (.csr 0xB1) 0x07 0x00
  | .cs2Div1 => .selector (.csr 0xB1) 0x07 0x01
  | .cs2Div8 => .selector (.csr 0xB1) 0x07 0x02
  | .cs2Div32 => .selector (.csr 0xB1) 0x07 0x03
  | .cs2Div64 => .selector (.csr 0xB1) 0x07 0x04
  | .cs2Div128 => .selector (.csr 0xB1) 0x07 0x05
  | .cs2Div256 => .selector (.csr 0xB1) 0x07 0x06
  | .cs2Div1024 => .selector (.csr 0xB1) 0x07 0x07
  | .com2aNoChange => .selector (.csr 0xB0) 0xC0 0x00
  | .com2aToggle => .selector (.csr 0xB0) 0xC0 0x40
  | .com2aForceLow => .selector (.csr 0xB0) 0xC0 0x80
  | .com2aForceHigh => .selector (.csr 0xB0) 0xC0 0xC0
  | .wgm2Ctc => .selector .tccr2Pair 0x0803 0x0002
  | .icnc1On => .selector (.csr 0x81) 0x80 0x80
  | .icnc1Off => .selector (.csr 0x81) 0x80 0x00
  | .ices1Rising => .selector (.csr 0x81) 0x40 0x40
  | .ices1Falling => .selector (.csr 0x81) 0x40 0x00
  | .foc2aRequest => .selector (.csr 0xB1) 0x80 0x80
  | .toie0Enable => .selector (.csr 0x6E) 0x01 0x01
  | .tov0Pending => .selector (.csr 0x35) 0x01 0x01
  | .ocie0aEnable => .selector (.csr 0x6E) 0x02 0x02
  | .ocf0aPending => .selector (.csr 0x35) 0x02 0x02
  | .ocie0bEnable => .selector (.csr 0x6E) 0x04 0x04
  | .ocf0bPending => .selector (.csr 0x35) 0x04 0x04
  | .toie1Enable => .selector (.csr 0x6F) 0x01 0x01
  | .tov1Pending => .selector (.csr 0x36) 0x01 0x01
  | .ocie1aEnable => .selector (.csr 0x6F) 0x02 0x02
  | .ocf1aPending => .selector (.csr 0x36) 0x02 0x02
  | .ocie1bEnable => .selector (.csr 0x6F) 0x04 0x04
  | .ocf1bPending => .selector (.csr 0x36) 0x04 0x04
  | .toie2Enable => .selector (.csr 0x70) 0x01 0x01
  | .tov2Pending => .selector (.csr 0x37) 0x01 0x01
  | .ocie2aEnable => .selector (.csr 0x70) 0x02 0x02
  | .ocf2aPending => .selector (.csr 0x37) 0x02 0x02
  | .ocie2bEnable => .selector (.csr 0x70) 0x04 0x04
  | .ocf2bPending => .selector (.csr 0x37) 0x04 0x04
  | .busRead r => .selector (.csr 0xE0) 0xFE (0x02 ||| (busRegBits r).setWidth 16)
  | .busWrite r => .selector (.csr 0xE0) 0xFE (0x04 ||| (busRegBits r).setWidth 16)
  | .statusFraming => .selector .status 0x08 0x08
  | .statusParity => .selector .status 0x04 0x04
  | .statusByteAvailable => .selector .status 0x01 0x00
  | .statusRoom => .selector .status 0x80 0x00
  | .timerTick n => .operation (.timerTick n)
  | .overflow n => .operation (.overflow n)
  | .matchA n => .operation (.matchA n)
  | .matchB n => .operation (.matchB n)
  | .dispatch src => .operation (.dispatch src)
  | .oc2aUpdate => .operation .oc2aUpdate
  | .poll => .operation .poll
  | .compare b => .operation (.compare b)
  | .csvPlay records => .operation (.csvPlay records)
  | .wavPlay bytes => .operation (.wavPlay bytes)
  | .sinkRun data => .operation (.sinkRun data)
  | .steps n => .operation (.steps n)
  | .runTo t => .operation (.runTo t)
  | .feedAt t l => .operation (.feedAt t l)
  | .setField f v => .operation (.setField f v)

end Sys2Proof
end

