-- ==== Sys2Proof/Machine/State.lean ====
section
/-! DEFINITION. Machine/State.lean: the state of the machine as plain data (INVENTORY.md, section State), the reasons
it can stop, and the state after reset (spec/10_state.md R55). -/

namespace Sys2Proof.Machine

/-- The registers of the CSR space (spec/10_state.md R22 to R46). The four 16-bit CSRs are held whole; their two bytes
are views of them (Machine/Operands.lean). -/
structure Csrs where
  tcnt0 : Byte := 0
  ocr0a : Byte := 0
  ocr0b : Byte := 0
  tcnt1 : Word16 := 0
  ocr1a : Word16 := 0
  ocr1b : Word16 := 0
  icr1 : Word16 := 0
  tcnt2 : Byte := 0
  ocr2a : Byte := 0
  ocr2b : Byte := 0
  tccr0a : Byte := 0
  tccr0b : Byte := 0
  timsk0 : Byte := 0
  tifr0 : Byte := 0
  tccr1a : Byte := 0
  tccr1b : Byte := 0
  tccr1c : Byte := 0
  timsk1 : Byte := 0
  tifr1 : Byte := 0
  tccr2a : Byte := 0
  tccr2b : Byte := 0
  timsk2 : Byte := 0
  tifr2 : Byte := 0
  busctl : Byte := 0
  busdata : Byte := 0
  deriving DecidableEq, Repr

/-- The firmware's private state `fwst` (R51): its variables (variable `x` is entry `x`, 0 beyond the end), the values
its stubs appended, and the value of its last CSR read, which is the result of `CSRR` and `CSRR16`. -/
structure FwState where
  vars : List Nat := []
  log : List Nat := []
  lastRead : Word16 := 0
  deriving DecidableEq, Repr

/-- The open parameters of a run (spec/00_scope.md R10); no operation writes them. -/
structure Params where
  clockHz : Nat
  leaderOffset : Nat
  idleTimeout : Nat
  txBusyBit : TxBusyBit
  deriving DecidableEq, Repr

/-- The serial frame decoder: its configuration (spec/45_serial_status_decode.md R260), its state (R261), and its
output, the bytes received and the number of reports "end of comparison stream" (R269). -/
structure Decoder where
  keepGoing : Bool := false
  ref : Option (List Byte) := none
  ignoreLeader : Bool := false
  refPos : Nat := 0
  inLeader : Bool := false
  stopped : Bool := false
  received : List Byte := []
  endReports : Nat := 0
  deriving DecidableEq, Repr

/-- The byte order of a stream: "little-endian assumed" (spec/46_audio_source_resampler.md R281, spec/20_memory.md
R87). -/
inductive ByteOrder
  | littleEndian
  deriving DecidableEq, Repr

/-- The descriptor of a WAV stream (spec/46_audio_source_resampler.md R281). -/
structure Descriptor where
  channels : Nat
  sampleRate : Nat
  bitDepth : Nat
  byteOrder : ByteOrder
  deriving DecidableEq, Repr

/-- The audio source adapter (R281). -/
structure Source where
  origin : Option Nat := none
  t0 : Nat := 0
  k : Nat := 0
  descriptor : Option Descriptor := none
  deriving DecidableEq, Repr

/-- The audio sink encoder: the bytes to send, its state (spec/47_audio_sink_resampler.md R311), the samples written so
far (R322), and the output file, which stands once the header is written at the end (R324). -/
structure Sink where
  data : List Byte := []
  t0 : Nat := 0
  leaderEnd : Nat := 0
  endTime : Nat := 0
  pos : Nat := 0
  prev : Int := 0
  lastLevel : Bool := false
  lastChange : Nat := 0
  toggled : Bool := false
  n : Nat := 0
  samples : List Byte := []
  file : List Byte := []
  deriving DecidableEq, Repr

/-- The seven error kinds and what each records (spec/60_exceptions.md R340). They are recorded, they stop nothing
(R341, notes/assumptions/15.md). -/
inductive HostError
  | framing (tick : Nat)
  | parity (tick : Nat)
  | mismatch (expected actual : Byte) (tick : Nat)
  | unsupportedFormat (tick : Nat)
  /-- Raised when a stream is opened, which is outside the block (R340): no operation raises it. -/
  | fileOpen
  | bufferStuck (tick : Nat)
  | truncated (tick : Nat)
  deriving DecidableEq, Repr

/-- One callback that was made, and the tick at which (notes/assumptions/11.md). -/
structure Call where
  callback : Callback
  tick : Nat
  deriving DecidableEq, Repr

/-- What is under way, the model's own note (R9, R244, notes/assumptions/8.md): nothing, between two operations of the
host; a `STEP`, in which the block performs its sub-operations; or a callback, in which the firmware acts. -/
inductive Moment
  | between
  | step
  | callback (c : Callback)
  deriving DecidableEq, Repr

structure State where
  /-- R20 -/
  tick : Nat
  /-- R22 to R46 -/
  csr : Csrs
  /-- `cap.prevLevel`, R47 -/
  prevLevel : Bool
  /-- `cap.lastAccept`, R48 -/
  lastAccept : Option Nat
  /-- `oc2a_match`, R49 -/
  oc2aMatch : Bool
  /-- `OC2A`, R50 -/
  oc2a : Bool
  /-- The binding of callbacks, R51; no operation writes it (R97). -/
  fw : Firmware
  /-- R384; no operation writes it. -/
  fwst0 : FwState
  /-- R51 -/
  fwst : FwState
  /-- What is under way (R8, R9, R244, R362). -/
  moment : Moment
  params : Params
  dec : Decoder
  src : Source
  snk : Sink
  /-- The byte the last `RD` returned (R231). -/
  hostResult : Byte
  /-- The errors recorded in the current run, oldest first (R340). -/
  errors : List HostError
  /-- Success or failure of the last procedure (R341). -/
  outcome : Option Bool
  /-- Exit status of the last procedure (R341). -/
  exitStatus : Option Nat
  /-- The callbacks made, oldest first. -/
  calls : List Call
  /-- The operations still to perform, next first (notes/assumptions/1.md). -/
  trace : List Code
  deriving DecidableEq, Repr

/-- No operation of this hardware faults: "nothing in this block is `stuck`" (spec/93_implementation_defined.md) and
the error kinds are records of the host procedures (R340, R341). So there is no constructor; this is exact, neither
safe nor unsafe. -/
inductive Fault : Type where
  deriving DecidableEq, Repr

/-- Why the model gives an operation no meaning. A refusal ends the run ("marks the run as refused", R82). -/
inductive Refusal
  /-- Raised by exec's arm of an operation without a meaning (there is none). Safe. -/
  | notModelled (mnemonic : String)
  /-- Raised by an 8-bit CSR access at an unmapped address (R82, R84, R85, U2). Safe. -/
  | unmappedCsr (address : Byte)
  /-- Raised by a firmware write to `BUSCTL` (R45, R85, U2). Safe. -/
  | busctlReadOnly
  /-- Raised by a 16-bit CSR access at an address other than 0x84, 0x86, 0x88, 0x8A (R89, U2). Safe. -/
  | notSixteenBit (address : Byte)
  /-- Raised by an operation of the host or the block inside a callback (R362, U10). Safe. -/
  | hostOperationInCallback
  /-- Raised by an operation of the host inside a `STEP`: "No two operations overlap" (R9). Safe. -/
  | hostOperationInStep
  /-- Raised by a sub-operation of the block that is no part of a `STEP` (R8, R9). Safe. -/
  | subOperationOutsideStep
  /-- Raised by an operation of the firmware outside a callback (R244). Safe. -/
  | firmwareOperationOutsideCallback
  /-- Raised by a CSV record whose time is before the origin (R285, U13). Safe. -/
  | recordBeforeOrigin
  /-- Raised by the fetch of a coded form that spells no operation (R130 (d), U9). Safe. -/
  | illFormedWord (reason : Reject)
  deriving DecidableEq, Repr

/-- The machine right after reset (R55, R380), with a firmware whose callbacks are all no-ops (R7), the open
parameters free (notes/assumptions/9.md), the host procedures at their start values and nothing to perform. -/
def State.reset : State where
  tick := 0
  csr := {}
  prevLevel := false
  lastAccept := none
  oc2aMatch := false
  oc2a := false
  fw := {}
  fwst0 := {}
  fwst := {}
  moment := .between
  params := ⟨Config.clockHz, Config.leaderOffset, Config.idleTimeout, Config.txBusyBit⟩
  dec := {}
  src := {}
  snk := {}
  hostResult := 0
  errors := []
  outcome := none
  exitStatus := none
  calls := []
  trace := []

end Sys2Proof.Machine
end

