-- ==== Sys2Proof/Machine/Operands.lean ====
section
/-! DEFINITION. Machine/Operands.lean: the operand forms. CSR bytes and 16-bit CSRs (spec/20_memory.md), the fields
the block reads (spec/30_encoding.md R112 to R116), the counters and compare registers of a channel by number
(spec/41_timer_channel.md), and the little-endian bytes of the streams (R87). -/

namespace Sys2Proof.Machine

/-- The low byte of a 16-bit CSR. -/
def lowByte (x : Word16) : Byte := x.extractLsb' 0 8
/-- The high byte of a 16-bit CSR. -/
def highByte (x : Word16) : Byte := x.extractLsb' 8 8

/-- The byte stored in a cell of the CSR space (R84); a 16-bit CSR is little-endian (R86). -/
def cellRead (c : Csrs) : CsrCell → Byte
  | .tifr0 => c.tifr0 | .tifr1 => c.tifr1 | .tifr2 => c.tifr2
  | .tccr0a => c.tccr0a | .tccr0b => c.tccr0b | .tcnt0 => c.tcnt0 | .ocr0a => c.ocr0a | .ocr0b => c.ocr0b
  | .timsk0 => c.timsk0 | .timsk1 => c.timsk1 | .timsk2 => c.timsk2
  | .tccr1a => c.tccr1a | .tccr1b => c.tccr1b | .tccr1c => c.tccr1c
  | .tcnt1Low => lowByte c.tcnt1 | .tcnt1High => highByte c.tcnt1
  | .icr1Low => lowByte c.icr1 | .icr1High => highByte c.icr1
  | .ocr1aLow => lowByte c.ocr1a | .ocr1aHigh => highByte c.ocr1a
  | .ocr1bLow => lowByte c.ocr1b | .ocr1bHigh => highByte c.ocr1b
  | .tccr2a => c.tccr2a | .tccr2b => c.tccr2b | .tcnt2 => c.tcnt2 | .ocr2a => c.ocr2a | .ocr2b => c.ocr2b
  | .busctl => c.busctl | .busdata => c.busdata

/-- A 16-bit CSR with its low byte replaced (R88). -/
def withLow (x : Word16) (v : Byte) : Word16 := highByte x ++ v
/-- A 16-bit CSR with its high byte replaced (R88). -/
def withHigh (x : Word16) (v : Byte) : Word16 := v ++ lowByte x

/-- The CSRs with one byte stored, all eight bits (R85). -/
def cellWrite (c : Csrs) (cell : CsrCell) (v : Byte) : Csrs :=
  match cell with
  | .tifr0 => { c with tifr0 := v } | .tifr1 => { c with tifr1 := v } | .tifr2 => { c with tifr2 := v }
  | .tccr0a => { c with tccr0a := v } | .tccr0b => { c with tccr0b := v } | .tcnt0 => { c with tcnt0 := v }
  | .ocr0a => { c with ocr0a := v } | .ocr0b => { c with ocr0b := v }
  | .timsk0 => { c with timsk0 := v } | .timsk1 => { c with timsk1 := v } | .timsk2 => { c with timsk2 := v }
  | .tccr1a => { c with tccr1a := v } | .tccr1b => { c with tccr1b := v } | .tccr1c => { c with tccr1c := v }
  | .tcnt1Low => { c with tcnt1 := withLow c.tcnt1 v } | .tcnt1High => { c with tcnt1 := withHigh c.tcnt1 v }
  | .icr1Low => { c with icr1 := withLow c.icr1 v } | .icr1High => { c with icr1 := withHigh c.icr1 v }
  | .ocr1aLow => { c with ocr1a := withLow c.ocr1a v } | .ocr1aHigh => { c with ocr1a := withHigh c.ocr1a v }
  | .ocr1bLow => { c with ocr1b := withLow c.ocr1b v } | .ocr1bHigh => { c with ocr1b := withHigh c.ocr1b v }
  | .tccr2a => { c with tccr2a := v } | .tccr2b => { c with tccr2b := v } | .tcnt2 => { c with tcnt2 := v }
  | .ocr2a => { c with ocr2a := v } | .ocr2b => { c with ocr2b := v }
  | .busctl => { c with busctl := v } | .busdata => { c with busdata := v }

/-- The value of a 16-bit CSR (R84). -/
def read16 (c : Csrs) : Csr16 → Word16
  | .tcnt1 => c.tcnt1 | .icr1 => c.icr1 | .ocr1a => c.ocr1a | .ocr1b => c.ocr1b

/-- The CSRs with a 16-bit CSR stored, both bytes at once (R85). -/
def write16 (c : Csrs) (r : Csr16) (v : Word16) : Csrs :=
  match r with
  | .tcnt1 => { c with tcnt1 := v } | .icr1 => { c with icr1 := v }
  | .ocr1a => { c with ocr1a := v } | .ocr1b => { c with ocr1b := v }

/-- The value of a named field (R111). -/
def fieldRead (c : Csrs) (f : CsrField) : Byte := extractField f.pos.lo f.pos.width (cellRead c f.pos.cell)

/-- The CSRs with a named field replaced, the other bits of its register kept (R132, R245). -/
def fieldWrite (c : Csrs) (f : CsrField) (v : Byte) : Csrs :=
  cellWrite c f.pos.cell (replaceField f.pos.lo f.pos.width v (cellRead c f.pos.cell))

/-- `div01`: the divisor of a prescaler code of Timer0 and Timer1, 0 is stopped (R112). -/
def div01 (c : Byte) : Nat :=
  match c.toNat with
  | 1 => 1 | 2 => 8 | 3 => 64 | 4 => 256 | 5 => 1024 | _ => 0

/-- `div2`: the divisor of a prescaler code of Timer2 (R113). -/
def div2 (c : Byte) : Nat :=
  match c.toNat with
  | 1 => 1 | 2 => 8 | 3 => 32 | 4 => 64 | 5 => 128 | 6 => 256 | 7 => 1024 | _ => 0

/-- `divisor(n)` (R145). -/
def divisor (c : Csrs) : Channel → Nat
  | .t0 => div01 (fieldRead c .cs0)
  | .t1 => div01 (fieldRead c .cs1)
  | .t2 => div2 (fieldRead c .cs2)

/-- `due(d, t)`, the bitmask test of R146. It is asked only of the divisors of the two tables, which are 0 or powers
of two (R146, U3). -/
def due (d t : Nat) : Bool := decide (0 < d) && t &&& (d - 1) == 0

/-- `WGM2 = TCCR2B[3] ++ TCCR2A[1:0]` (R115, R124). -/
def wgm2 (c : Csrs) : BitVec 3 := c.tccr2b.extractLsb' 3 1 ++ c.tccr2a.extractLsb' 0 2

/-- `W(n)`, the width of a channel (R10, R161). -/
def channelWidth : Channel → Nat
  | .t0 => 8 | .t1 => 16 | .t2 => 8

/-- `M(n) = 2^W(n)` (R161). -/
def channelModulus (n : Channel) : Nat := 2 ^ channelWidth n

/-- `TCNTn`. -/
def counter (c : Csrs) : Channel → Nat
  | .t0 => c.tcnt0.toNat | .t1 => c.tcnt1.toNat | .t2 => c.tcnt2.toNat

/-- `OCRnA`. -/
def compareA (c : Csrs) : Channel → Nat
  | .t0 => c.ocr0a.toNat | .t1 => c.ocr1a.toNat | .t2 => c.ocr2a.toNat

/-- `OCRnB`. -/
def compareB (c : Csrs) : Channel → Nat
  | .t0 => c.ocr0b.toNat | .t1 => c.ocr1b.toNat | .t2 => c.ocr2b.toNat

/-- The CSRs with `TCNTn` set. -/
def setCounter (c : Csrs) (n : Channel) (v : Nat) : Csrs :=
  match n with
  | .t0 => { c with tcnt0 := BitVec.ofNat 8 v }
  | .t1 => { c with tcnt1 := BitVec.ofNat 16 v }
  | .t2 => { c with tcnt2 := BitVec.ofNat 8 v }

/-- `round(a / b) = floor((2a + b) / (2b))`, a half up (spec/00_scope.md R11, R290). -/
def roundDiv (a b : Nat) : Nat := (2 * a + b) / (2 * b)

/-- The unsigned value of bytes, the first the lowest (R87). -/
def leNat : List Byte → Nat
  | [] => 0
  | b :: bs => b.toNat + 256 * leNat bs

/-- `n` bytes of `v`, the lowest first (R87). -/
def leBytes (n v : Nat) : List Byte :=
  match n with
  | 0 => []
  | n + 1 => BitVec.ofNat 8 v :: leBytes n (v / 256)

/-- The bytes of `bs` from `at_`, `n` of them. -/
def slice (bs : List Byte) (at_ n : Nat) : List Byte := (bs.drop at_).take n

end Sys2Proof.Machine
end

