-- ==== Sys2Proof/Machine/Flags.lean ====
section
/-! DEFINITION. Machine/Flags.lean: the pending flags `TIFRn` and the enables `TIMSKn` of the nine timer sources
(spec/30_encoding.md R111, spec/41_timer_channel.md R175). -/

namespace Sys2Proof.Machine

/-- `flag(src)`: `TOVn`, `OCFnA`, `OCFnB` (R175). -/
def flagField (src : TimerSource) : CsrField :=
  match src.channel, src.event with
  | .t0, .ovf => .tov0 | .t0, .compA => .ocf0a | .t0, .compB => .ocf0b
  | .t1, .ovf => .tov1 | .t1, .compA => .ocf1a | .t1, .compB => .ocf1b
  | .t2, .ovf => .tov2 | .t2, .compA => .ocf2a | .t2, .compB => .ocf2b

/-- `enable(src)`: `TOIEn`, `OCIEnA`, `OCIEnB` (R175). -/
def enableField (src : TimerSource) : CsrField :=
  match src.channel, src.event with
  | .t0, .ovf => .toie0 | .t0, .compA => .ocie0a | .t0, .compB => .ocie0b
  | .t1, .ovf => .toie1 | .t1, .compA => .ocie1a | .t1, .compB => .ocie1b
  | .t2, .ovf => .toie2 | .t2, .compA => .ocie2a | .t2, .compB => .ocie2b

/-- Whether a source's enable bit is 1. -/
def enabled (c : Csrs) (src : TimerSource) : Bool := fieldRead c (enableField src) == 1

/-- Whether a source's flag is 1. -/
def flagged (c : Csrs) (src : TimerSource) : Bool := fieldRead c (flagField src) == 1

/-- `set flag(src)`, the other bits kept (spec/00_scope.md R12). -/
def setFlag (c : Csrs) (src : TimerSource) : Csrs := fieldWrite c (flagField src) 1

/-- `clear flag(src)`, the other bits kept (R12). -/
def clearFlag (c : Csrs) (src : TimerSource) : Csrs := fieldWrite c (flagField src) 0

end Sys2Proof.Machine
end

