-- ==== Sys2Proof/Machine/Ops.lean ====
section
/-! DEFINITION. Machine/Ops.lean: the named operations the meanings are made of. Outcomes in sequence, the CSR access
primitives (spec/20_memory.md R84, R85), the firmware's stubs, taking an interrupt and returning from it
(spec/60_exceptions.md R358, R360), and who may perform what. -/

namespace Sys2Proof.Machine

/-- What an operation answers. -/
abbrev Result := Host.Outcome State Fault Refusal

/-- One operation after another: the second runs on the state the first leaves (R93). -/
def andThen (o : Result) (k : State → Result) : Result :=
  match o with
  | .next s => k s
  | .fault r => .fault r
  | .refused r => .refused r

/-- An operation performed `n` times. -/
def iterate (f : State → Result) : Nat → State → Result
  | 0, s => .next s
  | n + 1, s => andThen (f s) (iterate f n)

/-- `CsrRead(a, 1)`: the byte at a mapped address becomes the firmware's last read (R84); nothing else changes. -/
def csrRead8 (a : Byte) (s : State) : Result :=
  match csrAt a with
  | some cell => .next { s with fwst := { s.fwst with lastRead := (cellRead s.csr cell).setWidth 16 } }
  | none => .refused (.unmappedCsr a)

/-- `CsrRead(a, 2)` (R84, R89). -/
def csrRead16 (a : Byte) (s : State) : Result :=
  match csr16At a with
  | some r => .next { s with fwst := { s.fwst with lastRead := read16 s.csr r } }
  | none => .refused (.notSixteenBit a)

/-- `CsrWrite(a, 1, v)`: stores and does nothing else (R85). -/
def csrWrite8 (a v : Byte) (s : State) : Result :=
  match csrAt a with
  | some .busctl => .refused .busctlReadOnly
  | some cell => .next { s with csr := cellWrite s.csr cell v }
  | none => .refused (.unmappedCsr a)

/-- `CsrWrite(a, 2, v)`: both bytes at once (R85, R89). -/
def csrWrite16 (a : Byte) (v : Word16) (s : State) : Result :=
  match csr16At a with
  | some r => .next { s with csr := write16 s.csr r v }
  | none => .refused (.notSixteenBit a)

/-- What `SET` of `v` puts in a field: `v` where it fits the field, else a free value, of which the field keeps the bits
it has. DESIGN CHOICE: the spec states no result for a `v` too wide (notes/assumptions/19.md). -/
def setValue (f : CsrField) (v : Nat) : Byte :=
  if v < 2 ^ f.pos.width then BitVec.ofNat 8 v else Config.wideFieldValue f.pos.cell.address.toNat f.pos.lo v

/-- `SET REG.FIELD, v`: `x <- CSRR REG`, then `CSRW REG` of `x` with the field replaced (R132, R245). -/
def setFieldRegister (f : CsrField) (v : Nat) (s : State) : Result :=
  andThen (csrRead8 f.pos.cell.address s) fun s =>
    csrWrite8 f.pos.cell.address
      (replaceField f.pos.lo f.pos.width (setValue f v) (s.fwst.lastRead.setWidth 8)) s

/-- The value of an operator of a stub. -/
def FwOp.eval : FwOp → Nat → Nat → Nat
  | .add, a, b => a + b
  | .sub, a, b => a - b
  | .mul, a, b => a * b
  | .div, a, b => a / b
  | .mod, a, b => a % b
  | .and, a, b => a &&& b
  | .or, a, b => a ||| b
  | .xor, a, b => a ^^^ b
  | .eq, a, b => if a = b then 1 else 0
  | .lt, a, b => if a < b then 1 else 0

/-- The value of a stub's expression. -/
def FwExp.eval (s : State) : FwExp → Nat
  | .lit n => n
  | .var x => s.fwst.vars.getD x 0
  | .lastRead => s.fwst.lastRead.toNat
  | .tick => s.tick
  | .bin op a b => FwOp.eval op (FwExp.eval s a) (FwExp.eval s b)

/-- A list with entry `x` set, extended with zeros up to it. -/
def setVar : List Nat → Nat → Nat → List Nat
  | [], 0, v => [v]
  | [], x + 1, v => 0 :: setVar [] x v
  | _ :: vs, 0, v => v :: vs
  | w :: vs, x + 1, v => w :: setVar vs x v

/-- Runs a stub: CSR operations and assignments in order (R131), refused where it names a host operation (R362). DESIGN
CHOICE: the value of an expression that is written to a whole register is taken modulo the register's width
(notes/assumptions/7.md); `SET` is as in a trace (`setValue`, notes/assumptions/19.md). -/
def runStub : FwStmt → State → Result
  | .skip, s => .next s
  | .seq a b, s => andThen (runStub a s) (runStub b)
  | .assign x e, s => .next { s with fwst := { s.fwst with vars := setVar s.fwst.vars x (FwExp.eval s e) } }
  | .append e, s => .next { s with fwst := { s.fwst with log := s.fwst.log ++ [FwExp.eval s e] } }
  | .csrr a, s => csrRead8 a s
  | .csrw a e, s => csrWrite8 a (BitVec.ofNat 8 (FwExp.eval s e)) s
  | .csrr16 a, s => csrRead16 a s
  | .csrw16 a e, s => csrWrite16 a (BitVec.ofNat 16 (FwExp.eval s e)) s
  | .set f e, s => setFieldRegister f (FwExp.eval s e) s
  | .ite c a b, s => if FwExp.eval s c ≠ 0 then runStub a s else runStub b s
  | .times e a, s => iterate (runStub a) (FwExp.eval s e) s
  | .host _, _ => .refused .hostOperationInCallback

/-- The stub bound to a callback (R350, R352). -/
def stubOf (fw : Firmware) : Callback → FwStmt
  | .setup => fw.setup
  | .loop => fw.loop
  | .timer ⟨.t0, .ovf⟩ => fw.t0Ovf
  | .timer ⟨.t0, .compA⟩ => fw.t0CompA
  | .timer ⟨.t0, .compB⟩ => fw.t0CompB
  | .timer ⟨.t1, .ovf⟩ => fw.t1Ovf
  | .timer ⟨.t1, .compA⟩ => fw.t1CompA
  | .timer ⟨.t1, .compB⟩ => fw.t1CompB
  | .timer ⟨.t2, .ovf⟩ => fw.t2Ovf
  | .timer ⟨.t2, .compA⟩ => fw.t2CompA
  | .timer ⟨.t2, .compB⟩ => fw.t2CompB
  | .capture => fw.t1Capt
  | .pcRead => fw.pcRead
  | .pcWrite => fw.pcWrite

/-- Entry into a callback: saves nothing and changes no state of the block (R358). The model notes which callback
runs, and records the call. -/
def enterCallback (c : Callback) (s : State) : State :=
  { s with moment := .callback c, calls := s.calls ++ [⟨c, s.tick⟩] }

/-- Return from a callback into what was under way, `m`: nothing of the block is restored, because nothing was saved
(R360). -/
def returnFromCallback (m : Moment) (s : State) : State := { s with moment := m }

/-- `call fw.c`: the callback runs to completion before the caller goes on (R12, R51, R362). -/
def call (c : Callback) (s : State) : Result :=
  andThen (runStub (stubOf s.fw c) (enterCallback c s)) fun t => .next (returnFromCallback s.moment t)

/-- `DISPATCH(src)`: taking a timer interrupt (R175). The enable bit is read before the call, the flag is cleared
after the return, and with the enable bit 0 nothing happens. -/
def dispatchSource (src : TimerSource) (s : State) : Result :=
  if enabled s.csr src then
    andThen (call (.timer src) s) fun s => .next { s with csr := clearFlag s.csr src }
  else .next s

/-- An operation of the host: not inside a callback (R362), and not inside a `STEP` (R9). -/
def betweenOperations (s : State) (k : State → Result) : Result :=
  match s.moment with
  | .between => k s
  | .step => .refused .hostOperationInStep
  | .callback _ => .refused .hostOperationInCallback

/-- A sub-operation of the block: only inside a `STEP` (R8, R9). -/
def insideStep (s : State) (k : State → Result) : Result :=
  match s.moment with
  | .between => .refused .subOperationOutsideStep
  | .step => k s
  | .callback _ => .refused .hostOperationInCallback

/-- An operation of the firmware: only inside a callback (R244). -/
def insideCallback (s : State) (k : State → Result) : Result :=
  match s.moment with
  | .callback _ => k s
  | _ => .refused .firmwareOperationOutsideCallback

/-- The firmware writes one named field, the other bits of the register kept (R245). -/
def writeSelector (f : CsrField) (v : Byte) (s : State) : Result :=
  insideCallback s fun s => .next { s with csr := fieldWrite s.csr f v }

/-- The numeric code of an error kind (R340, D27). -/
def errorCode : HostError → Nat
  | .framing _ => 1
  | .parity _ => 2
  | .mismatch _ _ _ => 3
  | .unsupportedFormat _ => 4
  | .fileOpen => 5
  | .bufferStuck _ => 6
  | .truncated _ => 7

/-- `raise <Error>`: the host records an error (R12, R340). -/
def recordError (e : HostError) (s : State) : State := { s with errors := s.errors ++ [e] }

end Sys2Proof.Machine
end

