-- ==== Sys2Proof/Machine/CsrAccess.lean ====
section
/-! DEFINITION. Machine/CsrAccess.lean: the firmware's CSR operations (spec/44_csr_bus.md R235 to R238, R244) and
`SET REG.FIELD, v` (spec/30_encoding.md R132). -/

namespace Sys2Proof.Machine

/-- Meaning of `CSRR a` (R235). -/
def execCsrr (a : Byte) (s : State) : Result := insideCallback s (csrRead8 a)
/-- Meaning of `CSRW a, v` (R236). -/
def execCsrw (a v : Byte) (s : State) : Result := insideCallback s (csrWrite8 a v)
/-- Meaning of `CSRR16 a` (R237). -/
def execCsrr16 (a : Byte) (s : State) : Result := insideCallback s (csrRead16 a)
/-- Meaning of `CSRW16 a, v` (R238). -/
def execCsrw16 (a : Byte) (v : Word16) (s : State) : Result := insideCallback s (csrWrite16 a v)
/-- Meaning of `SET REG.FIELD, v` (R132). -/
def execSetField (f : CsrField) (v : Nat) (s : State) : Result := insideCallback s (setFieldRegister f v)

end Sys2Proof.Machine
end

