-- ==== Sys2Proof/Machine/Selectors.lean ====
section
/-! DEFINITION. Machine/Selectors.lean: the field values of the CSRs that select a behaviour (spec/30_encoding.md R112
to R116), each as the firmware's write of that field, every other bit of the register kept (spec/44_csr_bus.md R245,
spec/30_encoding.md R132, notes/assumptions/3.md). A write stores and does nothing else at the time of the write
(spec/20_memory.md R85): what the value selects is in the rules that read the field. -/

namespace Sys2Proof.Machine

/-- Meaning of `CS0 = 0b000 (stopped)` (R112). -/
def execCs0Stopped (s : State) : Result := writeSelector .cs0 0 s
/-- Meaning of `CS0 = 0b001 (divisor 1)` (R112). -/
def execCs0Div1 (s : State) : Result := writeSelector .cs0 1 s
/-- Meaning of `CS0 = 0b010 (divisor 8)` (R112). -/
def execCs0Div8 (s : State) : Result := writeSelector .cs0 2 s
/-- Meaning of `CS0 = 0b011 (divisor 64)` (R112). -/
def execCs0Div64 (s : State) : Result := writeSelector .cs0 3 s
/-- Meaning of `CS0 = 0b100 (divisor 256)` (R112). -/
def execCs0Div256 (s : State) : Result := writeSelector .cs0 4 s
/-- Meaning of `CS0 = 0b101 (divisor 1024)` (R112). -/
def execCs0Div1024 (s : State) : Result := writeSelector .cs0 5 s
/-- Meaning of `CS0 = 0b110 (reserved, stopped)` (R112). -/
def execCs0Reserved6 (s : State) : Result := writeSelector .cs0 6 s
/-- Meaning of `CS0 = 0b111 (reserved, stopped)` (R112). -/
def execCs0Reserved7 (s : State) : Result := writeSelector .cs0 7 s
/-- Meaning of `CS1 = 0b000 (stopped)` (R112). -/
def execCs1Stopped (s : State) : Result := writeSelector .cs1 0 s
/-- Meaning of `CS1 = 0b001 (divisor 1)` (R112). -/
def execCs1Div1 (s : State) : Result := writeSelector .cs1 1 s
/-- Meaning of `CS1 = 0b010 (divisor 8)` (R112). -/
def execCs1Div8 (s : State) : Result := writeSelector .cs1 2 s
/-- Meaning of `CS1 = 0b011 (divisor 64)` (R112). -/
def execCs1Div64 (s : State) : Result := writeSelector .cs1 3 s
/-- Meaning of `CS1 = 0b100 (divisor 256)` (R112). -/
def execCs1Div256 (s : State) : Result := writeSelector .cs1 4 s
/-- Meaning of `CS1 = 0b101 (divisor 1024)` (R112). -/
def execCs1Div1024 (s : State) : Result := writeSelector .cs1 5 s
/-- Meaning of `CS1 = 0b110 (reserved, stopped)` (R112). -/
def execCs1Reserved6 (s : State) : Result := writeSelector .cs1 6 s
/-- Meaning of `CS1 = 0b111 (reserved, stopped)` (R112). -/
def execCs1Reserved7 (s : State) : Result := writeSelector .cs1 7 s
/-- Meaning of `CS2 = 0b000 (stopped)` (R113). -/
def execCs2Stopped (s : State) : Result := writeSelector .cs2 0 s
/-- Meaning of `CS2 = 0b001 (divisor 1)` (R113). -/
def execCs2Div1 (s : State) : Result := writeSelector .cs2 1 s
/-- Meaning of `CS2 = 0b010 (divisor 8)` (R113). -/
def execCs2Div8 (s : State) : Result := writeSelector .cs2 2 s
/-- Meaning of `CS2 = 0b011 (divisor 32)` (R113). -/
def execCs2Div32 (s : State) : Result := writeSelector .cs2 3 s
/-- Meaning of `CS2 = 0b100 (divisor 64)` (R113). -/
def execCs2Div64 (s : State) : Result := writeSelector .cs2 4 s
/-- Meaning of `CS2 = 0b101 (divisor 128)` (R113). -/
def execCs2Div128 (s : State) : Result := writeSelector .cs2 5 s
/-- Meaning of `CS2 = 0b110 (divisor 256)` (R113). -/
def execCs2Div256 (s : State) : Result := writeSelector .cs2 6 s
/-- Meaning of `CS2 = 0b111 (divisor 1024)` (R113). -/
def execCs2Div1024 (s : State) : Result := writeSelector .cs2 7 s
/-- Meaning of `COM2A = 0b00 (no change)` (R212). -/
def execCom2aNoChange (s : State) : Result := writeSelector .com2a 0 s
/-- Meaning of `COM2A = 0b01 (toggle)` (R212). -/
def execCom2aToggle (s : State) : Result := writeSelector .com2a 1 s
/-- Meaning of `COM2A = 0b10 (force low)` (R212). -/
def execCom2aForceLow (s : State) : Result := writeSelector .com2a 2 s
/-- Meaning of `COM2A = 0b11 (force high)` (R212). -/
def execCom2aForceHigh (s : State) : Result := writeSelector .com2a 3 s
/-- Meaning of `WGM2 = 0b010 (WGM2_CTC, clear on compare match)` (R172). -/
def execWgm2Ctc (s : State) : Result :=
  insideCallback s fun s => .next { s with csr := fieldWrite (fieldWrite s.csr .wgm2High 0) .wgm2Low 2 }
/-- Meaning of `ICNC1 = 1 (noise canceler on)` (R192). -/
def execIcnc1On (s : State) : Result := writeSelector .icnc1 1 s
/-- Meaning of `ICNC1 = 0 (noise canceler off)` (R192). -/
def execIcnc1Off (s : State) : Result := writeSelector .icnc1 0 s
/-- Meaning of `ICES1 = 1 (rising edge selected)` (R194). -/
def execIces1Rising (s : State) : Result := writeSelector .ices1 1 s
/-- Meaning of `ICES1 = 0 (falling edge selected)` (R194). -/
def execIces1Falling (s : State) : Result := writeSelector .ices1 0 s
/-- Meaning of `FOC2A = 1 (forced compare requested)` (R213). -/
def execFoc2aRequest (s : State) : Result := writeSelector .foc2a 1 s
/-- Meaning of `TOIE0 = 1 (dispatch of T0_OVF enabled)` (R175). -/
def execToie0Enable (s : State) : Result := writeSelector .toie0 1 s
/-- Meaning of `TOV0 = 1 (T0_OVF pending, not dispatched)` (R176). -/
def execTov0Pending (s : State) : Result := writeSelector .tov0 1 s
/-- Meaning of `OCIE0A = 1 (dispatch of T0_COMPA enabled)` (R175). -/
def execOcie0aEnable (s : State) : Result := writeSelector .ocie0a 1 s
/-- Meaning of `OCF0A = 1 (T0_COMPA pending, not dispatched)` (R176). -/
def execOcf0aPending (s : State) : Result := writeSelector .ocf0a 1 s
/-- Meaning of `OCIE0B = 1 (dispatch of T0_COMPB enabled)` (R175). -/
def execOcie0bEnable (s : State) : Result := writeSelector .ocie0b 1 s
/-- Meaning of `OCF0B = 1 (T0_COMPB pending, not dispatched)` (R176). -/
def execOcf0bPending (s : State) : Result := writeSelector .ocf0b 1 s
/-- Meaning of `TOIE1 = 1 (dispatch of T1_OVF enabled)` (R175). -/
def execToie1Enable (s : State) : Result := writeSelector .toie1 1 s
/-- Meaning of `TOV1 = 1 (T1_OVF pending, not dispatched)` (R176). -/
def execTov1Pending (s : State) : Result := writeSelector .tov1 1 s
/-- Meaning of `OCIE1A = 1 (dispatch of T1_COMPA enabled)` (R175). -/
def execOcie1aEnable (s : State) : Result := writeSelector .ocie1a 1 s
/-- Meaning of `OCF1A = 1 (T1_COMPA pending, not dispatched)` (R176). -/
def execOcf1aPending (s : State) : Result := writeSelector .ocf1a 1 s
/-- Meaning of `OCIE1B = 1 (dispatch of T1_COMPB enabled)` (R175). -/
def execOcie1bEnable (s : State) : Result := writeSelector .ocie1b 1 s
/-- Meaning of `OCF1B = 1 (T1_COMPB pending, not dispatched)` (R176). -/
def execOcf1bPending (s : State) : Result := writeSelector .ocf1b 1 s
/-- Meaning of `TOIE2 = 1 (dispatch of T2_OVF enabled)` (R175). -/
def execToie2Enable (s : State) : Result := writeSelector .toie2 1 s
/-- Meaning of `TOV2 = 1 (T2_OVF pending, not dispatched)` (R176). -/
def execTov2Pending (s : State) : Result := writeSelector .tov2 1 s
/-- Meaning of `OCIE2A = 1 (dispatch of T2_COMPA enabled)` (R175). -/
def execOcie2aEnable (s : State) : Result := writeSelector .ocie2a 1 s
/-- Meaning of `OCF2A = 1 (T2_COMPA pending, not dispatched)` (R176). -/
def execOcf2aPending (s : State) : Result := writeSelector .ocf2a 1 s
/-- Meaning of `OCIE2B = 1 (dispatch of T2_COMPB enabled)` (R175). -/
def execOcie2bEnable (s : State) : Result := writeSelector .ocie2b 1 s
/-- Meaning of `OCF2B = 1 (T2_COMPB pending, not dispatched)` (R176). -/
def execOcf2bPending (s : State) : Result := writeSelector .ocf2b 1 s

end Sys2Proof.Machine
end

