-- ==== Sys2Proof/Machine/Timer.lean ====
section
/-! DEFINITION. Machine/Timer.lean: one due tick of one channel and its three events (spec/41_timer_channel.md), and
the output level (spec/43_compare_output.md), with the meanings of the internal sub-operations. -/

namespace Sys2Proof.Machine

/-- An operation performed when a condition holds. -/
def whenDo (b : Bool) (f : State → Result) (s : State) : Result := if b then f s else .next s

/-- `OVERFLOW(n)` (R165). -/
def overflowEvent (n : Channel) (s : State) : Result :=
  dispatchSource ⟨n, .ovf⟩ { s with csr := setFlag s.csr ⟨n, .ovf⟩ }

/-- What a compare match A of Timer2 does besides its flag: the latch is set (R171), and in clear-on-compare-match mode
the counter is cleared (R172). -/
def matchTimer2 (s : State) : State :=
  { s with
    oc2aMatch := true
    csr := if wgm2 s.csr = Config.wgm2Ctc then setCounter s.csr .t2 0 else s.csr }

/-- `MATCH(n, A)`: flag, latch, counter clear, dispatch, in this order (R166). -/
def matchAEvent (n : Channel) (s : State) : Result :=
  let s := { s with csr := setFlag s.csr ⟨n, .compA⟩ }
  dispatchSource ⟨n, .compA⟩ (if n = .t2 then matchTimer2 s else s)

/-- `MATCH(n, B)` (R167). -/
def matchBEvent (n : Channel) (s : State) : Result :=
  dispatchSource ⟨n, .compB⟩ { s with csr := setFlag s.csr ⟨n, .compB⟩ }

/-- `TIMER_TICK(n)`: count, then the three conditions from one snapshot, then the events in the order overflow,
compare A, compare B (R160 to R163). -/
def timerTickOf (n : Channel) (s : State) : Result :=
  let old := counter s.csr n
  let c := (old + 1) % channelModulus n
  let s := { s with csr := setCounter s.csr n c }
  let wrapped := old == channelModulus n - 1
  let mA := c == compareA s.csr n
  let mB := c == compareB s.csr n
  andThen (whenDo wrapped (overflowEvent n) s) fun s =>
    andThen (whenDo mA (matchAEvent n) s) (whenDo mB (matchBEvent n))

/-- The output-mode table: the level `OC2A` takes on a qualifying event (R114, R212). -/
def outputLevel (com2a : Byte) (level : Bool) : Bool :=
  match com2a.toNat with
  | 0 => level
  | 1 => !level
  | 2 => false
  | _ => true

/-- `OC2A_UPDATE` (R210): the latch and the forced-compare bit are used up, and if either was set the level is
recomputed once, from the mode as it stands now. -/
def outputUpdate (s : State) : State :=
  let forced := fieldRead s.csr .foc2a == 1
  { s with
    oc2aMatch := false
    csr := fieldWrite s.csr .foc2a 0
    oc2a := if s.oc2aMatch || forced then outputLevel (fieldRead s.csr .com2a) s.oc2a else s.oc2a }

/-- Meaning of `TIMER_TICK n` (R160). -/
def execTimerTick (n : Channel) (s : State) : Result := insideStep s (timerTickOf n)
/-- Meaning of `OVERFLOW n` (R165). -/
def execOverflow (n : Channel) (s : State) : Result := insideStep s (overflowEvent n)
/-- Meaning of `MATCH n, A` (R166). -/
def execMatchA (n : Channel) (s : State) : Result := insideStep s (matchAEvent n)
/-- Meaning of `MATCH n, B` (R167). -/
def execMatchB (n : Channel) (s : State) : Result := insideStep s (matchBEvent n)
/-- Meaning of `DISPATCH src` (R175). -/
def execDispatch (src : TimerSource) (s : State) : Result := insideStep s (dispatchSource src)
/-- Meaning of `OC2A_UPDATE` (R210). -/
def execOc2aUpdate (s : State) : Result := insideStep s fun s => .next (outputUpdate s)

end Sys2Proof.Machine
end

