-- ==== Sys2Proof/Machine/Clock.lean ====
section
/-! DEFINITION. Machine/Clock.lean: `STEP` (spec/40_clockdomain_step.md), `RESET` and boot
(spec/70_reset_and_hazards.md), and the pseudo-operations that repeat `STEP` (spec/30_encoding.md R132). -/

namespace Sys2Proof.Machine

/-- One channel's turn in `STEP`: its divisor as it stands now, and a count if it is due (R140, R145, R146). -/
def channelTurn (n : Channel) (s : State) : Result :=
  whenDo (due (divisor s.csr n) s.tick) (timerTickOf n) s

/-- The lines of `STEP` (R140): the tick, the channels in the order 0, 1, 2, the hook, the output. -/
def stepLines (s : State) : Result :=
  andThen (channelTurn .t0 { s with tick := s.tick + 1 }) fun s =>
    andThen (channelTurn .t1 s) fun s =>
      andThen (channelTurn .t2 s) fun s =>
        andThen (call .loop s) fun s => .next (outputUpdate s)

/-- `STEP` (R140): its lines, with the step under way (R9). -/
def stepTick (s : State) : Result :=
  andThen (stepLines { s with moment := .step }) fun t => .next { t with moment := s.moment }

/-- Every piece of state of the block at its reset value and `fwst` at `fwst0` (R55, R380, R383). The binding of the
callbacks, the parameters and the host procedures' state are not touched (R384, R386). -/
def resetBlock (s : State) : State :=
  { s with
    tick := 0, csr := {}, prevLevel := false, lastAccept := none, oc2aMatch := false, oc2a := false
    fwst := s.fwst0 }

/-- `RESET` (R380): the reset values, then boot, the one call of `fw.setup` (R386). -/
def resetAndBoot (s : State) : Result := call .setup (resetBlock s)

/-- `STEPS n` (R132). -/
def stepTimes (n : Nat) (s : State) : Result := iterate stepTick n s

/-- `RUNTO t`: `STEP` repeated `max(0, t - tick)` times (R132). -/
def runToTick (t : Nat) (s : State) : Result := stepTimes (t - s.tick) s

/-- Meaning of `RESET` (R380). -/
def execReset (s : State) : Result := betweenOperations s resetAndBoot
/-- Meaning of `STEP` (R140). -/
def execStep (s : State) : Result := betweenOperations s stepTick
/-- Meaning of `STEPS n` (R132). -/
def execSteps (n : Nat) (s : State) : Result := betweenOperations s (stepTimes n)
/-- Meaning of `RUNTO t` (R132). -/
def execRunTo (t : Nat) (s : State) : Result := betweenOperations s (runToTick t)

end Sys2Proof.Machine
end

