-- ==== Sys2Proof/Machine/Capture.lean ====
section
/-! DEFINITION. Machine/Capture.lean: the input-capture unit, `FEED` and `FEEDAT` (spec/42_input_capture.md,
spec/30_encoding.md R132). -/

namespace Sys2Proof.Machine

/-- Whether a transition passes the noise test (R192). -/
def transitionAccepted (s : State) : Bool :=
  match s.lastAccept with
  | none => true
  | some t => fieldRead s.csr .icnc1 == 0 || decide (Config.noiseWindow ≤ s.tick - t)

/-- Whether an accepted transition to level `l` has the selected polarity (R194). -/
def polaritySelected (l : Bool) (s : State) : Bool :=
  let rising := !s.prevLevel && l
  if fieldRead s.csr .ices1 == 1 then rising else !rising

/-- `FEED l` (R190 to R196): on an accepted transition the latch, then the handler if the polarity is the selected
one, then the level and the tick of acceptance; otherwise nothing. -/
def feedLevel (l : Bool) (s : State) : Result :=
  if l ≠ s.prevLevel ∧ transitionAccepted s then
    let latched := { s with csr := { s.csr with icr1 := s.csr.tcnt1 } }
    andThen (whenDo (polaritySelected l latched) (call .capture) latched) fun s =>
      .next { s with prevLevel := l, lastAccept := some s.tick }
  else .next s

/-- Meaning of `FEED l` (R190). -/
def execFeed (l : Bool) (s : State) : Result := betweenOperations s (feedLevel l)
/-- Meaning of `FEEDAT t, l`: `RUNTO t`, then `FEED l` (R132). -/
def execFeedAt (t : Nat) (l : Bool) (s : State) : Result :=
  betweenOperations s fun s => andThen (runToTick t s) (feedLevel l)

end Sys2Proof.Machine
end

