-- ==== Sys2Proof/Machine/Bus.lean ====
section
/-! DEFINITION. Machine/Bus.lean: the host's bus operations (spec/44_csr_bus.md R230 to R234) and the `BUSPIN` rows
(spec/30_encoding.md R118). -/

namespace Sys2Proof.Machine

/-- `RD s` (R231): the pins, the read-side handler, the data lines to the host, the strobe released (R233). -/
def busReadOf (r : BusReg) (s : State) : Result :=
  let driven := { s with csr := fieldWrite (fieldWrite s.csr .addr (busRegBits r)) .rds 1 }
  andThen (call .pcRead driven) fun s =>
    .next { s with hostResult := s.csr.busdata, csr := fieldWrite s.csr .rds 0 }

/-- `WR s, v` (R232): the data lines, the pins, the write-side handler, the strobe released (R233). -/
def busWriteOf (r : BusReg) (v : Byte) (s : State) : Result :=
  let onLines := { s.csr with busdata := v }
  let driven := { s with csr := fieldWrite (fieldWrite onLines .addr (busRegBits r)) .wrs 1 }
  andThen (call .pcWrite driven) fun s => .next { s with csr := fieldWrite s.csr .wrs 0 }

/-- Meaning of `RD s` (R231). -/
def execRd (r : BusReg) (s : State) : Result := betweenOperations s (busReadOf r)
/-- Meaning of `WR s, v` (R232). -/
def execWr (r : BusReg) (v : Byte) (s : State) : Result := betweenOperations s (busWriteOf r v)
/-- Meaning of the pins of a bus read: the transaction that shows them (R118, R231, notes/assumptions/4.md). -/
def execBusRead (r : BusReg) (s : State) : Result := betweenOperations s (busReadOf r)
/-- Meaning of the pins of a bus write: the transaction that shows them, with the byte that stands on the data lines
(R118, R232, notes/assumptions/4.md). -/
def execBusWrite (r : BusReg) (s : State) : Result := betweenOperations s fun s => busWriteOf r s.csr.busdata s

end Sys2Proof.Machine
end

