-- ==== Sys2Proof/Machine/Serial.lean ====
section
/-! DEFINITION. Machine/Serial.lean: the host's poll of the status and data registers and the comparison with the
reference (spec/45_serial_status_decode.md), and the status rows that belong to it (spec/30_encoding.md R117). -/

namespace Sys2Proof.Machine

/-- An error of the decoder is recorded, and stops it unless keep-going is set (R262, R264, R268). -/
def decoderError (e : HostError) (s : State) : State :=
  recordError e { s with dec := { s.dec with stopped := s.dec.stopped || !s.dec.keepGoing } }

/-- The position after the leader bytes `leader` that stand in `ref` from `pos` on (R266, the loop). -/
def skipLeader (ref : List Byte) (leader : Byte) (pos : Nat) : Nat :=
  pos + ((ref.drop pos).takeWhile (· == leader)).length

/-- `COMPARE(b)` while in the leader (R266): what becomes of the decoder, and whether the byte is used up. -/
def compareLeader (ref : List Byte) (b : Byte) (d : Decoder) : Decoder × Bool :=
  match d.inLeader, ref.head? with
  | true, some leader =>
    if b = leader then
      ({ d with refPos := if ref[d.refPos]? = some leader then d.refPos + 1 else d.refPos }, true)
    else ({ d with refPos := skipLeader ref leader d.refPos, inLeader := false }, false)
  | _, _ => ({ d with inLeader := false }, false)

/-- `COMPARE(b)` past the leader (R266, R268, R269). -/
def compareNext (ref : List Byte) (b : Byte) (s : State) : State :=
  match ref[s.dec.refPos]? with
  | none => { s with dec := { s.dec with endReports := s.dec.endReports + 1 } }
  | some e =>
    let s := if e = b then s else decoderError (.mismatch e b s.tick) s
    { s with dec := { s.dec with refPos := s.dec.refPos + 1 } }

/-- `COMPARE(b)` (R266); nothing where no reference is attached (R262, notes/assumptions/14.md). -/
def compareByte (b : Byte) (s : State) : State :=
  match s.dec.ref with
  | none => s
  | some ref =>
    match compareLeader ref b s.dec with
    | (d, true) => { s with dec := d }
    | (d, false) => compareNext ref b { s with dec := d }

/-- A byte is available: it is read from the data register, appended, and compared (R262). -/
def receiveByte (s : State) : Result :=
  andThen (busReadOf .data s) fun s =>
    .next (compareByte s.hostResult { s with dec := { s.dec with received := s.dec.received ++ [s.hostResult] } })

/-- `k` unless the decoder is stopped (R262). -/
def unlessStopped (s : State) (k : State → Result) : Result := if s.dec.stopped then .next s else k s

/-- The rest of `POLL` once the status byte is there: framing, parity, byte available, in this order (R262, R263). -/
def handleStatus (st : Byte) (s : State) : Result :=
  let s := if st.getLsbD 3 then decoderError (.framing s.tick) s else s
  unlessStopped s fun s =>
    let s := if st.getLsbD 2 then decoderError (.parity s.tick) s else s
    unlessStopped s fun s => if st.getLsbD 0 then .next s else receiveByte s

/-- `POLL` (R262). -/
def pollOnce (s : State) : Result :=
  unlessStopped s fun s => andThen (busReadOf .control s) fun s => handleStatus s.hostResult s

/-- Meaning of `POLL` (R262). -/
def execPoll (s : State) : Result := betweenOperations s pollOnce
/-- Meaning of `COMPARE b` (R266). -/
def execCompare (b : Byte) (s : State) : Result := betweenOperations s fun s => .next (compareByte b s)
/-- Meaning of the status bit 3 = 1, framing error: what `POLL` does on it (R117, R262, notes/assumptions/5.md). -/
def execStatusFraming (s : State) : Result :=
  betweenOperations s fun s => unlessStopped s fun s => .next (decoderError (.framing s.tick) s)
/-- Meaning of the status bit 2 = 1, parity error: what `POLL` does on it (R117, R262, notes/assumptions/5.md). -/
def execStatusParity (s : State) : Result :=
  betweenOperations s fun s => unlessStopped s fun s => .next (decoderError (.parity s.tick) s)
/-- Meaning of the status bit 0 = 0, a byte is available: what `POLL` does on it (R117, R262,
notes/assumptions/5.md). -/
def execStatusByteAvailable (s : State) : Result :=
  betweenOperations s fun s => unlessStopped s receiveByte

end Sys2Proof.Machine
end

