-- ==== Sys2Proof/Machine/Source.lean ====
section
/-! DEFINITION. Machine/Source.lean: the audio source adapter, `CSV_PLAY` and `WAV_PLAY`
(spec/46_audio_source_resampler.md), and how a read run starts and ends (spec/45_serial_status_decode.md R261,
R269, R271). -/

namespace Sys2Proof.Machine

/-- A read run starts: the decoder at its start values, a new adapter that begins at this tick and holds no descriptor
yet, nothing received, no error yet (R261, R281, R384, notes/assumptions/13.md). -/
def startRead (s : State) : State :=
  { s with
    dec := { s.dec with
      refPos := 0
      inLeader := s.dec.ignoreLeader && (s.dec.ref.getD []).length != 0
      stopped := false, received := [], endReports := 0 }
    src := { t0 := s.tick }
    errors := [], outcome := none, exitStatus := none }

/-- Whether reference bytes are left over, other than leader bytes still being skipped (R269). -/
def referenceLeft (d : Decoder) : Bool :=
  match d.ref with
  | none => false
  | some ref =>
    match d.inLeader, ref.head? with
    | true, some leader => decide (skipLeader ref leader d.refPos < ref.length)
    | _, _ => decide (d.refPos < ref.length)

/-- A read run ends: its result, and the exit status, 1 on failure or a detected difference (R269, R271, R341). -/
def finishRead (ok : Bool) (s : State) : State :=
  { s with outcome := some ok, exitStatus := some (if ok && !referenceLeft s.dec then 0 else 1) }

/-- `CSV_RECORD(t, v)` (R283 to R286); a time before the origin is refused (R285). -/
def csvRecord (t : Nat) (v : Int) (s : State) : Result :=
  let origin := s.src.origin.getD t
  let s := { s with src := { s.src with origin := some origin } }
  if t < origin then .refused .recordBeforeOrigin
  else
    andThen (runToTick (s.src.t0 + (t - origin) / Config.csvUnitsPerTick) s) fun s =>
      andThen (feedLevel (v ≠ 0) s) pollOnce

/-- The loop of `CSV_PLAY` (R282). -/
def csvLoop : List (Nat × Int) → State → Result
  | [], s => .next (finishRead s.errors.isEmpty s)
  | (t, v) :: rest, s =>
    andThen (csvRecord t v s) fun s => if s.dec.stopped then .next (finishRead false s) else csvLoop rest s

/-- `CSV_PLAY(records)` (R281, R282); a CSV stream has no descriptor. -/
def csvPlayAll (records : List (Nat × Int)) (s : State) : Result :=
  csvLoop records (startRead s)

/-- The markers of a WAV header (spec/30_encoding.md R120). -/
def riffMark : List Byte := [0x52, 0x49, 0x46, 0x46]
def waveMark : List Byte := [0x57, 0x41, 0x56, 0x45]
def fmtMark : List Byte := [0x66, 0x6D, 0x74, 0x20]
def dataMark : List Byte := [0x64, 0x61, 0x74, 0x61]

/-- Fields of a WAV header by their offsets (R120). -/
def wavFormatCode (h : List Byte) : Nat := leNat (slice h 20 2)
def wavChannels (h : List Byte) : Nat := leNat (slice h 22 2)
def wavSampleRate (h : List Byte) : Nat := leNat (slice h 24 4)
def wavBlockAlign (h : List Byte) : Nat := leNat (slice h 32 2)
def wavBits (h : List Byte) : Nat := leNat (slice h 34 2)
def wavDataSize (h : List Byte) : Nat := leNat (slice h 40 4)

/-- `HEADER_OK` (R288). -/
def wavHeaderOk (h : List Byte) : Bool :=
  slice h 0 4 == riffMark && slice h 8 4 == waveMark && slice h 12 4 == fmtMark && slice h 36 4 == dataMark
  && wavFormatCode h == 1
  && (wavBits h == 8 || wavBits h == 16 || wavBits h == 32)
  && decide (1 ≤ wavChannels h)
  && wavBlockAlign h == wavChannels h * wavBits h / 8
  && wavSampleRate h != 0

/-- `SAMPLE(frame)`: the first channel's sample, 8 bits with offset 128, 16 and 32 bits in two's complement
(R121, R289). -/
def sampleValue (bits : Nat) (frame : List Byte) : Int :=
  match bits with
  | 8 => (leNat (frame.take 1) : Int) - 128
  | 16 => (BitVec.ofNat 16 (leNat (frame.take 2))).toInt
  | _ => (BitVec.ofNat 32 (leNat (frame.take 4))).toInt

/-- The tick of sample `k` after the start: `round(k * CLOCK_HZ / rate)` (R290, R326). -/
def sampleTick (k clockHz rate : Nat) : Nat := roundDiv (k * clockHz) rate

/-- The loop of `WAV_PLAY`, `frames` frames still to play (R287): feed, advance, poll (R291). -/
def wavLoop (bytes : List Byte) : Nat → State → Result
  | 0, s => .next (finishRead s.errors.isEmpty s)
  | frames + 1, s =>
    let size := wavBlockAlign bytes
    let frame := slice bytes (44 + s.src.k * size) size
    if frame.length < size then .next (finishRead false (recordError (.truncated s.tick) s))
    else
      andThen (feedLevel (decide (0 < sampleValue (wavBits bytes) frame)) s) fun s =>
        let s := { s with src := { s.src with k := s.src.k + 1 } }
        andThen (runToTick (s.src.t0 + sampleTick s.src.k s.params.clockHz (wavSampleRate bytes)) s) fun s =>
          andThen (pollOnce s) fun s =>
            if s.dec.stopped then .next (finishRead false s) else wavLoop bytes frames s

/-- `WAV_PLAY(bytes)` (R287, R294). -/
def wavPlayAll (bytes : List Byte) (s : State) : Result :=
  let s := startRead s
  if bytes.length < 44 then .next (finishRead false (recordError (.truncated s.tick) s))
  else if !wavHeaderOk bytes then .next (finishRead false (recordError (.unsupportedFormat s.tick) s))
  else
    wavLoop bytes (wavDataSize bytes / wavBlockAlign bytes)
      { s with src := { s.src with
          descriptor := some ⟨wavChannels bytes, wavSampleRate bytes, wavBits bytes, .littleEndian⟩ } }

/-- Meaning of `CSV_PLAY records` (R282). -/
def execCsvPlay (records : List (Nat × Int)) (s : State) : Result := betweenOperations s (csvPlayAll records)
/-- Meaning of `WAV_PLAY bytes` (R287). -/
def execWavPlay (bytes : List Byte) (s : State) : Result := betweenOperations s (wavPlayAll bytes)

end Sys2Proof.Machine
end

