-- ==== Sys2Proof/Machine/Sink.lean ====
section
/-! DEFINITION. Machine/Sink.lean: the audio sink encoder, `SINK_RUN` (spec/47_audio_sink_resampler.md), and the status
row that belongs to it (R313). -/

namespace Sys2Proof.Machine

/-- The encoder's state when a run starts (R311). -/
def startSink (data : List Byte) (s : State) : State :=
  let leaderEnd := s.tick + Config.leaderSeconds * s.params.clockHz + s.params.leaderOffset
  { s with
    snk := {
      data := data
      t0 := s.tick
      leaderEnd := leaderEnd
      endTime := leaderEnd + s.params.idleTimeout
      pos := 0, prev := 0
      lastLevel := s.oc2a
      lastChange := s.tick
      toggled := false, n := 0, samples := [], file := [] }
    errors := [], outcome := none, exitStatus := none }

/-- The position of the busy/full bit in the status byte (R117). -/
def TxBusyBit.position : TxBusyBit → Nat
  | .b1 => 1 | .b4 => 4 | .b5 => 5 | .b6 => 6 | .b7 => 7

/-- Whether a status byte says there is room for another byte: its bit `TX_BUSY_BIT` is 0 (R313). -/
def statusHasRoom (p : Params) (st : Byte) : Bool := !st.getLsbD (TxBusyBit.position p.txBusyBit)

/-- There is room: the next byte is sent if the leader has elapsed and bytes remain, and the end-time bound becomes one
second after this tick (R313, R314). -/
def sendNext (s : State) : Result :=
  if s.snk.leaderEnd ≤ s.tick then
    match s.snk.data[s.snk.pos]? with
    | none => .next s
    | some b =>
      andThen (busWriteOf .data b s) fun s =>
        .next { s with snk := { s.snk with pos := s.snk.pos + 1, endTime := s.tick + s.params.clockHz } }
  else .next s

/-- `STUCK`, its verdict (R318). -/
def outputStuck (s : State) : Bool :=
  s.oc2a == s.snk.lastLevel && s.snk.toggled && decide (Config.stuckBound < s.tick - s.snk.lastChange)

/-- `STUCK`, what it notes of a change of level (R318). -/
def trackLevel (s : State) : State :=
  if s.oc2a = s.snk.lastLevel then s
  else { s with snk := { s.snk with lastLevel := s.oc2a, lastChange := s.tick, toggled := true } }

/-- `FILTER(p, lvl)`: division by 3 toward zero (R319 to R321). -/
def filterValue (p : Int) (level : Bool) : Int :=
  Int.tdiv (2 * p + (if level then Config.amplitude else -Config.amplitude)) 3

/-- The filter takes the level of this tick (R312). -/
def filterLevel (s : State) : State :=
  { s with snk := { s.snk with prev := filterValue s.snk.prev s.oc2a } }

/-- An output sample of a filter value: 8-bit PCM offset by 128 (R121, R322). -/
def sampleByte (v : Int) : Byte := BitVec.ofInt 8 (v + 128)

/-- The loop of `EMIT`, at most `fuel` samples (R322). -/
def emitLoop : Nat → State → State
  | 0, s => s
  | fuel + 1, s =>
    if s.snk.t0 + sampleTick s.snk.n s.params.clockHz Config.outRate ≤ s.tick then
      emitLoop fuel
        { s with snk := { s.snk with samples := s.snk.samples ++ [sampleByte s.snk.prev], n := s.snk.n + 1 } }
    else s

/-- `EMIT` (R322). At a positive `CLOCK_HZ` no more than `OUT_RATE` samples fall on a tick, so the fuel is enough. -/
def emitSamples (s : State) : State := emitLoop (Config.outRate * (s.tick + 1 - s.snk.t0)) s

/-- A 4-byte size field (R120); of a size that does not fit it the spec states nothing (notes/assumptions/17.md). -/
def sizeField (v : Nat) : List Byte := leBytes 4 (if v < 2 ^ 32 then v else (Config.oversizeField v).toNat)

/-- The header of the output file, for `n` samples (R120, R324). -/
def outputHeader (n : Nat) : List Byte :=
  riffMark ++ sizeField (36 + n) ++ waveMark ++ fmtMark ++ leBytes 4 16 ++ leBytes 2 1 ++ leBytes 2 1
    ++ leBytes 4 Config.outRate ++ leBytes 4 Config.outRate ++ leBytes 2 1 ++ leBytes 2 8 ++ dataMark ++ sizeField n

/-- The run ends: the header is written, on a fault too; in the file it stands before the samples (R312, R318, R324). -/
def finishSink (ok : Bool) (s : State) : State :=
  { s with
    snk := { s.snk with file := outputHeader s.snk.n ++ s.snk.samples }
    outcome := some ok, exitStatus := some (if ok then 0 else 1) }

/-- The loop of `SINK_RUN`, at most `fuel` passes (R312). -/
def sinkLoop : Nat → State → Result
  | 0, s => .next (finishSink true s)
  | fuel + 1, s =>
    if s.tick < s.snk.endTime then
      andThen (busReadOf .control s) fun s =>
        andThen (whenDo (statusHasRoom s.params s.hostResult) sendNext s) fun s =>
          andThen (stepTick s) fun s =>
            if outputStuck s then .next (finishSink false (recordError (.bufferStuck s.tick) s))
            else sinkLoop fuel (emitSamples (filterLevel (trackLevel s)))
    else .next (finishSink true s)

/-- Passes that are enough: every pass advances the tick, and a byte sent moves the bound to one second after its tick
(R314, R316). -/
def sinkFuel (s : State) : Nat := (s.snk.endTime - s.tick) + (s.snk.data.length - s.snk.pos) * s.params.clockHz

/-- `SINK_RUN(data)` (R312). -/
def sinkRunAll (data : List Byte) (s : State) : Result :=
  let s := emitSamples (startSink data s)
  sinkLoop (sinkFuel s) s

/-- Meaning of `SINK_RUN data` (R312). -/
def execSinkRun (data : List Byte) (s : State) : Result := betweenOperations s (sinkRunAll data)
/-- Meaning of the status bit `TX_BUSY_BIT` = 0, room for a byte: what `SINK_RUN` does on it (R117, R313,
notes/assumptions/5.md). -/
def execStatusRoom (s : State) : Result := betweenOperations s sendNext

end Sys2Proof.Machine
end

