-- ==== Sys2Proof/Machine/Dispatch.lean ====
section
/-! DEFINITION. Machine/Dispatch.lean: one arm for each operation. -/

namespace Sys2Proof.Machine

def exec (i : Instr) (s : State) : Host.Outcome State Fault Refusal :=
  match i with
  | .reset => Sys2Proof.Machine.execReset s
  | .step => Sys2Proof.Machine.execStep s
  | .feed l => Sys2Proof.Machine.execFeed l s
  | .rd r => Sys2Proof.Machine.execRd r s
  | .wr r v => Sys2Proof.Machine.execWr r v s
  | .csrr a => Sys2Proof.Machine.execCsrr a s
  | .csrw a v => Sys2Proof.Machine.execCsrw a v s
  | .csrr16 a => Sys2Proof.Machine.execCsrr16 a s
  | .csrw16 a v => Sys2Proof.Machine.execCsrw16 a v s
  | .cs0Stopped => Sys2Proof.Machine.execCs0Stopped s
  | .cs0Div1 => Sys2Proof.Machine.execCs0Div1 s
  | .cs0Div8 => Sys2Proof.Machine.execCs0Div8 s
  | .cs0Div64 => Sys2Proof.Machine.execCs0Div64 s
  | .cs0Div256 => Sys2Proof.Machine.execCs0Div256 s
  | .cs0Div1024 => Sys2Proof.Machine.execCs0Div1024 s
  | .cs0Reserved6 => Sys2Proof.Machine.execCs0Reserved6 s
  | .cs0Reserved7 => Sys2Proof.Machine.execCs0Reserved7 s
  | .cs1Stopped => Sys2Proof.Machine.execCs1Stopped s
  | .cs1Div1 => Sys2Proof.Machine.execCs1Div1 s
  | .cs1Div8 => Sys2Proof.Machine.execCs1Div8 s
  | .cs1Div64 => Sys2Proof.Machine.execCs1Div64 s
  | .cs1Div256 => Sys2Proof.Machine.execCs1Div256 s
  | .cs1Div1024 => Sys2Proof.Machine.execCs1Div1024 s
  | .cs1Reserved6 => Sys2Proof.Machine.execCs1Reserved6 s
  | .cs1Reserved7 => Sys2Proof.Machine.execCs1Reserved7 s
  | .cs2Stopped => Sys2Proof.Machine.execCs2Stopped s
  | .cs2Div1 => Sys2Proof.Machine.execCs2Div1 s
  | .cs2Div8 => Sys2Proof.Machine.execCs2Div8 s
  | .cs2Div32 => Sys2Proof.Machine.execCs2Div32 s
  | .cs2Div64 => Sys2Proof.Machine.execCs2Div64 s
  | .cs2Div128 => Sys2Proof.Machine.execCs2Div128 s
  | .cs2Div256 => Sys2Proof.Machine.execCs2Div256 s
  | .cs2Div1024 => Sys2Proof.Machine.execCs2Div1024 s
  | .com2aNoChange => Sys2Proof.Machine.execCom2aNoChange s
  | .com2aToggle => Sys2Proof.Machine.execCom2aToggle s
  | .com2aForceLow => Sys2Proof.Machine.execCom2aForceLow s
  | .com2aForceHigh => Sys2Proof.Machine.execCom2aForceHigh s
  | .wgm2Ctc => Sys2Proof.Machine.execWgm2Ctc s
  | .icnc1On => Sys2Proof.Machine.execIcnc1On s
  | .icnc1Off => Sys2Proof.Machine.execIcnc1Off s
  | .ices1Rising => Sys2Proof.Machine.execIces1Rising s
  | .ices1Falling => Sys2Proof.Machine.execIces1Falling s
  | .foc2aRequest => Sys2Proof.Machine.execFoc2aRequest s
  | .toie0Enable => Sys2Proof.Machine.execToie0Enable s
  | .tov0Pending => Sys2Proof.Machine.execTov0Pending s
  | .ocie0aEnable => Sys2Proof.Machine.execOcie0aEnable s
  | .ocf0aPending => Sys2Proof.Machine.execOcf0aPending s
  | .ocie0bEnable => Sys2Proof.Machine.execOcie0bEnable s
  | .ocf0bPending => Sys2Proof.Machine.execOcf0bPending s
  | .toie1Enable => Sys2Proof.Machine.execToie1Enable s
  | .tov1Pending => Sys2Proof.Machine.execTov1Pending s
  | .ocie1aEnable => Sys2Proof.Machine.execOcie1aEnable s
  | .ocf1aPending => Sys2Proof.Machine.execOcf1aPending s
  | .ocie1bEnable => Sys2Proof.Machine.execOcie1bEnable s
  | .ocf1bPending => Sys2Proof.Machine.execOcf1bPending s
  | .toie2Enable => Sys2Proof.Machine.execToie2Enable s
  | .tov2Pending => Sys2Proof.Machine.execTov2Pending s
  | .ocie2aEnable => Sys2Proof.Machine.execOcie2aEnable s
  | .ocf2aPending => Sys2Proof.Machine.execOcf2aPending s
  | .ocie2bEnable => Sys2Proof.Machine.execOcie2bEnable s
  | .ocf2bPending => Sys2Proof.Machine.execOcf2bPending s
  | .busRead r => Sys2Proof.Machine.execBusRead r s
  | .busWrite r => Sys2Proof.Machine.execBusWrite r s
  | .statusFraming => Sys2Proof.Machine.execStatusFraming s
  | .statusParity => Sys2Proof.Machine.execStatusParity s
  | .statusByteAvailable => Sys2Proof.Machine.execStatusByteAvailable s
  | .statusRoom => Sys2Proof.Machine.execStatusRoom s
  | .timerTick n => Sys2Proof.Machine.execTimerTick n s
  | .overflow n => Sys2Proof.Machine.execOverflow n s
  | .matchA n => Sys2Proof.Machine.execMatchA n s
  | .matchB n => Sys2Proof.Machine.execMatchB n s
  | .dispatch src => Sys2Proof.Machine.execDispatch src s
  | .oc2aUpdate => Sys2Proof.Machine.execOc2aUpdate s
  | .poll => Sys2Proof.Machine.execPoll s
  | .compare b => Sys2Proof.Machine.execCompare b s
  | .csvPlay records => Sys2Proof.Machine.execCsvPlay records s
  | .wavPlay bytes => Sys2Proof.Machine.execWavPlay bytes s
  | .sinkRun data => Sys2Proof.Machine.execSinkRun data s
  | .steps n => Sys2Proof.Machine.execSteps n s
  | .runTo t => Sys2Proof.Machine.execRunTo t s
  | .feedAt t l => Sys2Proof.Machine.execFeedAt t l s
  | .setField f v => Sys2Proof.Machine.execSetField f v s

end Sys2Proof.Machine
end

