-- ==== Sys2Proof/Machine/Fetch.lean ====
section
/-! DEFINITION. Machine/Fetch.lean: how the next operation of the trace is read (notes/assumptions/1.md). -/

namespace Sys2Proof.Machine

/-- The next operation of the trace and the state it is performed in: the item is taken off the trace. None when nothing
is left to perform. -/
def fetch (s : State) : Option (Except Reject Instr × State) :=
  match s.trace with
  | [] => none
  | code :: rest => some (decode code, { s with trace := rest })

/-- A moment at which an operation is performed: inside a callback, the hook say, for an operation of the firmware,
inside a `STEP` for a sub-operation of the block, and between two operations for one of the host (R8, R9, R244). -/
def momentFor (i : Option Instr) : Moment :=
  match i.map Instr.performer with
  | some .firmware => .callback .loop
  | some .block => .step
  | _ => .between

end Sys2Proof.Machine
end

