-- ==== Sys2Proof/Machine/Step.lean ====
section
/-! DEFINITION. Machine/Step.lean: one step is one operation of the trace, callbacks included (spec/20_memory.md
R93). -/

namespace Sys2Proof.Machine

/-- One step: the next operation of the trace is read and performed; with nothing to perform the state stays as it is
(R144, notes/assumptions/1.md). Between two operations of the host no callback runs and no `STEP` is under way, so an
operation of the firmware or a sub-operation of the block that stands in the trace is then refused: they are performed
only as a part of an operation of the host (R8, R9). -/
def step (s : State) : Host.Outcome State Fault Refusal :=
  match fetch s with
  | none => .next s
  | some (.error r, _) => .refused (.illFormedWord r)
  | some (.ok i, s) => exec i s

/-- `s` with the operation whose bits are `w` next in the trace, at a moment at which it is performed: for an operation
of the firmware inside the hook (notes/assumptions/8.md). -/
def State.withFetchWord (s : State) (nbits w : Nat) : State :=
  { s with moment := momentFor (decodeTableWord nbits w), trace := .word nbits w :: s.trace }

end Sys2Proof.Machine
end

