-- ==== Sys2Proof/Safety.lean ====
section
/-! DEFINITION. Safety.lean: what a safe run is. A legal firmware makes only the accesses the spec gives a meaning
(spec/93_implementation_defined.md U2, U10), and the invariant holds between two operations (spec/10_state.md R54). -/

namespace Sys2Proof

open Sys2Proof.Machine

/-- A stub that is never refused: mapped 8-bit accesses, no write to `BUSCTL`, 16-bit accesses where R89 allows them,
no host operation (U2, U10). -/
def FwStmt.legal : FwStmt → Bool
  | .skip => true
  | .seq a b => a.legal && b.legal
  | .assign _ _ => true
  | .append _ => true
  | .csrr a => (csrAt a).isSome
  | .csrw a _ => (csrAt a).isSome && csrAt a != some .busctl
  | .csrr16 a => (csr16At a).isSome
  | .csrw16 a _ => (csr16At a).isSome
  | .set f _ => f.pos.cell != .busctl
  | .ite _ a b => a.legal && b.legal
  | .times _ a => a.legal
  | .host _ => false

/-- A firmware all of whose callbacks are legal. -/
def Firmware.legal (fw : Firmware) : Bool :=
  fw.setup.legal && fw.loop.legal && fw.t0Ovf.legal && fw.t0CompA.legal && fw.t0CompB.legal && fw.t1Ovf.legal
  && fw.t1CompA.legal && fw.t1CompB.legal && fw.t1Capt.legal && fw.t2Ovf.legal && fw.t2CompA.legal
  && fw.t2CompB.legal && fw.pcRead.legal && fw.pcWrite.legal

/-- A stub that is legal and writes no CSR. -/
def FwStmt.passive : FwStmt → Bool
  | .skip => true
  | .seq a b => a.passive && b.passive
  | .assign _ _ => true
  | .append _ => true
  | .csrr a => (csrAt a).isSome
  | .csrw _ _ => false
  | .csrr16 a => (csr16At a).isSome
  | .csrw16 _ _ => false
  | .set _ _ => false
  | .ite _ a b => a.passive && b.passive
  | .times _ a => a.passive
  | .host _ => false

/-- A firmware that leaves every register to the block once it has booted: all its callbacks but `setup` are passive. -/
def Firmware.passive (fw : Firmware) : Bool :=
  fw.loop.passive && fw.t0Ovf.passive && fw.t0CompA.passive && fw.t0CompB.passive && fw.t1Ovf.passive
  && fw.t1CompA.passive && fw.t1CompB.passive && fw.t1Capt.passive && fw.t2Ovf.passive && fw.t2CompA.passive
  && fw.t2CompB.passive && fw.pcRead.passive && fw.pcWrite.passive

/-- The bindings of a run and the operations still to perform are as before (R51, R97, R384). -/
structure BindingsKept (s t : State) : Prop where
  fw : t.fw = s.fw
  fwst0 : t.fwst0 = s.fwst0
  params : t.params = s.params
  trace : t.trace = s.trace

/-- The capture unit is as before (R47, R48). -/
structure CaptureKept (s t : State) : Prop where
  prevLevel : t.prevLevel = s.prevLevel
  lastAccept : t.lastAccept = s.lastAccept

/-- The state and the results of the host procedures are as before (R52, R340, R341). -/
structure ProceduresKept (s t : State) : Prop where
  dec : t.dec = s.dec
  src : t.src = s.src
  snk : t.snk = s.snk
  errors : t.errors = s.errors
  outcome : t.outcome = s.outcome
  exitStatus : t.exitStatus = s.exitStatus

/-- What holds between two operations. -/
structure Invariant (s : State) : Prop where
  /-- No callback is running and no `STEP` is under way (R9). -/
  moment : s.moment = .between
  /-- `BUSCTL` bits 7:3 are 0 (R45) and the strobes are released (R54 (e)). -/
  busctl : s.csr.busctl &&& 0xFE = 0
  /-- `oc2a_match` is 0 outside `STEP` (R54 (f)). -/
  latch : s.oc2aMatch = false
  /-- The last acceptance is not in the future (R20, R48). -/
  accept : ∀ t ∈ s.lastAccept, t ≤ s.tick
  /-- `CLOCK_HZ` is positive (R10). -/
  clock : 0 < s.params.clockHz
  /-- The filter's value stays within the amplitude (R320). -/
  filter : -Config.amplitude ≤ s.snk.prev ∧ s.snk.prev ≤ Config.amplitude
  /-- `snk.n` is the number of samples written (R322). -/
  samples : s.snk.n = s.snk.samples.length

end Sys2Proof
end

