-- ==== Sys2Proof/Certificates/Slice0/Obligations.lean ====
section
/-! DEFINITION. Certificates/Slice0/Obligations.lean: the statements for the provers. A docstring names the rules of
spec/ a statement formalises; where a clause rests on a choice of the model it names the log entry. -/

namespace Sys2Proof.Claims

open Sys2Proof Sys2Proof.Machine

/-- `t` is `s` but for one named field, which holds `v`: every other byte of the CSR space and every other bit of the
field's register are as before, and so is everything that is not a register. -/
structure OnlyFieldWritten (f : CsrField) (v : Byte) (s t : State) : Prop where
  others : t = { s with csr := t.csr }
  field : fieldRead t.csr f = v
  bits : cellRead t.csr f.pos.cell &&& ~~~ fieldMask f.pos.lo f.pos.width
    = cellRead s.csr f.pos.cell &&& ~~~ fieldMask f.pos.lo f.pos.width
  bytes : ∀ cell, cell ≠ f.pos.cell → cellRead t.csr cell = cellRead s.csr cell

/-- `s` after the host recorded the errors `es` and the decoder's stop bit became `stop`. -/
def afterErrors (es : List HostError) (stop : Bool) (s : State) : State :=
  { s with errors := s.errors ++ es, dec := { s.dec with stopped := stop } }

/-- The operation that raises the event of a timer source: `OVERFLOW n`, `MATCH n, A`, `MATCH n, B` (R165 to R167). -/
def eventOperation : TimerSource → Instr
  | ⟨n, .ovf⟩ => .overflow n
  | ⟨n, .compA⟩ => .matchA n
  | ⟨n, .compB⟩ => .matchB n

/-- The register that holds a channel's flags, and the bytes that hold its counter (R81). -/
def flagCell : Channel → CsrCell
  | .t0 => .tifr0 | .t1 => .tifr1 | .t2 => .tifr2
def counterCells : Channel → List CsrCell
  | .t0 => [.tcnt0] | .t1 => [.tcnt1Low, .tcnt1High] | .t2 => [.tcnt2]

/-- An operation performed if a condition holds. -/
def PerformedIf (b : Bool) (i : Instr) (s t : State) : Prop := if b then exec i s = .next t else t = s

/-- One channel's turn in a `STEP`: a `TIMER_TICK` if the channel is due by the divisor it has now (R140, R142). -/
def ChannelTurn (n : Channel) (s t : State) : Prop := PerformedIf (due (divisor s.csr n) s.tick) (.timerTick n) s t

/-- Whether a `TIMER_TICK` of the source's channel, begun in `s`, raises the source's event (R162). -/
def eventOccurs (s : State) (src : TimerSource) : Bool :=
  let count := (counter s.csr src.channel + 1) % channelModulus src.channel
  match src.event with
  | .ovf => counter s.csr src.channel + 1 == channelModulus src.channel
  | .compA => count == compareA s.csr src.channel
  | .compB => count == compareB s.csr src.channel

/-- `COMPARE` of the bytes of a stream, one after the other. -/
def compareAll : List Byte → State → Result
  | [], s => .next s
  | b :: bs, s => andThen (exec (.compare b) s) (compareAll bs)

/-- The operations that perform `RESET` or `OC2A_UPDATE` (R144, R210, R380). -/
def mayWriteOutput : Instr → Bool
  | .reset | .step | .steps _ | .runTo _ | .feedAt _ _ | .oc2aUpdate | .csvPlay _ | .wavPlay _ | .sinkRun _ => true
  | _ => false

/-- The operations that perform `RESET` or `FEED` (R47, R48, R380). -/
def mayWriteCapture : Instr → Bool
  | .reset | .feed _ | .feedAt _ _ | .csvPlay _ | .wavPlay _ => true
  | _ => false

/-- The records of a CSV stream as host operations: `FEEDAT` of the level at the record's tick, then `POLL`, until the
decoder stops (R282, R283, R285). -/
def playCsv (start origin : Nat) : List (Nat × Int) → State → Result
  | [], s => .next s
  | (time, v) :: rest, s =>
    andThen (exec (.feedAt (start + (time - origin) / 10) (decide (v ≠ 0))) s) fun s =>
      andThen (exec .poll s) fun s => if s.dec.stopped then .next s else playCsv start origin rest s

/-- Bytes of the reference are left over: any byte past the leader; while the leader is still being skipped, any byte
but the leader byte, the reference's first (R266, R269, log 15). -/
def LeftOver (d : Decoder) : Prop :=
  ∃ ref, d.ref = some ref ∧ ∃ b ∈ ref.drop d.refPos, d.inLeader = true → ref.head? ≠ some b

/-- How a read run ends: stopped by the decoder it failed; else it succeeded exactly if no error was recorded. The exit
status is 0 on success with nothing of the reference left over, and 1 otherwise (R269, R271, R341, log 15). -/
structure ReadRunEnded (t : State) : Prop where
  stopped : t.dec.stopped = true → t.outcome = some false ∧ t.exitStatus = some 1
  outcome : t.dec.stopped = false → t.outcome = some t.errors.isEmpty
  good : t.dec.stopped = false → t.errors = [] → ¬ LeftOver t.dec → t.exitStatus = some 0
  bad : t.errors ≠ [] ∨ LeftOver t.dec → t.exitStatus = some 1

/-- The frames of a WAV stream from frame `k` on as host operations: `FEED` of the level, `RUNTO` the tick of the next
sample, `POLL`, until the decoder stops or a frame is missing (R287, R289 to R291). -/
def playWav (bytes : List Byte) (start clockHz : Nat) : Nat → Nat → State → Result
  | 0, _, s => .next s
  | frames + 1, k, s =>
    let size := wavBlockAlign bytes
    let frame := slice bytes (44 + k * size) size
    if frame.length < size then .next { s with errors := s.errors ++ [.truncated s.tick] }
    else
      andThen (exec (.feed (decide (0 < sampleValue (wavBits bytes) frame))) s) fun s =>
        andThen (exec (.runTo (start + sampleTick (k + 1) clockHz (wavSampleRate bytes))) s) fun s =>
          andThen (exec .poll s) fun s =>
            if s.dec.stopped then .next s else playWav bytes start clockHz frames (k + 1) s

/-- A point of a sink run between two passes: the machine, the number of bytes sent, the end-time bound (R311). -/
structure SinkPoint where
  state : State
  sent : Nat
  bound : Nat

/-- One pass of a sink run as host operations, begun before the bound: `RD 0`; if the status byte says there is room,
the leader is over and a byte remains, `WR 1` of it, and the bound is one second from this tick; then `STEP` (R312 to
R314). -/
def SinkPass (data : List Byte) (leaderEnd : Nat) (a b : SinkPoint) : Prop :=
  a.state.tick < a.bound ∧
  ∃ u v, exec (.rd .control) a.state = .next u ∧ exec .step v = .next b.state ∧
    match (if u.hostResult.getLsbD (TxBusyBit.position u.params.txBusyBit) = false ∧ leaderEnd ≤ u.tick
      then data[a.sent]? else none) with
    | some x => exec (.wr .data x) u = .next v ∧ b.sent = a.sent + 1 ∧ b.bound = u.tick + u.params.clockHz
    | none => v = u ∧ b.sent = a.sent ∧ b.bound = a.bound

/-- At tick `i` of a run the level has changed since the run began and has then stood still for more than 1250 ticks,
where `level i` is the level after tick `i` and `level 0` the level at the start (R318). -/
def StuckAt (level : Nat → Bool) (i : Nat) : Prop :=
  ∃ c, level c ≠ level (c + 1) ∧ (∀ m, c + 1 ≤ m → m ≤ i → level m = level (c + 1)) ∧ c + 1 + 1250 < i

/-- The filter after a number of ticks, from 0, where `level i` is the level after tick `i` (R312, R319). -/
def filterAfter (level : Nat → Bool) : Nat → Int
  | 0 => 0
  | i + 1 => filterValue (filterAfter level i) (level (i + 1))

end Sys2Proof.Claims

section

open Sys2Proof Sys2Proof.Machine Sys2Proof.Claims

/-! ### Encoding -/

/-- Words of V1 and rows of the table, written out from R123 and R112 to R118, decode to what they stand for. -/
def Obligations.CommandWordsDecode : Prop :=
  decodeTableWord 32 0x00000000 = some .reset ∧ decodeTableWord 32 0x10000000 = some .step ∧
  decodeTableWord 32 0x20000001 = some (.feed true) ∧ decodeTableWord 32 0x30010000 = some (.rd .data) ∧
  decodeTableWord 32 0x40010041 = some (.wr .data 0x41) ∧ decodeTableWord 32 0x50B20000 = some (.csrr 0xB2) ∧
  decodeTableWord 32 0x60B00042 = some (.csrw 0xB0 0x42) ∧ decodeTableWord 32 0x70860000 = some (.csrr16 0x86) ∧
  decodeTableWord 32 0x808803E8 = some (.csrw16 0x88 0x03E8) ∧
  decode (.selector (.csr 0xB1) 0x07 0x05) = .ok .cs2Div128 ∧
  decode (.selector (.csr 0xE0) 0xFE 0x03) = .ok (.busRead .data) ∧
  decode (.selector .status 0x08 0x08) = .ok .statusFraming

/-- Decode and encode agree, for every operation and every operand (R123, R112 to R118, R132). -/
def Obligations.DecodeReadsBackEveryOperation : Prop :=
  ∀ i : Instr, decode (encode i) = .ok i

/-- A command word is read as an operation exactly if it is that operation's word: no bit of it is ignored (R123,
R130 (d)). -/
def Obligations.CommandWordsHaveOneReading : Prop :=
  ∀ (w : Word32) (i : Instr), decode (.word 32 w.toNat) = .ok i ↔ encode i = .word 32 w.toNat

/-- The command words a decoder rejects are those of R130 (d): a reserved `op`, a `z` that is not 0, an operand bit set
that R123 says is 0. -/
def Obligations.ReservedCommandWordsRejected : Prop :=
  ∀ w : Word32,
    let op := (w.extractLsb' 28 4).toNat
    (∃ r, decode (.word 32 w.toNat) = .error r) ↔
      (9 ≤ op ∨ w.extractLsb' 24 4 ≠ 0 ∨ (op ≤ 1 ∧ w.extractLsb' 0 24 ≠ 0) ∨ (op = 2 ∧ w.extractLsb' 1 23 ≠ 0) ∨
        (op = 3 ∧ (w.extractLsb' 17 7 ≠ 0 ∨ w.extractLsb' 0 16 ≠ 0)) ∨
        (op = 4 ∧ (w.extractLsb' 17 7 ≠ 0 ∨ w.extractLsb' 8 8 ≠ 0)) ∨
        (op = 5 ∧ w.extractLsb' 0 16 ≠ 0) ∨ (op = 6 ∧ w.extractLsb' 8 8 ≠ 0) ∨ (op = 7 ∧ w.extractLsb' 0 16 ≠ 0))

/-! ### One step of the machine -/

/-- A step takes the next item off the trace and performs the operation it decodes to. With an empty trace nothing
happens, and an item that spells no operation is refused. (`Fault` has no constructor: no operation faults.) An
operation placed by `withFetchWord` is the next one performed, inside the hook if the firmware performs it, inside a
`STEP` if the block does. The trace
and `withFetchWord` are the model's choice (log 1, log 8); R93 gives that an operation runs from its first line to its
last. -/
def Obligations.StepRunsTheDecodedOperation : Prop :=
  (∀ (s : State) (code : Code) (rest : List Code) (i : Instr),
    s.trace = code :: rest → decode code = .ok i → step s = exec i { s with trace := rest }) ∧
  (∀ (s : State) (code : Code) (rest : List Code) (r : Reject),
    s.trace = code :: rest → decode code = .error r → step s = .refused (.illFormedWord r)) ∧
  (∀ s : State, s.trace = [] → step s = .next s) ∧
  (∀ (s : State) (nbits w : Nat) (i : Instr), decodeTableWord nbits w = some i →
    step (s.withFetchWord nbits w) = exec i { s with moment := momentFor (some i) })

/-- Who may act when. Operations of the host and sub-operations of the block are refused inside a callback, operations
of the host inside a `STEP` too; sub-operations of the block are refused where no `STEP` is under way, and operations of
the firmware where no callback runs. So an operation of the firmware, or a sub-operation of the block, that stands in
the trace between two host operations is refused (R8, R9). R362 and U10 name five host operations; that every other
operation is refused on the wrong side too is the model's inference (log 6, log 8). -/
def Obligations.AgentsAreSeparated : Prop :=
  (∀ (i : Instr) (s : State),
    (∀ c, i.performer ≠ .firmware → s.moment = .callback c → exec i s = .refused .hostOperationInCallback) ∧
    (i.performer = .host → s.moment = .step → exec i s = .refused .hostOperationInStep) ∧
    (i.performer = .block → s.moment = .between → exec i s = .refused .subOperationOutsideStep) ∧
    (i.performer = .firmware → s.moment = .between ∨ s.moment = .step →
      exec i s = .refused .firmwareOperationOutsideCallback)) ∧
  (∀ (s : State) (code : Code) (rest : List Code) (i : Instr), s.trace = code :: rest → decode code = .ok i →
    s.moment = .between →
    (i.performer = .firmware → step s = .refused .firmwareOperationOutsideCallback) ∧
    (i.performer = .block → step s = .refused .subOperationOutsideStep))

/-! ### Reset -/

/-- The state after reset has the values of the table of R55. -/
def Obligations.ResetState : Prop :=
  State.reset.tick = 0 ∧ (∀ cell, cellRead State.reset.csr cell = 0) ∧ State.reset.prevLevel = false ∧
  State.reset.lastAccept = none ∧ State.reset.oc2aMatch = false ∧ State.reset.oc2a = false

/-- `RESET` completes with a legal firmware, and is: the block at its reset values with `fwst` at `fwst0`, then the one
call of `fw.setup`, whatever it writes; nothing else is called and the bindings are untouched (R380, R383, R384, R386,
R388). That the errors, the results and the last byte of the host stay too is
the model's choice (log 11). -/
def Obligations.ResetOperation : Prop :=
  ∀ s : State, s.moment = .between → s.fw.legal = true →
    ∃ t, exec .reset s = .next t ∧
      call .setup { s with
        tick := 0, csr := {}, prevLevel := false, lastAccept := none, oc2aMatch := false, oc2a := false
        fwst := s.fwst0 } = .next t ∧
      t.tick = 0 ∧ t.prevLevel = false ∧ t.lastAccept = none ∧ t.oc2aMatch = false ∧ t.oc2a = false ∧
      t.csr.busctl = 0 ∧ t.moment = .between ∧ t.calls = s.calls ++ [⟨.setup, 0⟩] ∧
      (s.fw.setup.passive = true → ∀ cell, cellRead t.csr cell = 0) ∧
      (s.fw.setup = .skip → t.fwst = s.fwst0) ∧
      BindingsKept s t ∧ ProceduresKept s t ∧ t.hostResult = s.hostResult

/-- "it gives exactly the state the first one gave": a `RESET` from any two states of one run gives the same block
state (R381). -/
def Obligations.ResetForgetsThePast : Prop :=
  ∀ s₁ s₂ : State, s₁.moment = .between → s₂.moment = .between → s₁.fw = s₂.fw → s₁.fwst0 = s₂.fwst0 →
    s₁.fw.legal = true →
    ∃ t₁ t₂, exec .reset s₁ = .next t₁ ∧ exec .reset s₂ = .next t₂ ∧
      t₁.tick = t₂.tick ∧ t₁.csr = t₂.csr ∧ t₁.fwst = t₂.fwst ∧ t₁.prevLevel = t₂.prevLevel ∧
      t₁.lastAccept = t₂.lastAccept ∧ t₁.oc2aMatch = t₂.oc2aMatch ∧ t₁.oc2a = t₂.oc2a

/-! ### `STEP` -/

/-- `STEP` completes with a legal firmware, and is: one tick, the turns of the channels 0, 1, 2, each by the divisor
that the one before leaves, the hook, `OC2A_UPDATE` on what the hook leaves, all of them inside the `STEP` (R9). The
latch and the forced-compare bit are used up; what `STEP` does not write is as before (R140 to R145, R150). -/
def Obligations.StepOperation : Prop :=
  ∀ s : State, s.moment = .between → s.fw.legal = true →
    ∃ u₀ u₁ u₂ v w t, exec .step s = .next t ∧
      ChannelTurn .t0 { s with moment := .step, tick := s.tick + 1 } u₀ ∧ ChannelTurn .t1 u₀ u₁ ∧
      ChannelTurn .t2 u₁ u₂ ∧ call .loop u₂ = .next v ∧ exec .oc2aUpdate v = .next w ∧
      t = { w with moment := .between } ∧
      t.tick = s.tick + 1 ∧ t.oc2aMatch = false ∧ fieldRead t.csr .foc2a = 0 ∧
      t.csr.busctl = s.csr.busctl ∧ t.moment = .between ∧
      (fieldRead t.csr .com2a = 0 → t.oc2a = s.oc2a) ∧
      BindingsKept s t ∧ CaptureKept s t ∧ ProceduresKept s t ∧ t.hostResult = s.hostResult

/-- The hook is called once per `STEP`, after the channels, whatever was due; a hook the firmware does not supply does
nothing (R143). -/
def Obligations.HookRunsOncePerTick : Prop :=
  (∀ s : State, s.moment = .between → s.fw.legal = true →
    ∃ t cs, exec .step s = .next t ∧ t.calls = s.calls ++ cs ++ [⟨.loop, s.tick + 1⟩] ∧
      ∀ c ∈ cs, c.tick = s.tick + 1 ∧ ∃ src, c.callback = .timer src) ∧
  (∀ s : State, s.fw.loop = .skip →
    call .loop s = .next { s with calls := s.calls ++ [⟨.loop, s.tick⟩] })

/-- With every channel stopped a `STEP` calls the hook only, whatever flags and enables are set (R177, R370), and
changes nothing else if the hook writes no register and no output request is pending (R140, its example). -/
def Obligations.StoppedTimersCallNothing : Prop :=
  ∀ s : State, s.moment = .between → s.fw.legal = true → (∀ n, divisor s.csr n = 0) →
    ∃ t, exec .step s = .next t ∧ t.calls = s.calls ++ [⟨.loop, s.tick + 1⟩] ∧
      (s.fw.loop.passive = true → s.oc2aMatch = false → fieldRead s.csr .foc2a = 0 →
        t = { s with tick := s.tick + 1, fwst := t.fwst, calls := t.calls })

/-- Each counter counts once per `d` ticks, on the ticks that `d` divides, and never when `d` is 0, over any number of
`STEP`s in which the firmware leaves the registers alone; a counter of Timer2 in the mode that clears it is the subject
of `CtcSquareWave` (R148). -/
def Obligations.CountingRate : Prop :=
  (∀ (k : Nat) (s : State), s.moment = .between → s.fw.passive = true →
    ∃ t, exec (.steps k) s = .next t ∧ t.tick = s.tick + k ∧
      ∀ n, (n = .t2 → wgm2 s.csr ≠ Config.wgm2Ctc) →
        divisor t.csr n = divisor s.csr n ∧
        counter t.csr n = (counter s.csr n + ((s.tick + k) / divisor s.csr n - s.tick / divisor s.csr n))
          % channelModulus n) ∧
  (∀ (c : Csrs) (n : Channel) (tick : Nat),
    due (divisor c n) tick = true ↔ 0 < divisor c n ∧ divisor c n ∣ tick)

/-- In the mode that clears Timer2 on a match, with the output toggling: the counter goes round `0, ..., N - 1`, where
`N` is `OCR2A` (256 where `OCR2A` is 0), one count per divisor, and `OC2A` is a square wave that turns each time it
comes round (R173, R212, R220). -/
def Obligations.CtcSquareWave : Prop :=
  ∀ (k : Nat) (s : State), s.moment = .between → s.fw.passive = true →
    wgm2 s.csr = Config.wgm2Ctc → fieldRead s.csr .com2a = 1 → fieldRead s.csr .foc2a = 0 → s.oc2aMatch = false →
    let N := if s.csr.ocr2a = 0 then 256 else s.csr.ocr2a.toNat
    let d := divisor s.csr .t2
    let counted := s.csr.tcnt2.toNat + ((s.tick + k) / d - s.tick / d)
    s.csr.tcnt2.toNat < N →
    ∃ t, exec (.steps k) s = .next t ∧ t.csr.tcnt2.toNat = counted % N ∧
      t.oc2a = (s.oc2a ^^ decide (counted / N % 2 = 1))

/-- `STEPS n` is `STEP` repeated, `RUNTO t` never steps backward, `FEEDAT t, l` is `RUNTO t` then `FEED l` (R132). -/
def Obligations.RepeatedSteps : Prop :=
  ∀ s : State, s.moment = .between → s.fw.legal = true →
    exec (.steps 0) s = .next s ∧
    (∀ n, ∃ u t, exec .step s = .next u ∧ exec (.steps n) u = .next t ∧ exec (.steps (n + 1)) s = .next t) ∧
    (∀ m, ∃ t, exec (.runTo m) s = .next t ∧ exec (.steps (m - s.tick)) s = .next t ∧ t.tick = max s.tick m) ∧
    (∀ m l, ∃ u t, exec (.runTo m) s = .next u ∧ exec (.feed l) u = .next t ∧ exec (.feedAt m l) s = .next t)

/-! ### The channels: the sub-operations of the block, inside a `STEP` (R8) -/

/-- `TIMER_TICK n` with none of the channel's events enabled: the count modulo the width, each flag set by its own
condition and never cleared, the clear of Timer2 in its one special mode, its latch, and nothing else (R160 to R167,
R171, R172). -/
def Obligations.TimerTickUndispatched : Prop :=
  ∀ (n : Channel) (s : State), s.moment = .step → (∀ e, enabled s.csr ⟨n, e⟩ = false) →
    let c := (counter s.csr n + 1) % channelModulus n
    ∃ t, exec (.timerTick n) s = .next t ∧
      counter t.csr n = (if n = .t2 ∧ c = compareA s.csr n ∧ wgm2 s.csr = Config.wgm2Ctc then 0 else c) ∧
      flagged t.csr ⟨n, .ovf⟩ = (flagged s.csr ⟨n, .ovf⟩ || decide (counter s.csr n + 1 = channelModulus n)) ∧
      flagged t.csr ⟨n, .compA⟩ = (flagged s.csr ⟨n, .compA⟩ || decide (c = compareA s.csr n)) ∧
      flagged t.csr ⟨n, .compB⟩ = (flagged s.csr ⟨n, .compB⟩ || decide (c = compareB s.csr n)) ∧
      t.oc2aMatch = (s.oc2aMatch || decide (n = .t2 ∧ c = compareA s.csr n)) ∧
      cellRead t.csr (flagCell n) &&& 0xF8 = cellRead s.csr (flagCell n) &&& 0xF8 ∧
      (∀ cell, cell ≠ flagCell n → cell ∉ counterCells n → cellRead t.csr cell = cellRead s.csr cell) ∧
      t = { s with csr := t.csr, oc2aMatch := t.oc2aMatch }

/-- `TIMER_TICK n` completes with a legal firmware, and is: the count, then overflow, compare A, compare B, each if its
condition held when the tick began: the three conditions are one snapshot, whatever the handlers write (R160, R162,
R163, R355, R394). If the handlers of the enabled events write no register, the handlers called are exactly those of
the events that occur and are enabled, and of the events that occur the flag ends as the complement of the enable, the
other flags as they were (R165 to R167, R175). -/
def Obligations.TimerTickOperation : Prop :=
  ∀ (n : Channel) (s : State), s.moment = .step → s.fw.legal = true →
    ∃ u v t cs, exec (.timerTick n) s = .next t ∧
      PerformedIf (eventOccurs s ⟨n, .ovf⟩) (.overflow n)
        { s with csr := setCounter s.csr n ((counter s.csr n + 1) % channelModulus n) } u ∧
      PerformedIf (eventOccurs s ⟨n, .compA⟩) (.matchA n) u v ∧
      PerformedIf (eventOccurs s ⟨n, .compB⟩) (.matchB n) v t ∧
      t.calls = s.calls ++ cs ∧
      cs.Sublist [⟨.timer ⟨n, .ovf⟩, s.tick⟩, ⟨.timer ⟨n, .compA⟩, s.tick⟩, ⟨.timer ⟨n, .compB⟩, s.tick⟩] ∧
      ((∀ e, enabled s.csr ⟨n, e⟩ = true → (stubOf s.fw (.timer ⟨n, e⟩)).passive = true) →
        cs = ([.ovf, .compA, .compB].filter fun e => eventOccurs s ⟨n, e⟩ && enabled s.csr ⟨n, e⟩).map
          (fun e => ⟨.timer ⟨n, e⟩, s.tick⟩) ∧
        ∀ e, flagged t.csr ⟨n, e⟩ =
          if eventOccurs s ⟨n, e⟩ then !enabled s.csr ⟨n, e⟩ else flagged s.csr ⟨n, e⟩) ∧
      t.oc2aMatch = (s.oc2aMatch || (decide (n = .t2) && eventOccurs s ⟨n, .compA⟩)) ∧
      t.tick = s.tick ∧ t.oc2a = s.oc2a ∧ t.moment = .step ∧ t.csr.busctl = s.csr.busctl ∧
      BindingsKept s t ∧ CaptureKept s t ∧ ProceduresKept s t ∧ t.hostResult = s.hostResult

/-- `OVERFLOW n`, `MATCH n, A`, `MATCH n, B` complete with a legal firmware, and are: the flag set, for a match A
of Timer2 the latch set and in `WGM2_CTC` the counter cleared, then `DISPATCH` of the source, whatever its handler
writes. If the event is enabled its handler is called and the flag is cleared after it, otherwise the flag stays and
nothing is called (R165 to R167, R171, R172, R175, R178). -/
def Obligations.EventSetsFlagAndDispatches : Prop :=
  ∀ (src : TimerSource) (s : State), s.moment = .step → s.fw.legal = true →
    let flagSet := fieldWrite s.csr (flagField src) 1
    ∃ t, exec (eventOperation src) s = .next t ∧
      exec (.dispatch src) { s with
        oc2aMatch := s.oc2aMatch || decide (src = ⟨.t2, .compA⟩)
        csr := if src = ⟨.t2, .compA⟩ ∧ wgm2 s.csr = Config.wgm2Ctc then { flagSet with tcnt2 := 0 } else flagSet }
        = .next t ∧
      flagged t.csr src = !enabled s.csr src ∧
      t.calls = (if enabled s.csr src then s.calls ++ [⟨.timer src, s.tick⟩] else s.calls) ∧
      t.oc2aMatch = (s.oc2aMatch || decide (src = ⟨.t2, .compA⟩)) ∧
      (enabled s.csr src = false ∨ (stubOf s.fw (.timer src)).passive = true →
        (∀ cell, cell ≠ flagCell src.channel → (src = ⟨.t2, .compA⟩ → cell ≠ .tcnt2) →
          cellRead t.csr cell = cellRead s.csr cell) ∧
        (∀ e, e ≠ src.event → flagged t.csr ⟨src.channel, e⟩ = flagged s.csr ⟨src.channel, e⟩) ∧
        t.csr.tcnt2 = (if src = ⟨.t2, .compA⟩ ∧ wgm2 s.csr = Config.wgm2Ctc then 0 else s.csr.tcnt2)) ∧
      (enabled s.csr src = false → t.fwst = s.fwst) ∧
      t.tick = s.tick ∧ t.oc2a = s.oc2a ∧ t.moment = .step ∧ t.csr.busctl = s.csr.busctl ∧
      BindingsKept s t ∧ CaptureKept s t ∧ ProceduresKept s t ∧ t.hostResult = s.hostResult

/-- `DISPATCH src` completes with a legal firmware: with the enable bit 0 nothing happens; with it 1 the handler is
called and then the flag is cleared, and nothing else of what the handler left (R175). -/
def Obligations.DispatchOperation : Prop :=
  ∀ (src : TimerSource) (s : State), s.moment = .step → s.fw.legal = true →
    (enabled s.csr src = false → exec (.dispatch src) s = .next s) ∧
    (enabled s.csr src = true →
      ∃ u t, call (.timer src) s = .next u ∧ exec (.dispatch src) s = .next t ∧
        OnlyFieldWritten (flagField src) 0 u t ∧ t.calls = s.calls ++ [⟨.timer src, s.tick⟩])

/-- A handler that reads its flag register sees its flag set, though the flag is cleared after it returns (R178); a
handler of Timer2's match A that reads `TCNT2` in the clearing mode sees 0 (R166). -/
def Obligations.HandlerSeesItsEvent : Prop :=
  (∀ (src : TimerSource) (s : State), s.moment = .step → enabled s.csr src = true →
    stubOf s.fw (.timer src) = .csrr (flagField src).pos.cell.address →
    ∃ t, exec (eventOperation src) s = .next t ∧
      extractField (flagField src).pos.lo 1 (t.fwst.lastRead.setWidth 8) = 1 ∧ flagged t.csr src = false) ∧
  (∀ s : State, s.moment = .step → enabled s.csr ⟨.t2, .compA⟩ = true → wgm2 s.csr = Config.wgm2Ctc →
    s.fw.t2CompA = .csrr 0xB2 →
    ∃ t, exec (.matchA .t2) s = .next t ∧ t.fwst.lastRead = 0)

/-- A flag set while its enable bit is 0 stays set through every later `STEP` until the firmware writes it (R176). -/
def Obligations.StickyFlags : Prop :=
  ∀ (k : Nat) (s : State) (src : TimerSource), s.moment = .between → s.fw.passive = true →
    enabled s.csr src = false → flagged s.csr src = true →
    ∃ t, exec (.steps k) s = .next t ∧ flagged t.csr src = true

/-! ### The output -/

/-- `OC2A_UPDATE`: the latch and the forced-compare bit are used up, and the level follows the output-mode table if
either was set (R210, R212, R216). -/
def Obligations.OutputUpdateTable : Prop :=
  ∀ s : State, s.moment = .step →
    exec .oc2aUpdate s = .next { s with
      csr := { s.csr with tccr2b := s.csr.tccr2b &&& 0x7F }
      oc2aMatch := false
      oc2a := if s.oc2aMatch = true ∨ fieldRead s.csr .foc2a = 1 then
          (if fieldRead s.csr .com2a = 0 then s.oc2a else if fieldRead s.csr .com2a = 1 then !s.oc2a
            else if fieldRead s.csr .com2a = 2 then false else true)
        else s.oc2a }

/-- A match and a forced compare on one tick make one update: the level is what the mode makes of it once, in toggle
mode the complement (R214). With any legal firmware the level follows, once, from the match of this tick and from
`FOC2A` and `COM2A` as the handlers and the hook leave them (R144, R210, R215). So a hook that writes `FOC2A` makes one
update on this tick, match or not, and with neither a match nor `FOC2A` the level stays. -/
def Obligations.OneUpdatePerTick : Prop :=
  (∀ s : State, s.moment = .between → s.fw.passive = true → due (divisor s.csr .t2) (s.tick + 1) = true →
    (s.csr.tcnt2.toNat + 1) % 256 = s.csr.ocr2a.toNat → fieldRead s.csr .foc2a = 1 →
    ∃ t, exec .step s = .next t ∧ t.oc2a = outputLevel (fieldRead s.csr .com2a) s.oc2a ∧
      (fieldRead s.csr .com2a = 1 → t.oc2a = !s.oc2a)) ∧
  (∀ s : State, s.moment = .between → s.fw.legal = true →
    ∃ u₀ u₁ u₂ v t, ChannelTurn .t0 { s with moment := .step, tick := s.tick + 1 } u₀ ∧ ChannelTurn .t1 u₀ u₁ ∧
      ChannelTurn .t2 u₁ u₂ ∧ call .loop u₂ = .next v ∧ exec .step s = .next t ∧
      (let matched := s.oc2aMatch || due (divisor u₁.csr .t2) (s.tick + 1) && eventOccurs u₁ ⟨.t2, .compA⟩
      t.oc2a = if matched = true ∨ fieldRead v.csr .foc2a = 1 then outputLevel (fieldRead v.csr .com2a) s.oc2a
        else s.oc2a)) ∧
  (∀ (w : Nat) (s : State), w < 256 → s.moment = .between → ({ s.fw with loop := .skip } : Firmware).passive = true →
    s.fw.loop = .csrw 0xB1 (.lit w) → w / 128 % 2 = 1 →
    ∃ t, exec .step s = .next t ∧ t.oc2a = outputLevel (fieldRead s.csr .com2a) s.oc2a ∧
      t.csr.tccr2b.toNat = w % 128) ∧
  (∀ s : State, s.moment = .between → s.fw.passive = true → s.oc2aMatch = false → fieldRead s.csr .foc2a = 0 →
    (due (divisor s.csr .t2) (s.tick + 1) = false ∨ (s.csr.tcnt2.toNat + 1) % 256 ≠ s.csr.ocr2a.toNat) →
    ∃ t, exec .step s = .next t ∧ t.oc2a = s.oc2a)

/-- No other operation writes the output or the capture unit (R47, R48, R50, R56). -/
def Obligations.OutputAndCaptureWriters : Prop :=
  ∀ (i : Instr) (s t : State), exec i s = .next t →
    (mayWriteOutput i = false → t.oc2a = s.oc2a) ∧ (mayWriteCapture i = false → CaptureKept s t)

/-! ### `FEED` -/

/-- A `FEED` of the level of the last accepted transition does nothing at all; no `FEED` advances the tick, calls
anything but the capture handler or touches the level unless it accepts (R191). -/
def Obligations.FeedOfTheSameLevel : Prop :=
  (∀ s : State, s.moment = .between → exec (.feed s.prevLevel) s = .next s) ∧
  (∀ (l : Bool) (s t : State), exec (.feed l) s = .next t →
    t.tick = s.tick ∧ (t.calls = s.calls ∨ t.calls = s.calls ++ [⟨.capture, s.tick⟩]) ∧
    (t = s ∨ (l ≠ s.prevLevel ∧ t.prevLevel = l ∧ t.lastAccept = some s.tick)))

/-- The noise test: a transition is rejected, and leaves no trace, exactly if the canceler is on and fewer than 20
ticks have passed since the last accepted one; otherwise it is accepted: the latch, then the handler if the edge is the
selected one, then the level and the tick (R190, R192 to R196). -/
def Obligations.FeedNoiseTest : Prop :=
  ∀ (l : Bool) (s : State), s.moment = .between → s.fw.legal = true → l ≠ s.prevLevel →
    let latched := { s with csr := { s.csr with icr1 := s.csr.tcnt1 } }
    let rejected := fieldRead s.csr .icnc1 = 1 ∧ ∃ a, s.lastAccept = some a ∧ s.tick < a + 20
    let selected := (fieldRead s.csr .ices1 = 1 ∧ l = true) ∨ (fieldRead s.csr .ices1 = 0 ∧ l = false)
    (rejected → exec (.feed l) s = .next s) ∧
    (¬ rejected → ¬ selected →
      exec (.feed l) s = .next { latched with prevLevel := l, lastAccept := some s.tick }) ∧
    (¬ rejected → selected →
      ∃ u, call .capture latched = .next u ∧
        exec (.feed l) s = .next { u with prevLevel := l, lastAccept := some s.tick })

/-- On every accepted transition, of either polarity, `ICR1` takes `TCNT1`: it holds it afterwards, and no other
register has changed, if the handler writes no register; and a handler that reads `ICR1` reads it (R193). -/
def Obligations.CaptureLatch : Prop :=
  ∀ (l : Bool) (s : State), s.moment = .between → l ≠ s.prevLevel →
    (fieldRead s.csr .icnc1 = 0 ∨ s.lastAccept = none ∨ ∃ a, s.lastAccept = some a ∧ a + 20 ≤ s.tick) →
    (s.fw.t1Capt.passive = true →
      ∃ t, exec (.feed l) s = .next t ∧ t.csr = { s.csr with icr1 := s.csr.tcnt1 }) ∧
    (s.fw.t1Capt = .csrr16 0x86 →
      (fieldRead s.csr .ices1 = 1 ∧ l = true) ∨ (fieldRead s.csr .ices1 = 0 ∧ l = false) →
      ∃ t, exec (.feed l) s = .next t ∧ t.fwst.lastRead = s.csr.tcnt1)

/-! ### The bus -/

/-- `RD s`, its word, and that it completes with a legal firmware: the address bit and the read strobe are set, the
read-side handler is called, the value on the data lines is returned, the strobe is released (R231). -/
def Obligations.ReadTransaction : Prop :=
  ∀ (r : BusReg) (s : State), s.moment = .between → s.fw.legal = true →
    encode (.rd r) = .word 32 (0x30000000 ||| (if r = .data then 0x10000 else 0)) ∧
    ∃ u, call .pcRead { s with csr := { s.csr with
        busctl := (s.csr.busctl &&& 0xFC) ||| 0x02 ||| (if r = .data then 1 else 0) } } = .next u ∧
      exec (.rd r) s = .next { u with
        hostResult := u.csr.busdata, csr := { u.csr with busctl := u.csr.busctl &&& 0xFD } } ∧
      u.tick = s.tick ∧ u.calls = s.calls ++ [⟨.pcRead, s.tick⟩] ∧ u.oc2a = s.oc2a ∧ u.oc2aMatch = s.oc2aMatch ∧
      u.csr.busctl = (s.csr.busctl &&& 0xFC) ||| 0x02 ||| (if r = .data then 1 else 0) ∧
      BindingsKept s u ∧ CaptureKept s u ∧ ProceduresKept s u

/-- `WR s, v`, its word, and that it completes with a legal firmware: the value stands on the data lines, the address
bit and the write strobe are set, the write-side handler is called, the strobe is released (R232). -/
def Obligations.WriteTransaction : Prop :=
  ∀ (r : BusReg) (v : Byte) (s : State), s.moment = .between → s.fw.legal = true →
    encode (.wr r v) = .word 32 (0x40000000 ||| (if r = .data then 0x10000 else 0) ||| v.toNat) ∧
    ∃ u, call .pcWrite { s with csr := { s.csr with
        busdata := v, busctl := (s.csr.busctl &&& 0xFA) ||| 0x04 ||| (if r = .data then 1 else 0) } } = .next u ∧
      exec (.wr r v) s = .next { u with csr := { u.csr with busctl := u.csr.busctl &&& 0xFB } } ∧
      u.tick = s.tick ∧ u.calls = s.calls ++ [⟨.pcWrite, s.tick⟩] ∧ u.oc2a = s.oc2a ∧ u.oc2aMatch = s.oc2aMatch ∧
      u.csr.busctl = (s.csr.busctl &&& 0xFA) ||| 0x04 ||| (if r = .data then 1 else 0) ∧
      BindingsKept s u ∧ CaptureKept s u ∧ ProceduresKept s u ∧ u.hostResult = s.hostResult

/-- A read that no handler answers returns the byte of the last write (R234), and a handler that looks at the pins sees
the strobe and the address of its own transaction (R118). -/
def Obligations.StaleByteAndPins : Prop :=
  (∀ (r q : BusReg) (v : Byte) (s : State), s.moment = .between → s.fw.pcRead.passive = true →
    s.fw.pcWrite.passive = true →
    ∃ u t, exec (.wr r v) s = .next u ∧ exec (.rd q) u = .next t ∧ t.hostResult = v ∧ t.csr.busdata = v) ∧
  (∀ (r : BusReg) (s : State), s.moment = .between → s.csr.busctl &&& 0xFE = 0 → s.fw.pcRead = .csrr 0xE0 →
    ∃ t, exec (.rd r) s = .next t ∧ t.fwst.lastRead = (if r = .data then 0x03 else 0x02)) ∧
  (∀ (r : BusReg) (v : Byte) (s : State), s.moment = .between → s.csr.busctl &&& 0xFE = 0 →
    s.fw.pcWrite = .csrr 0xE0 →
    ∃ t, exec (.wr r v) s = .next t ∧ t.fwst.lastRead = (if r = .data then 0x05 else 0x04))

/-- The pin rows complete with a legal firmware: as the transaction that shows those pins, a write with the byte that
stands on the data lines. That is the model's choice (log 4). -/
def Obligations.PinRowsAreTransactions : Prop :=
  ∀ (r : BusReg) (s : State), s.moment = .between → s.fw.legal = true →
    (∃ t, exec (.busRead r) s = .next t ∧ exec (.rd r) s = .next t) ∧
    (∃ t, exec (.busWrite r) s = .next t ∧ exec (.wr r s.csr.busdata) s = .next t)

/-! ### The registers -/

/-- `CSRR a`: the byte at each address of the map of R81, and a refusal at every other; only the firmware's own last
read changes (R81, R82, R84, R235). -/
def Obligations.CsrrOperation : Prop :=
  ∀ (c : Callback) (s : State), s.moment = .callback c →
    (∀ p ∈ ([(0x35, .tifr0), (0x36, .tifr1), (0x37, .tifr2), (0x44, .tccr0a), (0x45, .tccr0b), (0x46, .tcnt0),
        (0x47, .ocr0a), (0x48, .ocr0b), (0x6E, .timsk0), (0x6F, .timsk1), (0x70, .timsk2), (0x80, .tccr1a),
        (0x81, .tccr1b), (0x82, .tccr1c), (0x84, .tcnt1Low), (0x85, .tcnt1High), (0x86, .icr1Low),
        (0x87, .icr1High), (0x88, .ocr1aLow), (0x89, .ocr1aHigh), (0x8A, .ocr1bLow), (0x8B, .ocr1bHigh),
        (0xB0, .tccr2a), (0xB1, .tccr2b), (0xB2, .tcnt2), (0xB3, .ocr2a), (0xB4, .ocr2b), (0xE0, .busctl),
        (0xE1, .busdata)] : List (Byte × CsrCell)),
      exec (.csrr p.1) s =
        .next { s with fwst := { s.fwst with lastRead := (cellRead s.csr p.2).setWidth 16 } }) ∧
    (∀ a : Byte, (∀ cell : CsrCell, cell.address ≠ a) → exec (.csrr a) s = .refused (.unmappedCsr a))

/-- `CSRW a, v` at a mapped address other than `BUSCTL`: all eight bits are stored and read back, every other byte of
the CSR space and everything else is as before; `BUSCTL` and every unmapped address are refused (R85, R236). -/
def Obligations.CsrwOperation : Prop :=
  ∀ (c : Callback) (v : Byte) (s : State), s.moment = .callback c →
    (∀ cell : CsrCell, cell ≠ .busctl →
      ∃ t u, exec (.csrw cell.address v) s = .next t ∧ t = { s with csr := t.csr } ∧
        (∀ d, cellRead t.csr d = if d = cell then v else cellRead s.csr d) ∧
        exec (.csrr cell.address) t = .next u ∧ u.fwst.lastRead = v.setWidth 16) ∧
    exec (.csrw 0xE0 v) s = .refused .busctlReadOnly ∧
    (∀ a : Byte, (∀ cell : CsrCell, cell.address ≠ a) → exec (.csrw a v) s = .refused (.unmappedCsr a))

/-- `CSRW16` and `CSRR16` at 0x84, 0x86, 0x88, 0x8A: both bytes at once, little-endian, readable singly; elsewhere
refused (R84 to R86, R88, R89, R237, R238). -/
def Obligations.WordAccess : Prop :=
  ∀ (c : Callback) (v : Word16) (s : State), s.moment = .callback c →
    (∀ p ∈ ([(0x84, .tcnt1Low, .tcnt1High), (0x86, .icr1Low, .icr1High), (0x88, .ocr1aLow, .ocr1aHigh),
        (0x8A, .ocr1bLow, .ocr1bHigh)] : List (Byte × CsrCell × CsrCell)),
      (∃ t u, exec (.csrw16 p.1 v) s = .next t ∧ t = { s with csr := t.csr } ∧
        (∀ d, cellRead t.csr d =
          if d = p.2.1 then v.setWidth 8 else if d = p.2.2 then (v >>> 8).setWidth 8 else cellRead s.csr d) ∧
        exec (.csrr16 p.1) t = .next u ∧ u.fwst.lastRead = v) ∧
      exec (.csrr16 p.1) s =
        .next { s with fwst := { s.fwst with lastRead := cellRead s.csr p.2.2 ++ cellRead s.csr p.2.1 } }) ∧
    (∀ a : Byte, a ≠ 0x84 → a ≠ 0x86 → a ≠ 0x88 → a ≠ 0x8A →
      exec (.csrr16 a) s = .refused (.notSixteenBit a) ∧ exec (.csrw16 a v) s = .refused (.notSixteenBit a))

/-- `SET REG.FIELD, v`: the register is read, then written with the field replaced and its other bits kept; a field of
`BUSCTL` is refused (R132, R245). A value that fits is what the field holds then; of another the spec states no result,
and the field holds a free value (log 19). -/
def Obligations.SetFieldOperation : Prop :=
  ∀ (c : Callback) (f : CsrField) (v : Nat) (s : State), s.moment = .callback c →
    (f.pos.cell ≠ .busctl →
      ∃ u t w, exec (.csrr f.pos.cell.address) s = .next u ∧ exec (.setField f v) s = .next t ∧
        OnlyFieldWritten f w u t ∧ (v < 2 ^ f.pos.width → w.toNat = v) ∧
        ∀ g, g ≠ f → fieldRead t.csr g = fieldRead s.csr g) ∧
    (f.pos.cell = .busctl → exec (.setField f v) s = .refused .busctlReadOnly)

/-- The rows `CS0 = ...` and `CS1 = ...`: the firmware's write of that code (log 3), after which the channel's divisor
is the one of the table (R112, R130 (a)). -/
def Obligations.PrescalerSelectsOfTimers0And1 : Prop :=
  ∀ (c : Callback) (s : State), s.moment = .callback c →
    (∀ p ∈ ([(.cs0Stopped, 0, 0), (.cs0Div1, 1, 1), (.cs0Div8, 2, 8), (.cs0Div64, 3, 64), (.cs0Div256, 4, 256),
        (.cs0Div1024, 5, 1024), (.cs0Reserved6, 6, 0), (.cs0Reserved7, 7, 0)] : List (Instr × Byte × Nat)),
      ∃ t, exec p.1 s = .next t ∧ OnlyFieldWritten .cs0 p.2.1 s t ∧ divisor t.csr .t0 = p.2.2) ∧
    (∀ p ∈ ([(.cs1Stopped, 0, 0), (.cs1Div1, 1, 1), (.cs1Div8, 2, 8), (.cs1Div64, 3, 64), (.cs1Div256, 4, 256),
        (.cs1Div1024, 5, 1024), (.cs1Reserved6, 6, 0), (.cs1Reserved7, 7, 0)] : List (Instr × Byte × Nat)),
      ∃ t, exec p.1 s = .next t ∧ OnlyFieldWritten .cs1 p.2.1 s t ∧ divisor t.csr .t1 = p.2.2)

/-- The rows `CS2 = ...`: the firmware's write of that code (log 3), with Timer2's own table (R113). -/
def Obligations.PrescalerSelectsOfTimer2 : Prop :=
  ∀ (c : Callback) (s : State), s.moment = .callback c →
    ∀ p ∈ ([(.cs2Stopped, 0, 0), (.cs2Div1, 1, 1), (.cs2Div8, 2, 8), (.cs2Div32, 3, 32), (.cs2Div64, 4, 64),
        (.cs2Div128, 5, 128), (.cs2Div256, 6, 256), (.cs2Div1024, 7, 1024)] : List (Instr × Byte × Nat)),
      ∃ t, exec p.1 s = .next t ∧ OnlyFieldWritten .cs2 p.2.1 s t ∧ divisor t.csr .t2 = p.2.2

/-- The rows `COM2A = ...` and `WGM2 = 0b010`: the firmware's write of that mode (log 3). The level does not move until
the next qualifying update, which makes of a low and of a high level what the table says (R114, R115, R218). -/
def Obligations.OutputAndWaveformModes : Prop :=
  ∀ (c : Callback) (s : State), s.moment = .callback c →
    (∀ p ∈ ([(.com2aNoChange, 0, false, true), (.com2aToggle, 1, true, false), (.com2aForceLow, 2, false, false),
        (.com2aForceHigh, 3, true, true)] : List (Instr × Byte × Bool × Bool)),
      ∃ t u, exec p.1 s = .next t ∧ OnlyFieldWritten .com2a p.2.1 s t ∧
        exec .oc2aUpdate { t with moment := .step, oc2aMatch := true } = .next u ∧
        u.oc2a = if s.oc2a then p.2.2.2 else p.2.2.1) ∧
    (∃ t, exec .wgm2Ctc s = .next t ∧ wgm2 t.csr = 0b010 ∧
      t = { s with csr := { s.csr with
        tccr2a := (s.csr.tccr2a &&& 0xFC) ||| 0x02, tccr2b := s.csr.tccr2b &&& 0xF7 } })

/-- The rows of the capture selects and of the forced compare: the firmware's write of that bit (log 3, R116). -/
def Obligations.CaptureSelectsAndForcedCompare : Prop :=
  ∀ (c : Callback) (s : State), s.moment = .callback c →
    ∀ p ∈ ([(.icnc1On, .icnc1, 1), (.icnc1Off, .icnc1, 0), (.ices1Rising, .ices1, 1), (.ices1Falling, .ices1, 0),
        (.foc2aRequest, .foc2a, 1)] : List (Instr × CsrField × Byte)),
      ∃ t, exec p.1 s = .next t ∧ OnlyFieldWritten p.2.1 p.2.2 s t

/-- The rows of the enables and flags: the firmware's write of that bit (log 3). Neither calls a handler, whatever the
other bit of the source is (R116, R177). -/
def Obligations.EnableAndFlagRows : Prop :=
  ∀ (c : Callback) (s : State), s.moment = .callback c →
    (∀ p ∈ ([(.toie0Enable, ⟨.t0, .ovf⟩), (.ocie0aEnable, ⟨.t0, .compA⟩), (.ocie0bEnable, ⟨.t0, .compB⟩),
        (.toie1Enable, ⟨.t1, .ovf⟩), (.ocie1aEnable, ⟨.t1, .compA⟩), (.ocie1bEnable, ⟨.t1, .compB⟩),
        (.toie2Enable, ⟨.t2, .ovf⟩), (.ocie2aEnable, ⟨.t2, .compA⟩), (.ocie2bEnable, ⟨.t2, .compB⟩)] :
        List (Instr × TimerSource)),
      ∃ t, exec p.1 s = .next t ∧ OnlyFieldWritten (enableField p.2) 1 s t ∧ enabled t.csr p.2 = true ∧
        flagged t.csr p.2 = flagged s.csr p.2 ∧ t.calls = s.calls) ∧
    (∀ p ∈ ([(.tov0Pending, ⟨.t0, .ovf⟩), (.ocf0aPending, ⟨.t0, .compA⟩), (.ocf0bPending, ⟨.t0, .compB⟩),
        (.tov1Pending, ⟨.t1, .ovf⟩), (.ocf1aPending, ⟨.t1, .compA⟩), (.ocf1bPending, ⟨.t1, .compB⟩),
        (.tov2Pending, ⟨.t2, .ovf⟩), (.ocf2aPending, ⟨.t2, .compA⟩), (.ocf2bPending, ⟨.t2, .compB⟩)] :
        List (Instr × TimerSource)),
      ∃ t, exec p.1 s = .next t ∧ OnlyFieldWritten (flagField p.2) 1 s t ∧ flagged t.csr p.2 = true ∧
        enabled t.csr p.2 = enabled s.csr p.2 ∧ t.calls = s.calls)

/-! ### The decoder -/

/-- `POLL`, by what the read of the status byte leaves (R262): nothing once stopped; else framing, then parity, each
stopping the stream unless keep-going is set; then, with bit 0 clear, the data byte is read, appended and compared. -/
def Obligations.PollByStatus : Prop :=
  (∀ s : State, s.moment = .between → s.dec.stopped = true → exec .poll s = .next s) ∧
  (∀ s u : State, s.dec.stopped = false → exec (.rd .control) s = .next u →
    let st := u.hostResult
    let go := s.dec.keepGoing
    let framing := if st.getLsbD 3 then [HostError.framing u.tick] else []
    let parity := if st.getLsbD 2 then [HostError.parity u.tick] else []
    let goesOn := go = true ∨ (st.getLsbD 3 = false ∧ st.getLsbD 2 = false)
    (go = false → st.getLsbD 3 = true → exec .poll s = .next (afterErrors [.framing u.tick] true u)) ∧
    (go = false → st.getLsbD 3 = false → st.getLsbD 2 = true →
      exec .poll s = .next (afterErrors [.parity u.tick] true u)) ∧
    (goesOn → st.getLsbD 0 = true → exec .poll s = .next (afterErrors (framing ++ parity) false u)) ∧
    (goesOn → st.getLsbD 0 = false → ∀ w, exec (.rd .data) (afterErrors (framing ++ parity) false u) = .next w →
      ∃ x, exec (.compare w.hostResult)
          { w with dec := { w.dec with received := w.dec.received ++ [w.hostResult] } } = .next x ∧
        exec .poll s = .next x))

/-- `POLL` completes with a legal firmware: one read event, or two when a byte is read; no tick, no register of the
block but by the reads (R262, R265). -/
def Obligations.PollOperation : Prop :=
  ∀ s : State, s.moment = .between → s.fw.legal = true →
    ∃ t, exec .poll s = .next t ∧
      (s.dec.stopped = false →
        (t.calls = s.calls ++ [⟨.pcRead, s.tick⟩] ∧ t.dec.received = s.dec.received) ∨
        (t.calls = s.calls ++ [⟨.pcRead, s.tick⟩, ⟨.pcRead, s.tick⟩] ∧
          t.dec.received = s.dec.received ++ [t.hostResult])) ∧
      (s.dec.stopped = true → t = s) ∧
      t.tick = s.tick ∧ t.oc2a = s.oc2a ∧ t.oc2aMatch = s.oc2aMatch ∧ t.moment = .between ∧
      BindingsKept s t ∧ CaptureKept s t ∧ t.src = s.src ∧ t.snk = s.snk ∧
      t.dec.keepGoing = s.dec.keepGoing ∧ t.dec.ref = s.dec.ref ∧ t.dec.ignoreLeader = s.dec.ignoreLeader

/-- `COMPARE b` (R266 to R269). Without a reference nothing is compared (log 14). Past the leader: a match, a
mismatch, or the end of the stream. In the leader: a leader byte is used up; another byte ends the leader, and is
compared past the leader bytes of the reference. -/
def Obligations.CompareOperation : Prop :=
  ∀ (b : Byte) (s : State), s.moment = .between →
    (s.dec.ref = none → exec (.compare b) s = .next s) ∧
    (∀ ref, s.dec.ref = some ref → s.dec.inLeader = false →
      (s.dec.refPos ≥ ref.length →
        exec (.compare b) s = .next { s with dec := { s.dec with endReports := s.dec.endReports + 1 } }) ∧
      (ref[s.dec.refPos]? = some b →
        exec (.compare b) s = .next { s with dec := { s.dec with refPos := s.dec.refPos + 1 } }) ∧
      (∀ e, ref[s.dec.refPos]? = some e → e ≠ b →
        exec (.compare b) s = .next { s with
          errors := s.errors ++ [.mismatch e b s.tick]
          dec := { s.dec with
            refPos := s.dec.refPos + 1, stopped := s.dec.stopped || !s.dec.keepGoing } })) ∧
    (∀ ref, s.dec.ref = some ref → s.dec.inLeader = true → ref.head? = some b →
      exec (.compare b) s = .next { s with
        dec := { s.dec with
          refPos := if ref[s.dec.refPos]? = some b then s.dec.refPos + 1 else s.dec.refPos } }) ∧
    (∀ ref leader, s.dec.ref = some ref → s.dec.inLeader = true → ref.head? = some leader → b ≠ leader →
      exec (.compare b) s = exec (.compare b) { s with
        dec := { s.dec with
          refPos := s.dec.refPos + ((ref.drop s.dec.refPos).takeWhile (· == leader)).length, inLeader := false } })

/-- Leader-tolerant comparison: however many leader bytes the data and the reference begin with, the bodies are
compared one to one, and a first body byte that differs is reported as such (R266, R270). -/
def Obligations.LeaderTolerance : Prop :=
  ∀ (leader first : Byte) (m k : Nat) (rest : List Byte) (s : State), s.moment = .between → 0 < m → first ≠ leader →
    s.dec.ref = some (List.replicate m leader ++ first :: rest) → s.dec.refPos = 0 → s.dec.inLeader = true →
    (∃ t, compareAll (List.replicate k leader ++ first :: rest) s = .next t ∧
      t.errors = s.errors ∧ t.dec.endReports = s.dec.endReports ∧ t.dec.stopped = s.dec.stopped ∧
      t.dec.refPos = m + 1 + rest.length ∧ t.dec.inLeader = false) ∧
    (∀ b, b ≠ leader → b ≠ first →
      ∃ t, compareAll (List.replicate k leader ++ [b]) s = .next t ∧
        t.errors = s.errors ++ [.mismatch first b s.tick] ∧ t.dec.refPos = m + 1)

/-- The status rows complete with a legal firmware, each as what the host's procedure does on that bit: the framing,
parity and byte-available lines of `POLL` and the write of `SINK_RUN`. That they stand for these lines is the model's
choice (log 5; R117, R262, R313, R314). -/
def Obligations.StatusRows : Prop :=
  ∀ s : State, s.moment = .between → s.fw.legal = true →
    (s.dec.stopped = true → exec .statusFraming s = .next s ∧ exec .statusParity s = .next s ∧
      exec .statusByteAvailable s = .next s) ∧
    (s.dec.stopped = false →
      exec .statusFraming s = .next (afterErrors [.framing s.tick] (!s.dec.keepGoing) s) ∧
      exec .statusParity s = .next (afterErrors [.parity s.tick] (!s.dec.keepGoing) s) ∧
      ∃ w x, exec (.rd .data) s = .next w ∧
        exec (.compare w.hostResult)
          { w with dec := { w.dec with received := w.dec.received ++ [w.hostResult] } } = .next x ∧
        exec .statusByteAvailable s = .next x) ∧
    (s.tick < s.snk.leaderEnd ∨ s.snk.data.length ≤ s.snk.pos → exec .statusRoom s = .next s) ∧
    (s.snk.leaderEnd ≤ s.tick → ∀ b, s.snk.data[s.snk.pos]? = some b →
      ∃ u, exec (.wr .data b) s = .next u ∧
        exec .statusRoom s = .next { u with
          snk := { s.snk with pos := s.snk.pos + 1, endTime := s.tick + s.params.clockHz } })

/-! ### The players -/

/-- `CSV_PLAY` completes with a legal firmware on a list none of whose records lies before the first, and is: for each
record `FEEDAT` of its level at its tick, then `POLL`, until the decoder stops. It ends at the tick of the latest record
unless the decoder stopped it, and then it failed; its result and exit status are those of a read run, of which log 15
says what counts as left over (R269, R271, R341). A list with a record before the first completes only if it was stopped
before it (R282 to R286). That a run begins with the decoder afresh and no errors is log 13's reading. -/
def Obligations.CsvPlayOperation : Prop :=
  ∀ (records : List (Nat × Int)) (s : State), s.moment = .between → s.fw.legal = true →
    (recordsFromOrigin records = true →
      ∃ u t, exec (.csvPlay records) s = .next t ∧
        (let begun := startRead s
        playCsv s.tick (records.headD (0, 0)).1 records
          { begun with src := { begun.src with origin := records.head?.map Prod.fst } } = .next u) ∧
        t = { u with outcome := t.outcome, exitStatus := t.exitStatus } ∧
        (t.dec.stopped = false →
          t.tick = (records.map fun r => s.tick + (r.1 - (records.headD (0, 0)).1) / 10).foldl max s.tick) ∧
        ReadRunEnded t ∧ s.tick ≤ t.tick ∧ t.moment = .between ∧ t.snk = s.snk ∧ BindingsKept s t) ∧
    (recordsFromOrigin records = false → ∀ t, exec (.csvPlay records) s = .next t → t.dec.stopped = true)

/-- `WAV_PLAY` completes with a legal firmware on any bytes. Fewer than 44 bytes are `TruncatedData`, a bad header is
`UnsupportedFileFormat`, both with no `STEP`, no `FEED` and no poll; with a good header it is, for each frame, `FEED` of
its level, `RUNTO` the next sample's tick and `POLL` (R287 to R291, R294). A truncated run and one the decoder stopped
failed; the result and exit status are those of a read run, of which log 15 says what counts as left over (R269, R271,
R341). That a run begins with the decoder afresh and
with no errors of an earlier run, so that its errors are its own alone, is log 13's reading. -/
def Obligations.WavPlayOperation : Prop :=
  ∀ (bytes : List Byte) (s : State), s.moment = .between → s.fw.legal = true →
    ∃ t, exec (.wavPlay bytes) s = .next t ∧
      (bytes.length < 44 → t.errors = [.truncated s.tick]) ∧
      (44 ≤ bytes.length → wavHeaderOk bytes = false → t.errors = [.unsupportedFormat s.tick]) ∧
      (bytes.length < 44 ∨ wavHeaderOk bytes = false →
        t.outcome = some false ∧ t.exitStatus = some 1 ∧ t.calls = s.calls ∧ t.tick = s.tick ∧ t.csr = s.csr ∧
        t.fwst = s.fwst ∧ CaptureKept s t) ∧
      (44 ≤ bytes.length → wavHeaderOk bytes = true →
        ∃ u, playWav bytes s.tick s.params.clockHz (wavDataSize bytes / wavBlockAlign bytes) 0 (startRead s) = .next u ∧
          t = { u with src := t.src, outcome := t.outcome, exitStatus := t.exitStatus } ∧
          t.src.t0 = s.tick ∧ t.src.origin = none ∧
          t.src.descriptor = some ⟨wavChannels bytes, wavSampleRate bytes, wavBits bytes, .littleEndian⟩) ∧
      ReadRunEnded t ∧ s.tick ≤ t.tick ∧ t.moment = .between ∧ t.snk = s.snk ∧ BindingsKept s t

/-- A WAV stream that is played whole and not stopped by the decoder advances the clock to the exactly rounded tick of
its last sample; a stream of one second of samples advances it by one second of ticks (R287, R290, R292). That with
keep-going the decoder has not stopped rests on the player's starting it afresh (log 13). -/
def Obligations.WavPlayClock : Prop :=
  ∀ (bytes : List Byte) (s : State), s.moment = .between → s.fw.legal = true → wavHeaderOk bytes = true →
    let frames := wavDataSize bytes / wavBlockAlign bytes
    44 + frames * wavBlockAlign bytes ≤ bytes.length →
    ∃ t, exec (.wavPlay bytes) s = .next t ∧
      (s.dec.keepGoing = true → t.dec.stopped = false) ∧
      (t.dec.stopped = false →
        t.tick = s.tick + (2 * (frames * s.params.clockHz) + wavSampleRate bytes) / (2 * wavSampleRate bytes) ∧
        t.src.k = frames ∧ (frames = wavSampleRate bytes → t.tick = s.tick + s.params.clockHz) ∧
        t.outcome = some t.errors.isEmpty)

/-- The value of a sample by its width, and the byte of an output sample (R121). -/
def Obligations.SampleDecoding : Prop :=
  (∀ (b : Byte) (rest : List Byte), sampleValue 8 (b :: rest) = (b.toNat : Int) - 128) ∧
  (∀ (b₀ b₁ : Byte) (rest : List Byte), sampleValue 16 (b₀ :: b₁ :: rest) =
    (b₀.toNat + 256 * b₁.toNat : Int) - (if b₁.toNat < 128 then 0 else 65536)) ∧
  (∀ (b₀ b₁ b₂ b₃ : Byte) (rest : List Byte), sampleValue 32 (b₀ :: b₁ :: b₂ :: b₃ :: rest) =
    (b₀.toNat + 256 * b₁.toNat + 65536 * b₂.toNat + 16777216 * b₃.toNat : Int)
      - (if b₃.toNat < 128 then 0 else 4294967296)) ∧
  (∀ v : Int, -128 ≤ v → v ≤ 127 → ((sampleByte v).toNat : Int) = v + 128)

/-- The tick of a sample is the nearest to its ideal time, a half taken up: the error never accumulates (R11, R290,
R326). -/
def Obligations.SampleGridIsNearest : Prop :=
  ∀ k clockHz rate : Nat, 0 < rate →
    2 * (sampleTick k clockHz rate * rate) ≤ 2 * (k * clockHz) + rate ∧
    2 * (k * clockHz) < 2 * (sampleTick k clockHz rate * rate) + rate

/-! ### The sink -/

/-- `SINK_RUN` completes with a legal firmware: at the end-time bound with success, or earlier with
`BufferStuckFault`, which is raised only after the output had toggled and then stood still for more than 1250 ticks; in
both cases the file is written, its header of 44 bytes before the samples (R312, R316, R318, R324). That the errors of
an earlier run are gone is log 13's reading. -/
def Obligations.SinkRunOperation : Prop :=
  ∀ (data : List Byte) (s : State), s.moment = .between → s.fw.legal = true → 0 < s.params.clockHz →
    ∃ t, exec (.sinkRun data) s = .next t ∧
      ((t.outcome = some true ∧ t.exitStatus = some 0 ∧ t.errors = [] ∧ t.snk.endTime ≤ t.tick) ∨
        (t.outcome = some false ∧ t.exitStatus = some 1 ∧ t.errors = [.bufferStuck t.tick] ∧ t.tick ≤ t.snk.endTime ∧
          t.snk.toggled = true ∧ t.snk.lastChange + 1250 < t.tick)) ∧
      t.snk.file.length = 44 + t.snk.samples.length ∧ t.snk.file.drop 44 = t.snk.samples ∧
      t.snk.n = t.snk.samples.length ∧ t.snk.pos ≤ data.length ∧ t.snk.data = data ∧
      s.tick ≤ t.tick ∧ t.moment = .between ∧
      t.dec = s.dec ∧ t.src = s.src ∧ CaptureKept s t ∧ BindingsKept s t

/-- The number of output samples of a run: sample `j` is written exactly if its tick is not after the last tick
sampled, which is the last tick of a run that ends at its bound, and the tick before the fault of a stuck one (R322,
R323, R326). -/
def Obligations.SinkSampleCount : Prop :=
  ∀ (data : List Byte) (s t : State), 0 < s.params.clockHz → exec (.sinkRun data) s = .next t →
    ∀ j, j < t.snk.samples.length ↔
      s.tick + (2 * (j * s.params.clockHz) + 48000) / 96000 ≤ (if t.outcome = some true then t.tick else t.tick - 1)

/-- The file that a sink run writes passes the source adapter's own check, and its header says one channel, 8 bits, 48000
samples per second, and the number of samples where it fits the field (log 17 where it does not; R120, R288, R324). -/
def Obligations.SinkHeaderIsAccepted : Prop :=
  ∀ (data : List Byte) (s t : State), exec (.sinkRun data) s = .next t →
    wavHeaderOk t.snk.file = true ∧ wavChannels t.snk.file = 1 ∧ wavBits t.snk.file = 8 ∧
    wavSampleRate t.snk.file = 48000 ∧ (t.snk.n < 2 ^ 32 → wavDataSize t.snk.file = t.snk.n) ∧
    (36 + t.snk.n < 2 ^ 32 → leNat (slice t.snk.file 4 4) = 36 + t.snk.n)

/-- The bytes and the samples of a sink run. The run is a number of passes from the state it began in, one per tick,
each a status read, perhaps the write of the next byte, a step; but for the sink's own state and the host's results it
leaves what they leave, and it ends at the bound. The first sample is 128 and each is the filter's value after the tick
of the sample, offset by 128, where the filter takes the levels after the steps. The run fails at the first tick at which
the level has changed since the start and has then stood still for more than 1250 ticks, and a successful run has no such
tick (R311 to R314, R316, R318 to R323). -/
def Obligations.SinkRunBytesAndSamples : Prop :=
  ∀ (data : List Byte) (s t : State), 0 < s.params.clockHz → exec (.sinkRun data) s = .next t →
    let leaderEnd := s.tick + 3 * s.params.clockHz + s.params.leaderOffset
    let last := t.tick - s.tick
    ∃ p : Nat → SinkPoint, p 0 = ⟨s, 0, leaderEnd + s.params.idleTimeout⟩ ∧
      (∀ i, i < last → SinkPass data leaderEnd (p i) (p (i + 1))) ∧
      t = { (p last).state with snk := t.snk, errors := t.errors, outcome := t.outcome, exitStatus := t.exitStatus } ∧
      t.snk.pos = (p last).sent ∧ t.snk.endTime = (p last).bound ∧
      (let level := fun i => (p i).state.oc2a
      (t.outcome = some false ↔ StuckAt level last) ∧ ∀ i, i < last → ¬ StuckAt level i) ∧
      t.snk.samples.head? = some 128 ∧
      ∀ j b, t.snk.samples[j]? = some b →
        b = sampleByte (filterAfter (fun i => (p i).state.oc2a) ((2 * (j * s.params.clockHz) + 48000) / 96000))

/-- The filter divides by 3 toward zero and stays within the amplitude; an output byte is between 8 and 248 (R319 to
R322). -/
def Obligations.FilterTowardZero : Prop :=
  ∀ (p : Int) (level : Bool), -120 ≤ p → p ≤ 120 →
    let x := 2 * p + (if level then 120 else -120)
    let y := filterValue p level
    (0 ≤ x → 3 * y ≤ x ∧ x < 3 * y + 3) ∧ (x ≤ 0 → x ≤ 3 * y ∧ 3 * y < x + 3) ∧
    -120 ≤ y ∧ y ≤ 120 ∧ 8 ≤ (sampleByte y).toNat ∧ (sampleByte y).toNat ≤ 248

/-! ### The whole machine -/

/-- The reset state satisfies the invariant of Safety.lean. That the filter's value and the sample count are right before
any sink run has started is log 12's choice of their reset values, the spec giving them at `SINK_RUN` only (R311, R320,
R322); that the clock rate is positive is log 9's, that no operation is under way log 8's. -/
def Obligations.ResetSatisfiesInvariant : Prop := Invariant State.reset

/-- Every step keeps the invariant, whatever stands in the trace: between two operations no callback runs and no `STEP`
is under way, `BUSCTL` has its reserved bits 0 and its
strobes released, the latch is 0, the last acceptance is not in the future, the filter is within its amplitude, the
sample count is right (R45, R54, R320). -/
def Obligations.StepKeepsInvariant : Prop :=
  ∀ s t : State, Invariant s → step s = .next t → Invariant t

/-- With a legal firmware no well-formed operation of the host is refused between two operations, and no sub-operation
of the block inside a `STEP` (R8, R9, R150, R362). The rows of the pins and of the status byte, and the sub-operations
as operations of their own, are the model's choice (logs 4, 5, 6). -/
def Obligations.LegalFirmwareCompletes : Prop :=
  ∀ (i : Instr) (s : State), i.wellFormed = true →
    (i.performer = .host ∧ s.moment = .between) ∨ (i.performer = .block ∧ s.moment = .step) →
    s.fw.legal = true → ∃ t, exec i s = .next t

/-- No operation changes the binding of the callbacks, the firmware's initial state, the parameters of the run or the
operations still to perform, or leaves a callback or a `STEP` under way that was not, and none but `RESET` lets the tick
go back (R9, R20, R51, R97, R352). -/
def Obligations.BindingsAndTime : Prop :=
  ∀ (i : Instr) (s t : State), exec i s = .next t →
    BindingsKept s t ∧ t.moment = s.moment ∧ (i ≠ .reset → s.tick ≤ t.tick)

/-- The firmware's operations write the CSRs but not `BUSCTL`, and the firmware's own state, and nothing else (R56,
R85). -/
def Obligations.FirmwareIsConfined : Prop :=
  ∀ (i : Instr) (s t : State), i.performer = .firmware → exec i s = .next t →
    t = { s with csr := t.csr, fwst := t.fwst } ∧ t.csr.busctl = s.csr.busctl

end
end

