-- ==== Sys2Proof/Laws/State.lean ====
section
/-! SUPPORT. Laws/State.lean: for each named update of the state, what each field is after it. Updates written as a
record update need no lemma: simp reads a field of one directly. -/

namespace Sys2Proof.Machine

section enterCallback
@[simp] theorem enterCallback_tick (c : Callback) (s : State) : (enterCallback c s).tick = s.tick := rfl
@[simp] theorem enterCallback_csr (c : Callback) (s : State) : (enterCallback c s).csr = s.csr := rfl
@[simp] theorem enterCallback_prevLevel (c : Callback) (s : State) : (enterCallback c s).prevLevel = s.prevLevel := rfl
@[simp] theorem enterCallback_lastAccept (c : Callback) (s : State) : (enterCallback c s).lastAccept = s.lastAccept := rfl
@[simp] theorem enterCallback_oc2aMatch (c : Callback) (s : State) : (enterCallback c s).oc2aMatch = s.oc2aMatch := rfl
@[simp] theorem enterCallback_oc2a (c : Callback) (s : State) : (enterCallback c s).oc2a = s.oc2a := rfl
@[simp] theorem enterCallback_fw (c : Callback) (s : State) : (enterCallback c s).fw = s.fw := rfl
@[simp] theorem enterCallback_fwst0 (c : Callback) (s : State) : (enterCallback c s).fwst0 = s.fwst0 := rfl
@[simp] theorem enterCallback_fwst (c : Callback) (s : State) : (enterCallback c s).fwst = s.fwst := rfl
@[simp] theorem enterCallback_moment (c : Callback) (s : State) : (enterCallback c s).moment = .callback c := rfl
@[simp] theorem enterCallback_params (c : Callback) (s : State) : (enterCallback c s).params = s.params := rfl
@[simp] theorem enterCallback_dec (c : Callback) (s : State) : (enterCallback c s).dec = s.dec := rfl
@[simp] theorem enterCallback_src (c : Callback) (s : State) : (enterCallback c s).src = s.src := rfl
@[simp] theorem enterCallback_snk (c : Callback) (s : State) : (enterCallback c s).snk = s.snk := rfl
@[simp] theorem enterCallback_hostResult (c : Callback) (s : State) : (enterCallback c s).hostResult = s.hostResult := rfl
@[simp] theorem enterCallback_errors (c : Callback) (s : State) : (enterCallback c s).errors = s.errors := rfl
@[simp] theorem enterCallback_outcome (c : Callback) (s : State) : (enterCallback c s).outcome = s.outcome := rfl
@[simp] theorem enterCallback_exitStatus (c : Callback) (s : State) : (enterCallback c s).exitStatus = s.exitStatus := rfl
@[simp] theorem enterCallback_calls (c : Callback) (s : State) : (enterCallback c s).calls = s.calls ++ [⟨c, s.tick⟩] := rfl
@[simp] theorem enterCallback_trace (c : Callback) (s : State) : (enterCallback c s).trace = s.trace := rfl
end enterCallback

section returnFromCallback
@[simp] theorem returnFromCallback_tick (m : Moment) (s : State) : (returnFromCallback m s).tick = s.tick := rfl
@[simp] theorem returnFromCallback_csr (m : Moment) (s : State) : (returnFromCallback m s).csr = s.csr := rfl
@[simp] theorem returnFromCallback_prevLevel (m : Moment) (s : State) : (returnFromCallback m s).prevLevel = s.prevLevel := rfl
@[simp] theorem returnFromCallback_lastAccept (m : Moment) (s : State) : (returnFromCallback m s).lastAccept = s.lastAccept := rfl
@[simp] theorem returnFromCallback_oc2aMatch (m : Moment) (s : State) : (returnFromCallback m s).oc2aMatch = s.oc2aMatch := rfl
@[simp] theorem returnFromCallback_oc2a (m : Moment) (s : State) : (returnFromCallback m s).oc2a = s.oc2a := rfl
@[simp] theorem returnFromCallback_fw (m : Moment) (s : State) : (returnFromCallback m s).fw = s.fw := rfl
@[simp] theorem returnFromCallback_fwst0 (m : Moment) (s : State) : (returnFromCallback m s).fwst0 = s.fwst0 := rfl
@[simp] theorem returnFromCallback_fwst (m : Moment) (s : State) : (returnFromCallback m s).fwst = s.fwst := rfl
@[simp] theorem returnFromCallback_moment (m : Moment) (s : State) : (returnFromCallback m s).moment = m := rfl
@[simp] theorem returnFromCallback_params (m : Moment) (s : State) : (returnFromCallback m s).params = s.params := rfl
@[simp] theorem returnFromCallback_dec (m : Moment) (s : State) : (returnFromCallback m s).dec = s.dec := rfl
@[simp] theorem returnFromCallback_src (m : Moment) (s : State) : (returnFromCallback m s).src = s.src := rfl
@[simp] theorem returnFromCallback_snk (m : Moment) (s : State) : (returnFromCallback m s).snk = s.snk := rfl
@[simp] theorem returnFromCallback_hostResult (m : Moment) (s : State) : (returnFromCallback m s).hostResult = s.hostResult := rfl
@[simp] theorem returnFromCallback_errors (m : Moment) (s : State) : (returnFromCallback m s).errors = s.errors := rfl
@[simp] theorem returnFromCallback_outcome (m : Moment) (s : State) : (returnFromCallback m s).outcome = s.outcome := rfl
@[simp] theorem returnFromCallback_exitStatus (m : Moment) (s : State) : (returnFromCallback m s).exitStatus = s.exitStatus := rfl
@[simp] theorem returnFromCallback_calls (m : Moment) (s : State) : (returnFromCallback m s).calls = s.calls := rfl
@[simp] theorem returnFromCallback_trace (m : Moment) (s : State) : (returnFromCallback m s).trace = s.trace := rfl
end returnFromCallback

section recordError
@[simp] theorem recordError_tick (e : HostError) (s : State) : (recordError e s).tick = s.tick := rfl
@[simp] theorem recordError_csr (e : HostError) (s : State) : (recordError e s).csr = s.csr := rfl
@[simp] theorem recordError_prevLevel (e : HostError) (s : State) : (recordError e s).prevLevel = s.prevLevel := rfl
@[simp] theorem recordError_lastAccept (e : HostError) (s : State) : (recordError e s).lastAccept = s.lastAccept := rfl
@[simp] theorem recordError_oc2aMatch (e : HostError) (s : State) : (recordError e s).oc2aMatch = s.oc2aMatch := rfl
@[simp] theorem recordError_oc2a (e : HostError) (s : State) : (recordError e s).oc2a = s.oc2a := rfl
@[simp] theorem recordError_fw (e : HostError) (s : State) : (recordError e s).fw = s.fw := rfl
@[simp] theorem recordError_fwst0 (e : HostError) (s : State) : (recordError e s).fwst0 = s.fwst0 := rfl
@[simp] theorem recordError_fwst (e : HostError) (s : State) : (recordError e s).fwst = s.fwst := rfl
@[simp] theorem recordError_moment (e : HostError) (s : State) : (recordError e s).moment = s.moment := rfl
@[simp] theorem recordError_params (e : HostError) (s : State) : (recordError e s).params = s.params := rfl
@[simp] theorem recordError_dec (e : HostError) (s : State) : (recordError e s).dec = s.dec := rfl
@[simp] theorem recordError_src (e : HostError) (s : State) : (recordError e s).src = s.src := rfl
@[simp] theorem recordError_snk (e : HostError) (s : State) : (recordError e s).snk = s.snk := rfl
@[simp] theorem recordError_hostResult (e : HostError) (s : State) : (recordError e s).hostResult = s.hostResult := rfl
@[simp] theorem recordError_errors (e : HostError) (s : State) : (recordError e s).errors = s.errors ++ [e] := rfl
@[simp] theorem recordError_outcome (e : HostError) (s : State) : (recordError e s).outcome = s.outcome := rfl
@[simp] theorem recordError_exitStatus (e : HostError) (s : State) : (recordError e s).exitStatus = s.exitStatus := rfl
@[simp] theorem recordError_calls (e : HostError) (s : State) : (recordError e s).calls = s.calls := rfl
@[simp] theorem recordError_trace (e : HostError) (s : State) : (recordError e s).trace = s.trace := rfl
end recordError

section resetBlock
@[simp] theorem resetBlock_tick (s : State) : (resetBlock s).tick = 0 := rfl
@[simp] theorem resetBlock_csr (s : State) : (resetBlock s).csr = {} := rfl
@[simp] theorem resetBlock_prevLevel (s : State) : (resetBlock s).prevLevel = false := rfl
@[simp] theorem resetBlock_lastAccept (s : State) : (resetBlock s).lastAccept = none := rfl
@[simp] theorem resetBlock_oc2aMatch (s : State) : (resetBlock s).oc2aMatch = false := rfl
@[simp] theorem resetBlock_oc2a (s : State) : (resetBlock s).oc2a = false := rfl
@[simp] theorem resetBlock_fw (s : State) : (resetBlock s).fw = s.fw := rfl
@[simp] theorem resetBlock_fwst0 (s : State) : (resetBlock s).fwst0 = s.fwst0 := rfl
@[simp] theorem resetBlock_fwst (s : State) : (resetBlock s).fwst = s.fwst0 := rfl
@[simp] theorem resetBlock_moment (s : State) : (resetBlock s).moment = s.moment := rfl
@[simp] theorem resetBlock_params (s : State) : (resetBlock s).params = s.params := rfl
@[simp] theorem resetBlock_dec (s : State) : (resetBlock s).dec = s.dec := rfl
@[simp] theorem resetBlock_src (s : State) : (resetBlock s).src = s.src := rfl
@[simp] theorem resetBlock_snk (s : State) : (resetBlock s).snk = s.snk := rfl
@[simp] theorem resetBlock_hostResult (s : State) : (resetBlock s).hostResult = s.hostResult := rfl
@[simp] theorem resetBlock_errors (s : State) : (resetBlock s).errors = s.errors := rfl
@[simp] theorem resetBlock_outcome (s : State) : (resetBlock s).outcome = s.outcome := rfl
@[simp] theorem resetBlock_exitStatus (s : State) : (resetBlock s).exitStatus = s.exitStatus := rfl
@[simp] theorem resetBlock_calls (s : State) : (resetBlock s).calls = s.calls := rfl
@[simp] theorem resetBlock_trace (s : State) : (resetBlock s).trace = s.trace := rfl
end resetBlock

section matchTimer2
@[simp] theorem matchTimer2_tick (s : State) : (matchTimer2 s).tick = s.tick := rfl
@[simp] theorem matchTimer2_prevLevel (s : State) : (matchTimer2 s).prevLevel = s.prevLevel := rfl
@[simp] theorem matchTimer2_lastAccept (s : State) : (matchTimer2 s).lastAccept = s.lastAccept := rfl
@[simp] theorem matchTimer2_oc2aMatch (s : State) : (matchTimer2 s).oc2aMatch = true := rfl
@[simp] theorem matchTimer2_oc2a (s : State) : (matchTimer2 s).oc2a = s.oc2a := rfl
@[simp] theorem matchTimer2_fw (s : State) : (matchTimer2 s).fw = s.fw := rfl
@[simp] theorem matchTimer2_fwst0 (s : State) : (matchTimer2 s).fwst0 = s.fwst0 := rfl
@[simp] theorem matchTimer2_fwst (s : State) : (matchTimer2 s).fwst = s.fwst := rfl
@[simp] theorem matchTimer2_moment (s : State) : (matchTimer2 s).moment = s.moment := rfl
@[simp] theorem matchTimer2_params (s : State) : (matchTimer2 s).params = s.params := rfl
@[simp] theorem matchTimer2_dec (s : State) : (matchTimer2 s).dec = s.dec := rfl
@[simp] theorem matchTimer2_src (s : State) : (matchTimer2 s).src = s.src := rfl
@[simp] theorem matchTimer2_snk (s : State) : (matchTimer2 s).snk = s.snk := rfl
@[simp] theorem matchTimer2_hostResult (s : State) : (matchTimer2 s).hostResult = s.hostResult := rfl
@[simp] theorem matchTimer2_errors (s : State) : (matchTimer2 s).errors = s.errors := rfl
@[simp] theorem matchTimer2_outcome (s : State) : (matchTimer2 s).outcome = s.outcome := rfl
@[simp] theorem matchTimer2_exitStatus (s : State) : (matchTimer2 s).exitStatus = s.exitStatus := rfl
@[simp] theorem matchTimer2_calls (s : State) : (matchTimer2 s).calls = s.calls := rfl
@[simp] theorem matchTimer2_trace (s : State) : (matchTimer2 s).trace = s.trace := rfl
end matchTimer2

section outputUpdate
@[simp] theorem outputUpdate_tick (s : State) : (outputUpdate s).tick = s.tick := rfl
@[simp] theorem outputUpdate_csr (s : State) : (outputUpdate s).csr = fieldWrite s.csr .foc2a 0 := rfl
@[simp] theorem outputUpdate_prevLevel (s : State) : (outputUpdate s).prevLevel = s.prevLevel := rfl
@[simp] theorem outputUpdate_lastAccept (s : State) : (outputUpdate s).lastAccept = s.lastAccept := rfl
@[simp] theorem outputUpdate_oc2aMatch (s : State) : (outputUpdate s).oc2aMatch = false := rfl
@[simp] theorem outputUpdate_fw (s : State) : (outputUpdate s).fw = s.fw := rfl
@[simp] theorem outputUpdate_fwst0 (s : State) : (outputUpdate s).fwst0 = s.fwst0 := rfl
@[simp] theorem outputUpdate_fwst (s : State) : (outputUpdate s).fwst = s.fwst := rfl
@[simp] theorem outputUpdate_moment (s : State) : (outputUpdate s).moment = s.moment := rfl
@[simp] theorem outputUpdate_params (s : State) : (outputUpdate s).params = s.params := rfl
@[simp] theorem outputUpdate_dec (s : State) : (outputUpdate s).dec = s.dec := rfl
@[simp] theorem outputUpdate_src (s : State) : (outputUpdate s).src = s.src := rfl
@[simp] theorem outputUpdate_snk (s : State) : (outputUpdate s).snk = s.snk := rfl
@[simp] theorem outputUpdate_hostResult (s : State) : (outputUpdate s).hostResult = s.hostResult := rfl
@[simp] theorem outputUpdate_errors (s : State) : (outputUpdate s).errors = s.errors := rfl
@[simp] theorem outputUpdate_outcome (s : State) : (outputUpdate s).outcome = s.outcome := rfl
@[simp] theorem outputUpdate_exitStatus (s : State) : (outputUpdate s).exitStatus = s.exitStatus := rfl
@[simp] theorem outputUpdate_calls (s : State) : (outputUpdate s).calls = s.calls := rfl
@[simp] theorem outputUpdate_trace (s : State) : (outputUpdate s).trace = s.trace := rfl
end outputUpdate

section decoderError
@[simp] theorem decoderError_tick (e : HostError) (s : State) : (decoderError e s).tick = s.tick := rfl
@[simp] theorem decoderError_csr (e : HostError) (s : State) : (decoderError e s).csr = s.csr := rfl
@[simp] theorem decoderError_prevLevel (e : HostError) (s : State) : (decoderError e s).prevLevel = s.prevLevel := rfl
@[simp] theorem decoderError_lastAccept (e : HostError) (s : State) : (decoderError e s).lastAccept = s.lastAccept := rfl
@[simp] theorem decoderError_oc2aMatch (e : HostError) (s : State) : (decoderError e s).oc2aMatch = s.oc2aMatch := rfl
@[simp] theorem decoderError_oc2a (e : HostError) (s : State) : (decoderError e s).oc2a = s.oc2a := rfl
@[simp] theorem decoderError_fw (e : HostError) (s : State) : (decoderError e s).fw = s.fw := rfl
@[simp] theorem decoderError_fwst0 (e : HostError) (s : State) : (decoderError e s).fwst0 = s.fwst0 := rfl
@[simp] theorem decoderError_fwst (e : HostError) (s : State) : (decoderError e s).fwst = s.fwst := rfl
@[simp] theorem decoderError_moment (e : HostError) (s : State) : (decoderError e s).moment = s.moment := rfl
@[simp] theorem decoderError_params (e : HostError) (s : State) : (decoderError e s).params = s.params := rfl
@[simp] theorem decoderError_src (e : HostError) (s : State) : (decoderError e s).src = s.src := rfl
@[simp] theorem decoderError_snk (e : HostError) (s : State) : (decoderError e s).snk = s.snk := rfl
@[simp] theorem decoderError_hostResult (e : HostError) (s : State) : (decoderError e s).hostResult = s.hostResult := rfl
@[simp] theorem decoderError_errors (e : HostError) (s : State) : (decoderError e s).errors = s.errors ++ [e] := rfl
@[simp] theorem decoderError_outcome (e : HostError) (s : State) : (decoderError e s).outcome = s.outcome := rfl
@[simp] theorem decoderError_exitStatus (e : HostError) (s : State) : (decoderError e s).exitStatus = s.exitStatus := rfl
@[simp] theorem decoderError_calls (e : HostError) (s : State) : (decoderError e s).calls = s.calls := rfl
@[simp] theorem decoderError_trace (e : HostError) (s : State) : (decoderError e s).trace = s.trace := rfl
end decoderError

section startRead
@[simp] theorem startRead_tick (s : State) : (startRead s).tick = s.tick := rfl
@[simp] theorem startRead_csr (s : State) : (startRead s).csr = s.csr := rfl
@[simp] theorem startRead_prevLevel (s : State) : (startRead s).prevLevel = s.prevLevel := rfl
@[simp] theorem startRead_lastAccept (s : State) : (startRead s).lastAccept = s.lastAccept := rfl
@[simp] theorem startRead_oc2aMatch (s : State) : (startRead s).oc2aMatch = s.oc2aMatch := rfl
@[simp] theorem startRead_oc2a (s : State) : (startRead s).oc2a = s.oc2a := rfl
@[simp] theorem startRead_fw (s : State) : (startRead s).fw = s.fw := rfl
@[simp] theorem startRead_fwst0 (s : State) : (startRead s).fwst0 = s.fwst0 := rfl
@[simp] theorem startRead_fwst (s : State) : (startRead s).fwst = s.fwst := rfl
@[simp] theorem startRead_moment (s : State) : (startRead s).moment = s.moment := rfl
@[simp] theorem startRead_params (s : State) : (startRead s).params = s.params := rfl
@[simp] theorem startRead_src (s : State) : (startRead s).src = { t0 := s.tick } := rfl
@[simp] theorem startRead_snk (s : State) : (startRead s).snk = s.snk := rfl
@[simp] theorem startRead_hostResult (s : State) : (startRead s).hostResult = s.hostResult := rfl
@[simp] theorem startRead_errors (s : State) : (startRead s).errors = [] := rfl
@[simp] theorem startRead_outcome (s : State) : (startRead s).outcome = none := rfl
@[simp] theorem startRead_exitStatus (s : State) : (startRead s).exitStatus = none := rfl
@[simp] theorem startRead_calls (s : State) : (startRead s).calls = s.calls := rfl
@[simp] theorem startRead_trace (s : State) : (startRead s).trace = s.trace := rfl
end startRead

section finishRead
@[simp] theorem finishRead_tick (ok : Bool) (s : State) : (finishRead ok s).tick = s.tick := rfl
@[simp] theorem finishRead_csr (ok : Bool) (s : State) : (finishRead ok s).csr = s.csr := rfl
@[simp] theorem finishRead_prevLevel (ok : Bool) (s : State) : (finishRead ok s).prevLevel = s.prevLevel := rfl
@[simp] theorem finishRead_lastAccept (ok : Bool) (s : State) : (finishRead ok s).lastAccept = s.lastAccept := rfl
@[simp] theorem finishRead_oc2aMatch (ok : Bool) (s : State) : (finishRead ok s).oc2aMatch = s.oc2aMatch := rfl
@[simp] theorem finishRead_oc2a (ok : Bool) (s : State) : (finishRead ok s).oc2a = s.oc2a := rfl
@[simp] theorem finishRead_fw (ok : Bool) (s : State) : (finishRead ok s).fw = s.fw := rfl
@[simp] theorem finishRead_fwst0 (ok : Bool) (s : State) : (finishRead ok s).fwst0 = s.fwst0 := rfl
@[simp] theorem finishRead_fwst (ok : Bool) (s : State) : (finishRead ok s).fwst = s.fwst := rfl
@[simp] theorem finishRead_moment (ok : Bool) (s : State) : (finishRead ok s).moment = s.moment := rfl
@[simp] theorem finishRead_params (ok : Bool) (s : State) : (finishRead ok s).params = s.params := rfl
@[simp] theorem finishRead_dec (ok : Bool) (s : State) : (finishRead ok s).dec = s.dec := rfl
@[simp] theorem finishRead_src (ok : Bool) (s : State) : (finishRead ok s).src = s.src := rfl
@[simp] theorem finishRead_snk (ok : Bool) (s : State) : (finishRead ok s).snk = s.snk := rfl
@[simp] theorem finishRead_hostResult (ok : Bool) (s : State) : (finishRead ok s).hostResult = s.hostResult := rfl
@[simp] theorem finishRead_errors (ok : Bool) (s : State) : (finishRead ok s).errors = s.errors := rfl
@[simp] theorem finishRead_outcome (ok : Bool) (s : State) : (finishRead ok s).outcome = some ok := rfl
@[simp] theorem finishRead_calls (ok : Bool) (s : State) : (finishRead ok s).calls = s.calls := rfl
@[simp] theorem finishRead_trace (ok : Bool) (s : State) : (finishRead ok s).trace = s.trace := rfl
end finishRead

section startSink
@[simp] theorem startSink_tick (data : List Byte) (s : State) : (startSink data s).tick = s.tick := rfl
@[simp] theorem startSink_csr (data : List Byte) (s : State) : (startSink data s).csr = s.csr := rfl
@[simp] theorem startSink_prevLevel (data : List Byte) (s : State) : (startSink data s).prevLevel = s.prevLevel := rfl
@[simp] theorem startSink_lastAccept (data : List Byte) (s : State) : (startSink data s).lastAccept = s.lastAccept := rfl
@[simp] theorem startSink_oc2aMatch (data : List Byte) (s : State) : (startSink data s).oc2aMatch = s.oc2aMatch := rfl
@[simp] theorem startSink_oc2a (data : List Byte) (s : State) : (startSink data s).oc2a = s.oc2a := rfl
@[simp] theorem startSink_fw (data : List Byte) (s : State) : (startSink data s).fw = s.fw := rfl
@[simp] theorem startSink_fwst0 (data : List Byte) (s : State) : (startSink data s).fwst0 = s.fwst0 := rfl
@[simp] theorem startSink_fwst (data : List Byte) (s : State) : (startSink data s).fwst = s.fwst := rfl
@[simp] theorem startSink_moment (data : List Byte) (s : State) : (startSink data s).moment = s.moment := rfl
@[simp] theorem startSink_params (data : List Byte) (s : State) : (startSink data s).params = s.params := rfl
@[simp] theorem startSink_dec (data : List Byte) (s : State) : (startSink data s).dec = s.dec := rfl
@[simp] theorem startSink_src (data : List Byte) (s : State) : (startSink data s).src = s.src := rfl
@[simp] theorem startSink_hostResult (data : List Byte) (s : State) : (startSink data s).hostResult = s.hostResult := rfl
@[simp] theorem startSink_errors (data : List Byte) (s : State) : (startSink data s).errors = [] := rfl
@[simp] theorem startSink_outcome (data : List Byte) (s : State) : (startSink data s).outcome = none := rfl
@[simp] theorem startSink_exitStatus (data : List Byte) (s : State) : (startSink data s).exitStatus = none := rfl
@[simp] theorem startSink_calls (data : List Byte) (s : State) : (startSink data s).calls = s.calls := rfl
@[simp] theorem startSink_trace (data : List Byte) (s : State) : (startSink data s).trace = s.trace := rfl
end startSink

section finishSink
@[simp] theorem finishSink_tick (ok : Bool) (s : State) : (finishSink ok s).tick = s.tick := rfl
@[simp] theorem finishSink_csr (ok : Bool) (s : State) : (finishSink ok s).csr = s.csr := rfl
@[simp] theorem finishSink_prevLevel (ok : Bool) (s : State) : (finishSink ok s).prevLevel = s.prevLevel := rfl
@[simp] theorem finishSink_lastAccept (ok : Bool) (s : State) : (finishSink ok s).lastAccept = s.lastAccept := rfl
@[simp] theorem finishSink_oc2aMatch (ok : Bool) (s : State) : (finishSink ok s).oc2aMatch = s.oc2aMatch := rfl
@[simp] theorem finishSink_oc2a (ok : Bool) (s : State) : (finishSink ok s).oc2a = s.oc2a := rfl
@[simp] theorem finishSink_fw (ok : Bool) (s : State) : (finishSink ok s).fw = s.fw := rfl
@[simp] theorem finishSink_fwst0 (ok : Bool) (s : State) : (finishSink ok s).fwst0 = s.fwst0 := rfl
@[simp] theorem finishSink_fwst (ok : Bool) (s : State) : (finishSink ok s).fwst = s.fwst := rfl
@[simp] theorem finishSink_moment (ok : Bool) (s : State) : (finishSink ok s).moment = s.moment := rfl
@[simp] theorem finishSink_params (ok : Bool) (s : State) : (finishSink ok s).params = s.params := rfl
@[simp] theorem finishSink_dec (ok : Bool) (s : State) : (finishSink ok s).dec = s.dec := rfl
@[simp] theorem finishSink_src (ok : Bool) (s : State) : (finishSink ok s).src = s.src := rfl
@[simp] theorem finishSink_hostResult (ok : Bool) (s : State) : (finishSink ok s).hostResult = s.hostResult := rfl
@[simp] theorem finishSink_errors (ok : Bool) (s : State) : (finishSink ok s).errors = s.errors := rfl
@[simp] theorem finishSink_outcome (ok : Bool) (s : State) : (finishSink ok s).outcome = some ok := rfl
@[simp] theorem finishSink_calls (ok : Bool) (s : State) : (finishSink ok s).calls = s.calls := rfl
@[simp] theorem finishSink_trace (ok : Bool) (s : State) : (finishSink ok s).trace = s.trace := rfl
end finishSink

section filterLevel
@[simp] theorem filterLevel_tick (s : State) : (filterLevel s).tick = s.tick := rfl
@[simp] theorem filterLevel_csr (s : State) : (filterLevel s).csr = s.csr := rfl
@[simp] theorem filterLevel_prevLevel (s : State) : (filterLevel s).prevLevel = s.prevLevel := rfl
@[simp] theorem filterLevel_lastAccept (s : State) : (filterLevel s).lastAccept = s.lastAccept := rfl
@[simp] theorem filterLevel_oc2aMatch (s : State) : (filterLevel s).oc2aMatch = s.oc2aMatch := rfl
@[simp] theorem filterLevel_oc2a (s : State) : (filterLevel s).oc2a = s.oc2a := rfl
@[simp] theorem filterLevel_fw (s : State) : (filterLevel s).fw = s.fw := rfl
@[simp] theorem filterLevel_fwst0 (s : State) : (filterLevel s).fwst0 = s.fwst0 := rfl
@[simp] theorem filterLevel_fwst (s : State) : (filterLevel s).fwst = s.fwst := rfl
@[simp] theorem filterLevel_moment (s : State) : (filterLevel s).moment = s.moment := rfl
@[simp] theorem filterLevel_params (s : State) : (filterLevel s).params = s.params := rfl
@[simp] theorem filterLevel_dec (s : State) : (filterLevel s).dec = s.dec := rfl
@[simp] theorem filterLevel_src (s : State) : (filterLevel s).src = s.src := rfl
@[simp] theorem filterLevel_hostResult (s : State) : (filterLevel s).hostResult = s.hostResult := rfl
@[simp] theorem filterLevel_errors (s : State) : (filterLevel s).errors = s.errors := rfl
@[simp] theorem filterLevel_outcome (s : State) : (filterLevel s).outcome = s.outcome := rfl
@[simp] theorem filterLevel_exitStatus (s : State) : (filterLevel s).exitStatus = s.exitStatus := rfl
@[simp] theorem filterLevel_calls (s : State) : (filterLevel s).calls = s.calls := rfl
@[simp] theorem filterLevel_trace (s : State) : (filterLevel s).trace = s.trace := rfl
end filterLevel

section withFetchWord
@[simp] theorem withFetchWord_tick (s : State) (nbits w : Nat) : (s.withFetchWord nbits w).tick = s.tick := rfl
@[simp] theorem withFetchWord_csr (s : State) (nbits w : Nat) : (s.withFetchWord nbits w).csr = s.csr := rfl
@[simp] theorem withFetchWord_prevLevel (s : State) (nbits w : Nat) : (s.withFetchWord nbits w).prevLevel = s.prevLevel := rfl
@[simp] theorem withFetchWord_lastAccept (s : State) (nbits w : Nat) : (s.withFetchWord nbits w).lastAccept = s.lastAccept := rfl
@[simp] theorem withFetchWord_oc2aMatch (s : State) (nbits w : Nat) : (s.withFetchWord nbits w).oc2aMatch = s.oc2aMatch := rfl
@[simp] theorem withFetchWord_oc2a (s : State) (nbits w : Nat) : (s.withFetchWord nbits w).oc2a = s.oc2a := rfl
@[simp] theorem withFetchWord_fw (s : State) (nbits w : Nat) : (s.withFetchWord nbits w).fw = s.fw := rfl
@[simp] theorem withFetchWord_fwst0 (s : State) (nbits w : Nat) : (s.withFetchWord nbits w).fwst0 = s.fwst0 := rfl
@[simp] theorem withFetchWord_fwst (s : State) (nbits w : Nat) : (s.withFetchWord nbits w).fwst = s.fwst := rfl
@[simp] theorem withFetchWord_moment (s : State) (nbits w : Nat) : (s.withFetchWord nbits w).moment = momentFor (decodeTableWord nbits w) := rfl
@[simp] theorem withFetchWord_params (s : State) (nbits w : Nat) : (s.withFetchWord nbits w).params = s.params := rfl
@[simp] theorem withFetchWord_dec (s : State) (nbits w : Nat) : (s.withFetchWord nbits w).dec = s.dec := rfl
@[simp] theorem withFetchWord_src (s : State) (nbits w : Nat) : (s.withFetchWord nbits w).src = s.src := rfl
@[simp] theorem withFetchWord_snk (s : State) (nbits w : Nat) : (s.withFetchWord nbits w).snk = s.snk := rfl
@[simp] theorem withFetchWord_hostResult (s : State) (nbits w : Nat) : (s.withFetchWord nbits w).hostResult = s.hostResult := rfl
@[simp] theorem withFetchWord_errors (s : State) (nbits w : Nat) : (s.withFetchWord nbits w).errors = s.errors := rfl
@[simp] theorem withFetchWord_outcome (s : State) (nbits w : Nat) : (s.withFetchWord nbits w).outcome = s.outcome := rfl
@[simp] theorem withFetchWord_exitStatus (s : State) (nbits w : Nat) : (s.withFetchWord nbits w).exitStatus = s.exitStatus := rfl
@[simp] theorem withFetchWord_calls (s : State) (nbits w : Nat) : (s.withFetchWord nbits w).calls = s.calls := rfl
@[simp] theorem withFetchWord_trace (s : State) (nbits w : Nat) : (s.withFetchWord nbits w).trace = .word nbits w :: s.trace := rfl
end withFetchWord

section trackLevel
@[simp] theorem trackLevel_tick (s : State) : (trackLevel s).tick = s.tick := by unfold trackLevel; split <;> rfl
@[simp] theorem trackLevel_csr (s : State) : (trackLevel s).csr = s.csr := by unfold trackLevel; split <;> rfl
@[simp] theorem trackLevel_prevLevel (s : State) : (trackLevel s).prevLevel = s.prevLevel := by unfold trackLevel; split <;> rfl
@[simp] theorem trackLevel_lastAccept (s : State) : (trackLevel s).lastAccept = s.lastAccept := by unfold trackLevel; split <;> rfl
@[simp] theorem trackLevel_oc2aMatch (s : State) : (trackLevel s).oc2aMatch = s.oc2aMatch := by unfold trackLevel; split <;> rfl
@[simp] theorem trackLevel_oc2a (s : State) : (trackLevel s).oc2a = s.oc2a := by unfold trackLevel; split <;> rfl
@[simp] theorem trackLevel_fw (s : State) : (trackLevel s).fw = s.fw := by unfold trackLevel; split <;> rfl
@[simp] theorem trackLevel_fwst0 (s : State) : (trackLevel s).fwst0 = s.fwst0 := by unfold trackLevel; split <;> rfl
@[simp] theorem trackLevel_fwst (s : State) : (trackLevel s).fwst = s.fwst := by unfold trackLevel; split <;> rfl
@[simp] theorem trackLevel_moment (s : State) : (trackLevel s).moment = s.moment := by unfold trackLevel; split <;> rfl
@[simp] theorem trackLevel_params (s : State) : (trackLevel s).params = s.params := by unfold trackLevel; split <;> rfl
@[simp] theorem trackLevel_dec (s : State) : (trackLevel s).dec = s.dec := by unfold trackLevel; split <;> rfl
@[simp] theorem trackLevel_src (s : State) : (trackLevel s).src = s.src := by unfold trackLevel; split <;> rfl
@[simp] theorem trackLevel_hostResult (s : State) : (trackLevel s).hostResult = s.hostResult := by unfold trackLevel; split <;> rfl
@[simp] theorem trackLevel_errors (s : State) : (trackLevel s).errors = s.errors := by unfold trackLevel; split <;> rfl
@[simp] theorem trackLevel_outcome (s : State) : (trackLevel s).outcome = s.outcome := by unfold trackLevel; split <;> rfl
@[simp] theorem trackLevel_exitStatus (s : State) : (trackLevel s).exitStatus = s.exitStatus := by unfold trackLevel; split <;> rfl
@[simp] theorem trackLevel_calls (s : State) : (trackLevel s).calls = s.calls := by unfold trackLevel; split <;> rfl
@[simp] theorem trackLevel_trace (s : State) : (trackLevel s).trace = s.trace := by unfold trackLevel; split <;> rfl
end trackLevel

section setCounter
@[simp] theorem setCounter_ocr0a (c : Csrs) (n : Channel) (v : Nat) : (setCounter c n v).ocr0a = c.ocr0a := by cases n <;> rfl
@[simp] theorem setCounter_ocr0b (c : Csrs) (n : Channel) (v : Nat) : (setCounter c n v).ocr0b = c.ocr0b := by cases n <;> rfl
@[simp] theorem setCounter_ocr1a (c : Csrs) (n : Channel) (v : Nat) : (setCounter c n v).ocr1a = c.ocr1a := by cases n <;> rfl
@[simp] theorem setCounter_ocr1b (c : Csrs) (n : Channel) (v : Nat) : (setCounter c n v).ocr1b = c.ocr1b := by cases n <;> rfl
@[simp] theorem setCounter_icr1 (c : Csrs) (n : Channel) (v : Nat) : (setCounter c n v).icr1 = c.icr1 := by cases n <;> rfl
@[simp] theorem setCounter_ocr2a (c : Csrs) (n : Channel) (v : Nat) : (setCounter c n v).ocr2a = c.ocr2a := by cases n <;> rfl
@[simp] theorem setCounter_ocr2b (c : Csrs) (n : Channel) (v : Nat) : (setCounter c n v).ocr2b = c.ocr2b := by cases n <;> rfl
@[simp] theorem setCounter_tccr0a (c : Csrs) (n : Channel) (v : Nat) : (setCounter c n v).tccr0a = c.tccr0a := by cases n <;> rfl
@[simp] theorem setCounter_tccr0b (c : Csrs) (n : Channel) (v : Nat) : (setCounter c n v).tccr0b = c.tccr0b := by cases n <;> rfl
@[simp] theorem setCounter_timsk0 (c : Csrs) (n : Channel) (v : Nat) : (setCounter c n v).timsk0 = c.timsk0 := by cases n <;> rfl
@[simp] theorem setCounter_tifr0 (c : Csrs) (n : Channel) (v : Nat) : (setCounter c n v).tifr0 = c.tifr0 := by cases n <;> rfl
@[simp] theorem setCounter_tccr1a (c : Csrs) (n : Channel) (v : Nat) : (setCounter c n v).tccr1a = c.tccr1a := by cases n <;> rfl
@[simp] theorem setCounter_tccr1b (c : Csrs) (n : Channel) (v : Nat) : (setCounter c n v).tccr1b = c.tccr1b := by cases n <;> rfl
@[simp] theorem setCounter_tccr1c (c : Csrs) (n : Channel) (v : Nat) : (setCounter c n v).tccr1c = c.tccr1c := by cases n <;> rfl
@[simp] theorem setCounter_timsk1 (c : Csrs) (n : Channel) (v : Nat) : (setCounter c n v).timsk1 = c.timsk1 := by cases n <;> rfl
@[simp] theorem setCounter_tifr1 (c : Csrs) (n : Channel) (v : Nat) : (setCounter c n v).tifr1 = c.tifr1 := by cases n <;> rfl
@[simp] theorem setCounter_tccr2a (c : Csrs) (n : Channel) (v : Nat) : (setCounter c n v).tccr2a = c.tccr2a := by cases n <;> rfl
@[simp] theorem setCounter_tccr2b (c : Csrs) (n : Channel) (v : Nat) : (setCounter c n v).tccr2b = c.tccr2b := by cases n <;> rfl
@[simp] theorem setCounter_timsk2 (c : Csrs) (n : Channel) (v : Nat) : (setCounter c n v).timsk2 = c.timsk2 := by cases n <;> rfl
@[simp] theorem setCounter_tifr2 (c : Csrs) (n : Channel) (v : Nat) : (setCounter c n v).tifr2 = c.tifr2 := by cases n <;> rfl
@[simp] theorem setCounter_busctl (c : Csrs) (n : Channel) (v : Nat) : (setCounter c n v).busctl = c.busctl := by cases n <;> rfl
@[simp] theorem setCounter_busdata (c : Csrs) (n : Channel) (v : Nat) : (setCounter c n v).busdata = c.busdata := by cases n <;> rfl
end setCounter

section setFlag
@[simp] theorem setFlag_tcnt0 (c : Csrs) (src : TimerSource) : (setFlag c src).tcnt0 = c.tcnt0 := by rcases src with ⟨n, e⟩; cases n <;> cases e <;> rfl
@[simp] theorem setFlag_ocr0a (c : Csrs) (src : TimerSource) : (setFlag c src).ocr0a = c.ocr0a := by rcases src with ⟨n, e⟩; cases n <;> cases e <;> rfl
@[simp] theorem setFlag_ocr0b (c : Csrs) (src : TimerSource) : (setFlag c src).ocr0b = c.ocr0b := by rcases src with ⟨n, e⟩; cases n <;> cases e <;> rfl
@[simp] theorem setFlag_tcnt1 (c : Csrs) (src : TimerSource) : (setFlag c src).tcnt1 = c.tcnt1 := by rcases src with ⟨n, e⟩; cases n <;> cases e <;> rfl
@[simp] theorem setFlag_ocr1a (c : Csrs) (src : TimerSource) : (setFlag c src).ocr1a = c.ocr1a := by rcases src with ⟨n, e⟩; cases n <;> cases e <;> rfl
@[simp] theorem setFlag_ocr1b (c : Csrs) (src : TimerSource) : (setFlag c src).ocr1b = c.ocr1b := by rcases src with ⟨n, e⟩; cases n <;> cases e <;> rfl
@[simp] theorem setFlag_icr1 (c : Csrs) (src : TimerSource) : (setFlag c src).icr1 = c.icr1 := by rcases src with ⟨n, e⟩; cases n <;> cases e <;> rfl
@[simp] theorem setFlag_tcnt2 (c : Csrs) (src : TimerSource) : (setFlag c src).tcnt2 = c.tcnt2 := by rcases src with ⟨n, e⟩; cases n <;> cases e <;> rfl
@[simp] theorem setFlag_ocr2a (c : Csrs) (src : TimerSource) : (setFlag c src).ocr2a = c.ocr2a := by rcases src with ⟨n, e⟩; cases n <;> cases e <;> rfl
@[simp] theorem setFlag_ocr2b (c : Csrs) (src : TimerSource) : (setFlag c src).ocr2b = c.ocr2b := by rcases src with ⟨n, e⟩; cases n <;> cases e <;> rfl
@[simp] theorem setFlag_tccr0a (c : Csrs) (src : TimerSource) : (setFlag c src).tccr0a = c.tccr0a := by rcases src with ⟨n, e⟩; cases n <;> cases e <;> rfl
@[simp] theorem setFlag_tccr0b (c : Csrs) (src : TimerSource) : (setFlag c src).tccr0b = c.tccr0b := by rcases src with ⟨n, e⟩; cases n <;> cases e <;> rfl
@[simp] theorem setFlag_timsk0 (c : Csrs) (src : TimerSource) : (setFlag c src).timsk0 = c.timsk0 := by rcases src with ⟨n, e⟩; cases n <;> cases e <;> rfl
@[simp] theorem setFlag_tccr1a (c : Csrs) (src : TimerSource) : (setFlag c src).tccr1a = c.tccr1a := by rcases src with ⟨n, e⟩; cases n <;> cases e <;> rfl
@[simp] theorem setFlag_tccr1b (c : Csrs) (src : TimerSource) : (setFlag c src).tccr1b = c.tccr1b := by rcases src with ⟨n, e⟩; cases n <;> cases e <;> rfl
@[simp] theorem setFlag_tccr1c (c : Csrs) (src : TimerSource) : (setFlag c src).tccr1c = c.tccr1c := by rcases src with ⟨n, e⟩; cases n <;> cases e <;> rfl
@[simp] theorem setFlag_timsk1 (c : Csrs) (src : TimerSource) : (setFlag c src).timsk1 = c.timsk1 := by rcases src with ⟨n, e⟩; cases n <;> cases e <;> rfl
@[simp] theorem setFlag_tccr2a (c : Csrs) (src : TimerSource) : (setFlag c src).tccr2a = c.tccr2a := by rcases src with ⟨n, e⟩; cases n <;> cases e <;> rfl
@[simp] theorem setFlag_tccr2b (c : Csrs) (src : TimerSource) : (setFlag c src).tccr2b = c.tccr2b := by rcases src with ⟨n, e⟩; cases n <;> cases e <;> rfl
@[simp] theorem setFlag_timsk2 (c : Csrs) (src : TimerSource) : (setFlag c src).timsk2 = c.timsk2 := by rcases src with ⟨n, e⟩; cases n <;> cases e <;> rfl
@[simp] theorem setFlag_busctl (c : Csrs) (src : TimerSource) : (setFlag c src).busctl = c.busctl := by rcases src with ⟨n, e⟩; cases n <;> cases e <;> rfl
@[simp] theorem setFlag_busdata (c : Csrs) (src : TimerSource) : (setFlag c src).busdata = c.busdata := by rcases src with ⟨n, e⟩; cases n <;> cases e <;> rfl
end setFlag

section clearFlag
@[simp] theorem clearFlag_tcnt0 (c : Csrs) (src : TimerSource) : (clearFlag c src).tcnt0 = c.tcnt0 := by rcases src with ⟨n, e⟩; cases n <;> cases e <;> rfl
@[simp] theorem clearFlag_ocr0a (c : Csrs) (src : TimerSource) : (clearFlag c src).ocr0a = c.ocr0a := by rcases src with ⟨n, e⟩; cases n <;> cases e <;> rfl
@[simp] theorem clearFlag_ocr0b (c : Csrs) (src : TimerSource) : (clearFlag c src).ocr0b = c.ocr0b := by rcases src with ⟨n, e⟩; cases n <;> cases e <;> rfl
@[simp] theorem clearFlag_tcnt1 (c : Csrs) (src : TimerSource) : (clearFlag c src).tcnt1 = c.tcnt1 := by rcases src with ⟨n, e⟩; cases n <;> cases e <;> rfl
@[simp] theorem clearFlag_ocr1a (c : Csrs) (src : TimerSource) : (clearFlag c src).ocr1a = c.ocr1a := by rcases src with ⟨n, e⟩; cases n <;> cases e <;> rfl
@[simp] theorem clearFlag_ocr1b (c : Csrs) (src : TimerSource) : (clearFlag c src).ocr1b = c.ocr1b := by rcases src with ⟨n, e⟩; cases n <;> cases e <;> rfl
@[simp] theorem clearFlag_icr1 (c : Csrs) (src : TimerSource) : (clearFlag c src).icr1 = c.icr1 := by rcases src with ⟨n, e⟩; cases n <;> cases e <;> rfl
@[simp] theorem clearFlag_tcnt2 (c : Csrs) (src : TimerSource) : (clearFlag c src).tcnt2 = c.tcnt2 := by rcases src with ⟨n, e⟩; cases n <;> cases e <;> rfl
@[simp] theorem clearFlag_ocr2a (c : Csrs) (src : TimerSource) : (clearFlag c src).ocr2a = c.ocr2a := by rcases src with ⟨n, e⟩; cases n <;> cases e <;> rfl
@[simp] theorem clearFlag_ocr2b (c : Csrs) (src : TimerSource) : (clearFlag c src).ocr2b = c.ocr2b := by rcases src with ⟨n, e⟩; cases n <;> cases e <;> rfl
@[simp] theorem clearFlag_tccr0a (c : Csrs) (src : TimerSource) : (clearFlag c src).tccr0a = c.tccr0a := by rcases src with ⟨n, e⟩; cases n <;> cases e <;> rfl
@[simp] theorem clearFlag_tccr0b (c : Csrs) (src : TimerSource) : (clearFlag c src).tccr0b = c.tccr0b := by rcases src with ⟨n, e⟩; cases n <;> cases e <;> rfl
@[simp] theorem clearFlag_timsk0 (c : Csrs) (src : TimerSource) : (clearFlag c src).timsk0 = c.timsk0 := by rcases src with ⟨n, e⟩; cases n <;> cases e <;> rfl
@[simp] theorem clearFlag_tccr1a (c : Csrs) (src : TimerSource) : (clearFlag c src).tccr1a = c.tccr1a := by rcases src with ⟨n, e⟩; cases n <;> cases e <;> rfl
@[simp] theorem clearFlag_tccr1b (c : Csrs) (src : TimerSource) : (clearFlag c src).tccr1b = c.tccr1b := by rcases src with ⟨n, e⟩; cases n <;> cases e <;> rfl
@[simp] theorem clearFlag_tccr1c (c : Csrs) (src : TimerSource) : (clearFlag c src).tccr1c = c.tccr1c := by rcases src with ⟨n, e⟩; cases n <;> cases e <;> rfl
@[simp] theorem clearFlag_timsk1 (c : Csrs) (src : TimerSource) : (clearFlag c src).timsk1 = c.timsk1 := by rcases src with ⟨n, e⟩; cases n <;> cases e <;> rfl
@[simp] theorem clearFlag_tccr2a (c : Csrs) (src : TimerSource) : (clearFlag c src).tccr2a = c.tccr2a := by rcases src with ⟨n, e⟩; cases n <;> cases e <;> rfl
@[simp] theorem clearFlag_tccr2b (c : Csrs) (src : TimerSource) : (clearFlag c src).tccr2b = c.tccr2b := by rcases src with ⟨n, e⟩; cases n <;> cases e <;> rfl
@[simp] theorem clearFlag_timsk2 (c : Csrs) (src : TimerSource) : (clearFlag c src).timsk2 = c.timsk2 := by rcases src with ⟨n, e⟩; cases n <;> cases e <;> rfl
@[simp] theorem clearFlag_busctl (c : Csrs) (src : TimerSource) : (clearFlag c src).busctl = c.busctl := by rcases src with ⟨n, e⟩; cases n <;> cases e <;> rfl
@[simp] theorem clearFlag_busdata (c : Csrs) (src : TimerSource) : (clearFlag c src).busdata = c.busdata := by rcases src with ⟨n, e⟩; cases n <;> cases e <;> rfl
end clearFlag

end Sys2Proof.Machine
end

