-- ==== Sys2Proof/Laws/Ops.lean ====
section
/-! SUPPORT. Laws/Ops.lean: for each shared operation of Machine/Ops.lean one lemma that says once what it can do, and
when it completes. The provers cite these instead of unfolding the operations. -/

namespace Sys2Proof.Machine

/-! ### Outcomes in sequence -/

@[simp] theorem andThen_next (s : State) (k : State → Result) : andThen (.next s) k = k s := rfl
@[simp] theorem andThen_refused (r : Refusal) (k : State → Result) : andThen (.refused r) k = .refused r := rfl

theorem andThen_eq_next {o : Result} {k : State → Result} {t : State} :
    andThen o k = .next t ↔ ∃ s, o = .next s ∧ k s = .next t := by
  cases o with
  | next s => simp
  | fault r => exact nomatch r
  | refused r => simp

theorem andThen_assoc (o : Result) (f g : State → Result) :
    andThen (andThen o f) g = andThen o fun s => andThen (f s) g := by
  cases o <;> rfl

@[simp] theorem whenDo_true (f : State → Result) (s : State) : whenDo true f s = f s := rfl
@[simp] theorem whenDo_false (f : State → Result) (s : State) : whenDo false f s = .next s := rfl

@[simp] theorem iterate_zero (f : State → Result) (s : State) : iterate f 0 s = .next s := rfl
theorem iterate_succ (f : State → Result) (n : Nat) (s : State) :
    iterate f (n + 1) s = andThen (f s) (iterate f n) := rfl

/-- A relation that every performance of `f` keeps, and that is reflexive and transitive, holds over a repetition. -/
theorem iterate_rel {f : State → Result} {R : State → State → Prop} (refl : ∀ s, R s s)
    (trans : ∀ {a b c}, R a b → R b c → R a c) (h : ∀ s t, f s = .next t → R s t) :
    ∀ {n s t}, iterate f n s = .next t → R s t
  | 0, s, t, e => by cases e; exact refl s
  | n + 1, s, t, e => by
    obtain ⟨u, e1, e2⟩ := andThen_eq_next.mp e
    exact trans (h _ _ e1) (iterate_rel refl trans h e2)

/-- A repetition completes where each performance completes and keeps a condition under which it completes. -/
theorem iterate_total {f : State → Result} {P : State → Prop} (h : ∀ s, P s → ∃ t, f s = .next t ∧ P t) :
    ∀ n s, P s → ∃ t, iterate f n s = .next t ∧ P t
  | 0, s, hs => ⟨s, rfl, hs⟩
  | n + 1, s, hs => by
    obtain ⟨u, e1, hu⟩ := h s hs
    obtain ⟨t, e2, ht⟩ := iterate_total h n u hu
    exact ⟨t, by rw [iterate_succ, e1, andThen_next, e2], ht⟩

/-! ### Who may perform what -/

theorem betweenOperations_between {s : State} (h : s.moment = .between) (k : State → Result) :
    betweenOperations s k = k s := by
  simp [betweenOperations, h]
theorem insideStep_step {s : State} (h : s.moment = .step) (k : State → Result) : insideStep s k = k s := by
  simp [insideStep, h]
theorem insideCallback_callback {s : State} {c : Callback} (h : s.moment = .callback c) (k : State → Result) :
    insideCallback s k = k s := by
  simp [insideCallback, h]

theorem betweenOperations_eq_next {s t : State} {k : State → Result} :
    betweenOperations s k = .next t ↔ s.moment = .between ∧ k s = .next t := by
  cases h : s.moment <;> simp [betweenOperations, h]
theorem insideStep_eq_next {s t : State} {k : State → Result} :
    insideStep s k = .next t ↔ s.moment = .step ∧ k s = .next t := by
  cases h : s.moment <;> simp [insideStep, h]
theorem insideCallback_eq_next {s t : State} {k : State → Result} :
    insideCallback s k = .next t ↔ (∃ c, s.moment = .callback c) ∧ k s = .next t := by
  cases h : s.moment <;> simp [insideCallback, h]

/-! ### The registers -/

/-- Storing a byte in a cell other than `BUSCTL` leaves `BUSCTL`. -/
theorem cellWrite_busctl {cell : CsrCell} (h : cell ≠ .busctl) (c : Csrs) (v : Byte) :
    (cellWrite c cell v).busctl = c.busctl := by
  cases cell <;> first | rfl | exact absurd rfl h

@[simp] theorem write16_busctl (c : Csrs) (r : Csr16) (v : Word16) : (write16 c r v).busctl = c.busctl := by
  cases r <;> rfl

theorem fieldWrite_busctl {f : CsrField} (h : f.pos.cell ≠ .busctl) (c : Csrs) (v : Byte) :
    (fieldWrite c f v).busctl = c.busctl := cellWrite_busctl h _ _

theorem csrRead8_eq_next {a : Byte} {s t : State} :
    csrRead8 a s = .next t ↔ ∃ cell, csrAt a = some cell ∧
      t = { s with fwst := { s.fwst with lastRead := (cellRead s.csr cell).setWidth 16 } } := by
  unfold csrRead8; cases h : csrAt a <;> simp [eq_comm]

theorem csrRead16_eq_next {a : Byte} {s t : State} :
    csrRead16 a s = .next t ↔ ∃ r, csr16At a = some r ∧
      t = { s with fwst := { s.fwst with lastRead := read16 s.csr r } } := by
  unfold csrRead16; cases h : csr16At a <;> simp [eq_comm]

theorem csrWrite8_eq_next {a v : Byte} {s t : State} :
    csrWrite8 a v s = .next t ↔ ∃ cell, csrAt a = some cell ∧ cell ≠ .busctl ∧
      t = { s with csr := cellWrite s.csr cell v } := by
  unfold csrWrite8
  cases h : csrAt a with
  | none => simp
  | some cell => cases cell <;> simp [eq_comm]

theorem csrWrite16_eq_next {a : Byte} {v : Word16} {s t : State} :
    csrWrite16 a v s = .next t ↔ ∃ r, csr16At a = some r ∧ t = { s with csr := write16 s.csr r v } := by
  unfold csrWrite16; cases h : csr16At a <;> simp [eq_comm]

/-- The map of R81 read backwards: a cell stands at its own address. -/
@[simp] theorem csrAt_address (cell : CsrCell) : csrAt cell.address = some cell := by cases cell <;> rfl

theorem setFieldRegister_eq_next {f : CsrField} {v : Nat} {s t : State} :
    setFieldRegister f v s = .next t ↔ f.pos.cell ≠ .busctl ∧
      t = { s with
        csr := fieldWrite s.csr f (setValue f v)
        fwst := { s.fwst with lastRead := (cellRead s.csr f.pos.cell).setWidth 16 } } := by
  simp only [setFieldRegister, andThen_eq_next, csrRead8_eq_next, csrWrite8_eq_next, csrAt_address, Option.some.injEq]
  constructor
  · rintro ⟨u, ⟨c, rfl, rfl⟩, d, rfl, hd, rfl⟩
    exact ⟨hd, by simp [fieldWrite]⟩
  · rintro ⟨hd, rfl⟩
    exact ⟨_, ⟨_, rfl, rfl⟩, _, rfl, hd, by simp [fieldWrite]⟩

/-! ### The firmware -/

/-- What the firmware can change (spec/00_scope.md R7, spec/10_state.md R56): the CSRs but not `BUSCTL`, and its own
private state. -/
structure FirmwareEffect (s t : State) : Prop where
  same : t = { s with csr := t.csr, fwst := t.fwst }
  busctl : t.csr.busctl = s.csr.busctl

theorem FirmwareEffect.refl (s : State) : FirmwareEffect s s := ⟨rfl, rfl⟩
theorem FirmwareEffect.trans {a b c : State} (h : FirmwareEffect a b) (k : FirmwareEffect b c) : FirmwareEffect a c :=
  ⟨by rw [k.same, h.same], k.busctl.trans h.busctl⟩

/-- What a stub can do when it completes. -/
theorem runStub_effect : ∀ {p : FwStmt} {s t : State}, runStub p s = .next t → FirmwareEffect s t := by
  intro p
  induction p with
  | skip => intro s t h; cases h; exact .refl _
  | seq a b iha ihb =>
    intro s t h
    obtain ⟨u, h1, h2⟩ := andThen_eq_next.mp h
    exact (iha h1).trans (ihb h2)
  | assign x e => intro s t h; cases h; exact ⟨rfl, rfl⟩
  | append e => intro s t h; cases h; exact ⟨rfl, rfl⟩
  | csrr a => intro s t h; obtain ⟨c, -, rfl⟩ := csrRead8_eq_next.mp h; exact ⟨rfl, rfl⟩
  | csrw a e =>
    intro s t h
    obtain ⟨c, -, hc, rfl⟩ := csrWrite8_eq_next.mp h
    exact ⟨rfl, cellWrite_busctl hc _ _⟩
  | csrr16 a => intro s t h; obtain ⟨c, -, rfl⟩ := csrRead16_eq_next.mp h; exact ⟨rfl, rfl⟩
  | csrw16 a e => intro s t h; obtain ⟨c, -, rfl⟩ := csrWrite16_eq_next.mp h; exact ⟨rfl, write16_busctl _ _ _⟩
  | set f e =>
    intro s t h
    obtain ⟨hf, rfl⟩ := setFieldRegister_eq_next.mp h
    exact ⟨rfl, fieldWrite_busctl hf _ _⟩
  | ite c a b iha ihb =>
    intro s t h
    simp only [runStub] at h
    split at h
    · exact iha h
    · exact ihb h
  | times e a ih =>
    intro s t h
    exact iterate_rel (R := FirmwareEffect) FirmwareEffect.refl FirmwareEffect.trans (fun _ _ e => ih e) h
  | host op => intro s t h; cases h

/-- A legal stub completes. -/
theorem runStub_total : ∀ {p : FwStmt}, p.legal = true → ∀ s, ∃ t, runStub p s = .next t := by
  intro p
  induction p with
  | skip => intro _ s; exact ⟨s, rfl⟩
  | seq a b iha ihb =>
    intro h s
    simp only [FwStmt.legal, Bool.and_eq_true] at h
    obtain ⟨u, h1⟩ := iha h.1 s
    obtain ⟨t, h2⟩ := ihb h.2 u
    exact ⟨t, by simp [runStub, h1, h2]⟩
  | assign x e => intro _ s; exact ⟨_, rfl⟩
  | append e => intro _ s; exact ⟨_, rfl⟩
  | csrr a =>
    intro h s
    obtain ⟨c, hc⟩ := Option.isSome_iff_exists.mp h
    exact ⟨_, csrRead8_eq_next.mpr ⟨c, hc, rfl⟩⟩
  | csrw a e =>
    intro h s
    simp only [FwStmt.legal, Bool.and_eq_true, bne_iff_ne] at h
    obtain ⟨c, hc⟩ := Option.isSome_iff_exists.mp h.1
    exact ⟨_, csrWrite8_eq_next.mpr ⟨c, hc, fun e => h.2 (e ▸ hc), rfl⟩⟩
  | csrr16 a =>
    intro h s
    obtain ⟨c, hc⟩ := Option.isSome_iff_exists.mp h
    exact ⟨_, csrRead16_eq_next.mpr ⟨c, hc, rfl⟩⟩
  | csrw16 a e =>
    intro h s
    obtain ⟨c, hc⟩ := Option.isSome_iff_exists.mp h
    exact ⟨_, csrWrite16_eq_next.mpr ⟨c, hc, rfl⟩⟩
  | set f e =>
    intro h s
    exact ⟨_, setFieldRegister_eq_next.mpr ⟨by simpa [FwStmt.legal] using h, rfl⟩⟩
  | ite c a b iha ihb =>
    intro h s
    simp only [FwStmt.legal, Bool.and_eq_true] at h
    simp only [runStub]
    split
    · exact iha h.1 s
    · exact ihb h.2 s
  | times e a ih =>
    intro h s
    obtain ⟨t, ht, -⟩ := iterate_total (P := fun _ => True) (fun s _ => (ih h s).imp fun t e => ⟨e, trivial⟩)
      (FwExp.eval s e) s trivial
    exact ⟨t, ht⟩
  | host op => intro h; cases h

/-- A passive stub writes no register. -/
theorem runStub_passive_csr :
    ∀ {p : FwStmt}, p.passive = true → ∀ {s t : State}, runStub p s = .next t → t.csr = s.csr := by
  intro p
  induction p with
  | skip => intro _ s t h; cases h; rfl
  | seq a b iha ihb =>
    intro hp s t h
    simp only [FwStmt.passive, Bool.and_eq_true] at hp
    obtain ⟨u, h1, h2⟩ := andThen_eq_next.mp h
    exact (ihb hp.2 h2).trans (iha hp.1 h1)
  | assign x e => intro _ s t h; cases h; rfl
  | append e => intro _ s t h; cases h; rfl
  | csrr a => intro _ s t h; obtain ⟨c, -, rfl⟩ := csrRead8_eq_next.mp h; rfl
  | csrr16 a => intro _ s t h; obtain ⟨c, -, rfl⟩ := csrRead16_eq_next.mp h; rfl
  | csrw a e => intro hp; cases hp
  | csrw16 a e => intro hp; cases hp
  | set f e => intro hp; cases hp
  | host op => intro hp; cases hp
  | ite c a b iha ihb =>
    intro hp s t h
    simp only [FwStmt.passive, Bool.and_eq_true] at hp
    simp only [runStub] at h
    split at h
    · exact iha hp.1 h
    · exact ihb hp.2 h
  | times e a ih =>
    intro hp s t h
    exact iterate_rel (R := fun s t => t.csr = s.csr) (fun _ => rfl) (fun h k => k.trans h) (fun _ _ e => ih hp e) h

/-- A passive stub is legal. -/
theorem FwStmt_passive_legal : ∀ {p : FwStmt}, p.passive = true → p.legal = true := by
  intro p
  induction p with
  | seq a b iha ihb =>
    simp only [FwStmt.passive, FwStmt.legal, Bool.and_eq_true]
    exact fun h => ⟨iha h.1, ihb h.2⟩
  | ite c a b iha ihb =>
    simp only [FwStmt.passive, FwStmt.legal, Bool.and_eq_true]
    exact fun h => ⟨iha h.1, ihb h.2⟩
  | times e a ih => exact fun h => ih h
  | _ => simp [FwStmt.passive, FwStmt.legal]

/-- The stubs of a legal firmware are legal. -/
theorem stubOf_legal {fw : Firmware} (h : fw.legal = true) (c : Callback) : (stubOf fw c).legal = true := by
  simp only [Firmware.legal, Bool.and_eq_true] at h
  cases c with
  | timer src => obtain ⟨n, e⟩ := src; cases n <;> cases e <;> simp [stubOf, h]
  | _ => simp [stubOf, h]

/-- The stubs of a passive firmware, but for `setup`, are passive. -/
theorem stubOf_passive {fw : Firmware} (h : fw.passive = true) {c : Callback} (hc : c ≠ .setup) :
    (stubOf fw c).passive = true := by
  simp only [Firmware.passive, Bool.and_eq_true] at h
  cases c with
  | timer src => obtain ⟨n, e⟩ := src; cases n <;> cases e <;> simp [stubOf, h]
  | setup => exact absurd rfl hc
  | _ => simp [stubOf, h]

/-- What a call can do when it completes (R358, R360): the firmware's effect, and one more call recorded. -/
theorem call_eq_next {c : Callback} {s t : State} (h : call c s = .next t) :
    t = { s with csr := t.csr, fwst := t.fwst, calls := s.calls ++ [⟨c, s.tick⟩] } ∧
      t.csr.busctl = s.csr.busctl := by
  obtain ⟨u, h1, h2⟩ := andThen_eq_next.mp h
  cases h2
  have e := runStub_effect h1
  exact ⟨by rw [e.same]; rfl, e.busctl⟩

/-- After a call there is under way what was before it. -/
theorem call_moment {c : Callback} {s t : State} (h : call c s = .next t) : t.moment = s.moment := by
  rw [(call_eq_next h).1]

/-- A call of a legal callback completes. -/
theorem call_total {c : Callback} {s : State} (h : (stubOf s.fw c).legal = true) : ∃ t, call c s = .next t := by
  obtain ⟨u, hu⟩ := runStub_total h (enterCallback c s)
  exact ⟨_, by rw [call, hu]; rfl⟩

/-- A call of a passive callback writes no register. -/
theorem call_passive_csr {c : Callback} {s t : State} (h : call c s = .next t)
    (hp : (stubOf s.fw c).passive = true) : t.csr = s.csr := by
  obtain ⟨u, h1, h2⟩ := andThen_eq_next.mp h
  cases h2
  simpa using runStub_passive_csr hp h1

/-- A call of a callback that the firmware does not supply (R7). -/
theorem call_skip {c : Callback} {s : State} (h : stubOf s.fw c = .skip) :
    call c s = .next { s with calls := s.calls ++ [⟨c, s.tick⟩] } := by
  rw [call, h]; rfl

/-- What `DISPATCH` can do (R175). -/
theorem dispatchSource_eq_next {src : TimerSource} {s t : State} :
    dispatchSource src s = .next t ↔
      (enabled s.csr src = true ∧ ∃ u, call (.timer src) s = .next u ∧ t = { u with csr := clearFlag u.csr src }) ∨
      (enabled s.csr src = false ∧ t = s) := by
  unfold dispatchSource
  cases h : enabled s.csr src with
  | true => simp [andThen_eq_next, eq_comm (b := t)]
  | false => simp [eq_comm]

/-! ### What a stub depends on -/

/-- The registers, the firmware's state and the tick: all that a stub reads (R9, R51). -/
def Agree (a b : State) : Prop := a.csr = b.csr ∧ a.fwst = b.fwst ∧ a.tick = b.tick

theorem eval_agree {a b : State} (h : Agree a b) : ∀ e : FwExp, FwExp.eval a e = FwExp.eval b e := by
  intro e
  induction e with
  | lit n => rfl
  | var x => simp [FwExp.eval, h.2.1]
  | lastRead => simp [FwExp.eval, h.2.1]
  | tick => simp [FwExp.eval, h.2.2]
  | bin op x y ix iy => simp [FwExp.eval, ix, iy]

/-- A stub does the same on states that agree. -/
theorem runStub_agree : ∀ {p : FwStmt} {a b c : State}, Agree a b → runStub p a = .next c →
    ∃ d, runStub p b = .next d ∧ Agree c d := by
  intro p
  induction p with
  | skip => intro a b c h e; cases e; exact ⟨b, rfl, h⟩
  | seq x y ix iy =>
    intro a b c h e
    obtain ⟨u, h1, h2⟩ := andThen_eq_next.mp e
    obtain ⟨v, h3, h4⟩ := ix h h1
    obtain ⟨w, h5, h6⟩ := iy h4 h2
    exact ⟨w, by simp [runStub, h3, h5], h6⟩
  | assign x e => intro a b c h k; cases k; exact ⟨_, rfl, h.1, by simp [eval_agree h, h.2.1], h.2.2⟩
  | append e => intro a b c h k; cases k; exact ⟨_, rfl, h.1, by simp [eval_agree h, h.2.1], h.2.2⟩
  | csrr x =>
    intro a b c h k
    obtain ⟨cell, hc, rfl⟩ := csrRead8_eq_next.mp k
    exact ⟨_, csrRead8_eq_next.mpr ⟨cell, hc, rfl⟩, h.1, by simp [h.1, h.2.1], h.2.2⟩
  | csrw x e =>
    intro a b c h k
    obtain ⟨cell, hc, hb, rfl⟩ := csrWrite8_eq_next.mp k
    exact ⟨_, csrWrite8_eq_next.mpr ⟨cell, hc, hb, rfl⟩, by simp [h.1, eval_agree h], h.2.1, h.2.2⟩
  | csrr16 x =>
    intro a b c h k
    obtain ⟨cell, hc, rfl⟩ := csrRead16_eq_next.mp k
    exact ⟨_, csrRead16_eq_next.mpr ⟨cell, hc, rfl⟩, h.1, by simp [h.1, h.2.1], h.2.2⟩
  | csrw16 x e =>
    intro a b c h k
    obtain ⟨cell, hc, rfl⟩ := csrWrite16_eq_next.mp k
    exact ⟨_, csrWrite16_eq_next.mpr ⟨cell, hc, rfl⟩, by simp [h.1, eval_agree h], h.2.1, h.2.2⟩
  | set f e =>
    intro a b c h k
    obtain ⟨hc, rfl⟩ := setFieldRegister_eq_next.mp k
    exact ⟨_, setFieldRegister_eq_next.mpr ⟨hc, rfl⟩, by simp [h.1, eval_agree h], by simp [h.1, h.2.1], h.2.2⟩
  | ite x y z iy iz =>
    intro a b c h k
    simp only [runStub, eval_agree h] at k ⊢
    split at k
    · rename_i hx; rw [if_pos hx]; exact iy h k
    · rename_i hx; rw [if_neg hx]; exact iz h k
  | times e x ix =>
    intro a b c h k
    simp only [runStub, eval_agree h] at k ⊢
    generalize FwExp.eval b e = n at k
    induction n generalizing a b with
    | zero => cases k; exact ⟨b, rfl, h⟩
    | succ n ih =>
      obtain ⟨u, h1, h2⟩ := andThen_eq_next.mp k
      obtain ⟨v, h3, h4⟩ := ix h h1
      obtain ⟨w, h5, h6⟩ := ih h4 h2
      exact ⟨w, by rw [iterate_succ, h3]; exact h5, h6⟩
  | host op => intro a b c h k; cases k

end Sys2Proof.Machine
end

