-- ==== Sys2Proof/Laws/Cells.lean ====
section
/-! SUPPORT. Laws/Cells.lean: reading the registers after a write. Bytes of the CSR space, 16-bit CSRs, named fields:
what was written is read back, and everything else is left (spec/20_memory.md R84 to R88, spec/44_csr_bus.md R245). -/

namespace Sys2Proof

/-! ### Bit fields of a byte -/

theorem getLsbD_fieldMask (lo width i : Nat) :
    (fieldMask lo width).getLsbD i = (decide (i < 8) && decide (lo ≤ i) && decide (i < lo + width)) := by
  unfold fieldMask
  rw [BitVec.getLsbD_ofNat, Nat.testBit_mul_two_pow, Nat.testBit_two_pow_sub_one]
  by_cases h1 : i < 8 <;> by_cases h2 : lo ≤ i <;> simp [h1, h2]
  omega

theorem getLsbD_replaceField (lo width : Nat) (v x : Byte) (i : Nat) :
    (replaceField lo width v x).getLsbD i =
      (decide (i < 8) && if lo ≤ i ∧ i < lo + width then v.getLsbD (i - lo) else x.getLsbD i) := by
  unfold replaceField
  simp only [BitVec.getLsbD_or, BitVec.getLsbD_and, BitVec.getLsbD_not, BitVec.getLsbD_shiftLeft, getLsbD_fieldMask]
  by_cases h1 : i < 8 <;> by_cases h2 : lo ≤ i <;> by_cases h3 : i < lo + width <;> simp [h1, h2, h3]

theorem getLsbD_extractField (lo width : Nat) (x : Byte) (i : Nat) :
    (extractField lo width x).getLsbD i = (decide (i < width) && x.getLsbD (lo + i)) := by
  unfold extractField
  simp only [BitVec.getLsbD_and, BitVec.getLsbD_ushiftRight, getLsbD_fieldMask]
  by_cases h1 : i < 8 <;> by_cases h3 : i < width <;> simp [h1, h3]
  exact BitVec.getLsbD_of_ge _ _ (by omega)

/-- A field reads as it was written. -/
theorem extractField_replaceField {lo width : Nat} (v x : Byte) (h : lo + width ≤ 8) :
    extractField lo width (replaceField lo width v x) = v &&& fieldMask 0 width := by
  apply BitVec.eq_of_getLsbD_eq
  intro i hi
  rw [getLsbD_extractField, getLsbD_replaceField, BitVec.getLsbD_and, getLsbD_fieldMask]
  by_cases h3 : i < width
  · simp [hi, h3, show lo + i < 8 by omega]
  · simp [h3]

/-- A disjoint field of the same register is left. -/
theorem extractField_replaceField_disjoint {lo width lo' width' : Nat} (v x : Byte)
    (h : lo' + width' ≤ lo ∨ lo + width ≤ lo') :
    extractField lo' width' (replaceField lo width v x) = extractField lo' width' x := by
  apply BitVec.eq_of_getLsbD_eq
  intro i hi
  rw [getLsbD_extractField, getLsbD_extractField, getLsbD_replaceField]
  by_cases h3 : i < width'
  · rw [if_neg (by omega)]
    by_cases h4 : lo' + i < 8
    · simp [h4]
    · simp [h4, BitVec.getLsbD_of_ge x _ (show 8 ≤ lo' + i by omega)]
  · simp [h3]

/-- The bits outside the field are left. -/
theorem replaceField_outside (lo width : Nat) (v x : Byte) :
    replaceField lo width v x &&& ~~~ fieldMask lo width = x &&& ~~~ fieldMask lo width := by
  apply BitVec.eq_of_getLsbD_eq
  intro i hi
  rw [BitVec.getLsbD_and, BitVec.getLsbD_and, getLsbD_replaceField]
  by_cases h : lo ≤ i ∧ i < lo + width
  · have hm : (~~~ fieldMask lo width).getLsbD i = false := by
      rw [BitVec.getLsbD_not, getLsbD_fieldMask]; simp [hi, h.1, h.2]
    rw [hm, Bool.and_false, Bool.and_false]
  · rw [if_neg h]; simp [hi]

/-- Writing the value a field already has changes nothing. -/
theorem replaceField_extractField {lo width : Nat} (x : Byte) :
    replaceField lo width (extractField lo width x) x = x := by
  apply BitVec.eq_of_getLsbD_eq
  intro i hi
  rw [getLsbD_replaceField, getLsbD_extractField]
  by_cases h : lo ≤ i ∧ i < lo + width
  · rw [if_pos h, show lo + (i - lo) = i by omega]; simp [hi, show i - lo < width by omega]
  · rw [if_neg h]; simp [hi]

/-- The field that owns a bit of a register (R111). -/
def bitOwner (cell : CsrCell) (i : Nat) : Option CsrField :=
  match cell, i with
  | .tccr0a, 7 | .tccr0a, 6 => some .com0a | .tccr0a, 5 | .tccr0a, 4 => some .com0b
  | .tccr0a, 1 | .tccr0a, 0 => some .wgm0Low
  | .tccr0b, 7 => some .foc0a | .tccr0b, 6 => some .foc0b | .tccr0b, 3 => some .wgm0High
  | .tccr0b, 2 | .tccr0b, 1 | .tccr0b, 0 => some .cs0
  | .timsk0, 2 => some .ocie0b | .timsk0, 1 => some .ocie0a | .timsk0, 0 => some .toie0
  | .tifr0, 2 => some .ocf0b | .tifr0, 1 => some .ocf0a | .tifr0, 0 => some .tov0
  | .tccr1a, 7 | .tccr1a, 6 => some .com1a | .tccr1a, 5 | .tccr1a, 4 => some .com1b
  | .tccr1a, 1 | .tccr1a, 0 => some .wgm1Low
  | .tccr1b, 7 => some .icnc1 | .tccr1b, 6 => some .ices1
  | .tccr1b, 4 | .tccr1b, 3 => some .wgm1High | .tccr1b, 2 | .tccr1b, 1 | .tccr1b, 0 => some .cs1
  | .tccr1c, 7 => some .foc1a | .tccr1c, 6 => some .foc1b
  | .timsk1, 5 => some .icie1 | .timsk1, 2 => some .ocie1b | .timsk1, 1 => some .ocie1a | .timsk1, 0 => some .toie1
  | .tifr1, 5 => some .icf1 | .tifr1, 2 => some .ocf1b | .tifr1, 1 => some .ocf1a | .tifr1, 0 => some .tov1
  | .tccr2a, 7 | .tccr2a, 6 => some .com2a | .tccr2a, 5 | .tccr2a, 4 => some .com2b
  | .tccr2a, 1 | .tccr2a, 0 => some .wgm2Low
  | .tccr2b, 7 => some .foc2a | .tccr2b, 6 => some .foc2b | .tccr2b, 3 => some .wgm2High
  | .tccr2b, 2 | .tccr2b, 1 | .tccr2b, 0 => some .cs2
  | .timsk2, 2 => some .ocie2b | .timsk2, 1 => some .ocie2a | .timsk2, 0 => some .toie2
  | .tifr2, 2 => some .ocf2b | .tifr2, 1 => some .ocf2a | .tifr2, 0 => some .tov2
  | .busctl, 2 => some .wrs | .busctl, 1 => some .rds | .busctl, 0 => some .addr
  | .busdata, 7 | .busdata, 6 | .busdata, 5 | .busdata, 4 | .busdata, 3 | .busdata, 2 | .busdata, 1 | .busdata, 0 =>
    some .busData
  | _, _ => none

theorem bitOwner_of_mem (f : CsrField) :
    ∀ i, i < f.pos.width → bitOwner f.pos.cell (f.pos.lo + i) = some f := by
  cases f <;> decide

theorem CsrField_fits (f : CsrField) : f.pos.lo + f.pos.width ≤ 8 := by cases f <;> decide
theorem CsrField_width_pos (f : CsrField) : 0 < f.pos.width := by cases f <;> decide

/-- Two fields of one register have no bit in common. -/
theorem CsrField_disjoint {f g : CsrField} (h : f ≠ g) (hc : f.pos.cell = g.pos.cell) :
    g.pos.lo + g.pos.width ≤ f.pos.lo ∨ f.pos.lo + f.pos.width ≤ g.pos.lo := by
  by_contra hn
  push Not at hn
  rcases le_total f.pos.lo g.pos.lo with hl | hl
  · have h1 := bitOwner_of_mem f (g.pos.lo - f.pos.lo) (by omega)
    have h2 := bitOwner_of_mem g 0 (CsrField_width_pos g)
    rw [show f.pos.lo + (g.pos.lo - f.pos.lo) = g.pos.lo + 0 by omega, hc, h2] at h1
    exact h (Option.some.inj h1).symm
  · have h1 := bitOwner_of_mem g (f.pos.lo - g.pos.lo) (by omega)
    have h2 := bitOwner_of_mem f 0 (CsrField_width_pos f)
    rw [show g.pos.lo + (f.pos.lo - g.pos.lo) = f.pos.lo + 0 by omega, ← hc, h2] at h1
    exact h (Option.some.inj h1)

namespace Machine

/-! ### Bytes and 16-bit CSRs -/

theorem getLsbD_append_bytes (h l : Byte) (i : Nat) :
    BitVec.getLsbD (h ++ l : Word16) i = if i < 8 then l.getLsbD i else h.getLsbD (i - 8) := by
  exact BitVec.getLsbD_append

@[simp] theorem lowByte_append (h l : Byte) : lowByte (h ++ l) = l := by
  apply BitVec.eq_of_getLsbD_eq; intro i hi
  rw [lowByte, BitVec.getLsbD_extractLsb', getLsbD_append_bytes]; simp [hi]
@[simp] theorem highByte_append (h l : Byte) : highByte (h ++ l) = h := by
  apply BitVec.eq_of_getLsbD_eq; intro i hi
  rw [highByte, BitVec.getLsbD_extractLsb', getLsbD_append_bytes]; simp [hi]

@[simp] theorem lowByte_withLow (x : Word16) (v : Byte) : lowByte (withLow x v) = v := lowByte_append _ _
@[simp] theorem highByte_withHigh (x : Word16) (v : Byte) : highByte (withHigh x v) = v := highByte_append _ _
@[simp] theorem highByte_withLow (x : Word16) (v : Byte) : highByte (withLow x v) = highByte x := highByte_append _ _
@[simp] theorem lowByte_withHigh (x : Word16) (v : Byte) : lowByte (withHigh x v) = lowByte x := lowByte_append _ _

/-- A 16-bit value is its high byte then its low byte (R124). -/
theorem highByte_append_lowByte (x : Word16) : highByte x ++ lowByte x = x := by
  apply BitVec.eq_of_getLsbD_eq; intro i hi
  rw [getLsbD_append_bytes, highByte, lowByte, BitVec.getLsbD_extractLsb', BitVec.getLsbD_extractLsb']
  by_cases h : i < 8
  · simp [h]
  · simp [h, show i - 8 < 8 by omega, show 8 + (i - 8) = i by omega]

/-- A byte reads back as it was written (R84, R85). -/
@[simp] theorem cellRead_cellWrite_same (c : Csrs) (cell : CsrCell) (v : Byte) :
    cellRead (cellWrite c cell v) cell = v := by
  cases cell <;> simp [cellRead, cellWrite]

/-- A write leaves every other byte (R85). -/
theorem cellRead_cellWrite_ne {cell d : CsrCell} (h : d ≠ cell) (c : Csrs) (v : Byte) :
    cellRead (cellWrite c cell v) d = cellRead c d := by
  cases cell <;> cases d <;> first | rfl | exact absurd rfl h | simp [cellRead, cellWrite]

/-- Registers with the same 29 bytes are the same registers. -/
theorem Csrs_ext_cells {c d : Csrs} (h : ∀ cell, cellRead c cell = cellRead d cell) : c = d := by
  have h16 : ∀ {x y : Word16}, lowByte x = lowByte y → highByte x = highByte y → x = y := by
    intro x y h1 h2
    rw [← highByte_append_lowByte x, ← highByte_append_lowByte y, h1, h2]
  obtain ⟨⟩ := c
  obtain ⟨⟩ := d
  have a1 := h16 (h .tcnt1Low) (h .tcnt1High)
  have a2 := h16 (h .icr1Low) (h .icr1High)
  have a3 := h16 (h .ocr1aLow) (h .ocr1aHigh)
  have a4 := h16 (h .ocr1bLow) (h .ocr1bHigh)
  simp only [Csrs.mk.injEq]
  exact ⟨h .tcnt0, h .ocr0a, h .ocr0b, a1, a3, a4, a2, h .tcnt2, h .ocr2a, h .ocr2b, h .tccr0a, h .tccr0b, h .timsk0,
    h .tifr0, h .tccr1a, h .tccr1b, h .tccr1c, h .timsk1, h .tifr1, h .tccr2a, h .tccr2b, h .timsk2, h .tifr2,
    h .busctl, h .busdata⟩

@[simp] theorem read16_write16_same (c : Csrs) (r : Csr16) (v : Word16) : read16 (write16 c r v) r = v := by
  cases r <;> rfl
theorem read16_write16_ne {r q : Csr16} (h : q ≠ r) (c : Csrs) (v : Word16) :
    read16 (write16 c r v) q = read16 c q := by
  cases r <;> cases q <;> first | rfl | exact absurd rfl h

/-! ### Named fields -/

/-- A field reads back as it was written, if the value fits. -/
theorem fieldRead_fieldWrite_same (c : Csrs) (f : CsrField) {v : Byte} (h : v.toNat < 2 ^ f.pos.width) :
    fieldRead (fieldWrite c f v) f = v := by
  rw [fieldRead, fieldWrite, cellRead_cellWrite_same, extractField_replaceField v _ (CsrField_fits f)]
  apply BitVec.eq_of_getLsbD_eq
  intro i hi
  rw [BitVec.getLsbD_and, getLsbD_fieldMask]
  by_cases h3 : i < f.pos.width
  · simp [hi, h3]
  · have : v.getLsbD i = false := by
      rw [BitVec.getLsbD]
      exact Nat.testBit_lt_two_pow (lt_of_lt_of_le h (Nat.pow_le_pow_right (by decide) (by omega)))
    simp [this]

/-- A field write leaves every other field (R245). -/
theorem fieldRead_fieldWrite_ne {f g : CsrField} (h : g ≠ f) (c : Csrs) (v : Byte) :
    fieldRead (fieldWrite c f v) g = fieldRead c g := by
  rw [fieldRead, fieldWrite]
  by_cases hc : g.pos.cell = f.pos.cell
  · rw [hc, cellRead_cellWrite_same, extractField_replaceField_disjoint v _ (CsrField_disjoint h.symm hc.symm),
      fieldRead, hc]
  · rw [cellRead_cellWrite_ne hc, fieldRead]

/-- A field write leaves every other byte. -/
theorem cellRead_fieldWrite_ne {f : CsrField} {d : CsrCell} (h : d ≠ f.pos.cell) (c : Csrs) (v : Byte) :
    cellRead (fieldWrite c f v) d = cellRead c d := cellRead_cellWrite_ne h _ _

/-- A field write leaves the other bits of its own register (R245). -/
theorem cellRead_fieldWrite_outside (c : Csrs) (f : CsrField) (v : Byte) :
    cellRead (fieldWrite c f v) f.pos.cell &&& ~~~ fieldMask f.pos.lo f.pos.width =
      cellRead c f.pos.cell &&& ~~~ fieldMask f.pos.lo f.pos.width := by
  rw [fieldWrite, cellRead_cellWrite_same, replaceField_outside]

/-- Writing the value a field already has changes no register. -/
theorem fieldWrite_fieldRead (c : Csrs) (f : CsrField) : fieldWrite c f (fieldRead c f) = c := by
  apply Csrs_ext_cells
  intro d
  by_cases h : d = f.pos.cell
  · subst h; rw [fieldWrite, cellRead_cellWrite_same, fieldRead, replaceField_extractField]
  · exact cellRead_cellWrite_ne h _ _

end Machine
end Sys2Proof
end

