-- ==== Sys2Proof/Laws/Clock.lean ====
section
/-! SUPPORT. Laws/Clock.lean: what the block's operations can do, and when they complete: the events and the tick of a
channel, `OC2A_UPDATE`, `STEP` and its repetitions, `RESET`, `FEED`, the bus. -/

namespace Sys2Proof.Machine

/-! ### `BUSCTL` is written by the bus only -/

@[simp] theorem matchTimer2_busctl (s : State) : (matchTimer2 s).csr.busctl = s.csr.busctl := by
  unfold matchTimer2; dsimp only; split <;> simp
@[simp] theorem outputUpdate_busctl (s : State) : (outputUpdate s).csr.busctl = s.csr.busctl :=
  fieldWrite_busctl (f := .foc2a) (by decide) _ _

/-! ### The timer events -/

/-- The calls made between two states: of timer handlers, all at the same tick. -/
def TimerCalls (s t : State) : Prop :=
  ∃ cs, t.calls = s.calls ++ cs ∧ ∀ c ∈ cs, c.tick = s.tick ∧ ∃ src, c.callback = .timer src

theorem TimerCalls.refl (s : State) : TimerCalls s s := ⟨[], by simp⟩
theorem TimerCalls.trans {a b c : State} (ht : b.tick = a.tick) (h : TimerCalls a b) (k : TimerCalls b c) :
    TimerCalls a c := by
  obtain ⟨x, hx, hx'⟩ := h
  obtain ⟨y, hy, hy'⟩ := k
  refine ⟨x ++ y, by rw [hy, hx, List.append_assoc], fun c hc => ?_⟩
  rcases List.mem_append.mp hc with h | h
  · exact hx' c h
  · exact ht ▸ hy' c h

/-- What the events of a channel can do (spec/41_timer_channel.md): the registers but not `BUSCTL`, the firmware's
state, the latch, and calls of timer handlers. -/
structure TimerEffect (s t : State) : Prop where
  same : t = { s with csr := t.csr, fwst := t.fwst, calls := t.calls, oc2aMatch := t.oc2aMatch }
  busctl : t.csr.busctl = s.csr.busctl
  calls : TimerCalls s t

theorem TimerEffect.tick {s t : State} (h : TimerEffect s t) : t.tick = s.tick := by rw [h.same]
theorem TimerEffect.fw {s t : State} (h : TimerEffect s t) : t.fw = s.fw := by rw [h.same]
theorem TimerEffect.moment {s t : State} (h : TimerEffect s t) : t.moment = s.moment := by rw [h.same]
theorem TimerEffect.refl (s : State) : TimerEffect s s := ⟨rfl, rfl, .refl s⟩
theorem TimerEffect.trans {a b c : State} (h : TimerEffect a b) (k : TimerEffect b c) : TimerEffect a c :=
  ⟨by rw [k.same, h.same], k.busctl.trans h.busctl, h.calls.trans h.tick k.calls⟩

/-- A change of the registers other than `BUSCTL`, and of the latch. -/
theorem TimerEffect.regs (s : State) (c : Csrs) (m : Bool) (h : c.busctl = s.csr.busctl) :
    TimerEffect s { s with csr := c, oc2aMatch := m } := ⟨rfl, h, ⟨[], by simp⟩⟩

theorem dispatchSource_effect {src : TimerSource} {s t : State} (h : dispatchSource src s = .next t) :
    TimerEffect s t := by
  rcases dispatchSource_eq_next.mp h with ⟨-, u, hu, rfl⟩ | ⟨-, rfl⟩
  · obtain ⟨e, b⟩ := call_eq_next hu
    refine ⟨by rw [e], by simpa using b, [⟨.timer src, s.tick⟩], by rw [e], ?_⟩
    simp
  · exact .refl _

theorem overflowEvent_effect {n : Channel} {s t : State} (h : overflowEvent n s = .next t) : TimerEffect s t :=
  (TimerEffect.regs s _ s.oc2aMatch (by simp)).trans (dispatchSource_effect h)

theorem matchTimer2_effect (s : State) : TimerEffect s (matchTimer2 s) :=
  TimerEffect.regs s (matchTimer2 s).csr true (by simp)

theorem matchAEvent_effect {n : Channel} {s t : State} (h : matchAEvent n s = .next t) : TimerEffect s t := by
  refine (TimerEffect.regs s (setFlag s.csr ⟨n, .compA⟩) s.oc2aMatch (by simp)).trans ?_
  refine TimerEffect.trans ?_ (dispatchSource_effect h)
  split
  · exact matchTimer2_effect _
  · exact .refl _

theorem matchBEvent_effect {n : Channel} {s t : State} (h : matchBEvent n s = .next t) : TimerEffect s t :=
  (TimerEffect.regs s _ s.oc2aMatch (by simp)).trans (dispatchSource_effect h)

theorem whenDo_effect {R : State → State → Prop} (refl : ∀ s, R s s) {b : Bool} {f : State → Result}
    (hf : ∀ s t, f s = .next t → R s t) {s t : State} (h : whenDo b f s = .next t) : R s t := by
  cases b with
  | true => exact hf _ _ h
  | false => cases h; exact refl _

theorem timerTickOf_effect {n : Channel} {s t : State} (h : timerTickOf n s = .next t) : TimerEffect s t := by
  obtain ⟨u, h1, h2⟩ := andThen_eq_next.mp h
  obtain ⟨v, h3, h4⟩ := andThen_eq_next.mp h2
  refine (TimerEffect.regs s (setCounter s.csr n ((counter s.csr n + 1) % channelModulus n)) s.oc2aMatch
    (by simp)).trans ?_
  exact ((whenDo_effect TimerEffect.refl (fun _ _ => overflowEvent_effect) h1).trans (whenDo_effect TimerEffect.refl (fun _ _ => matchAEvent_effect) h3)).trans
    (whenDo_effect TimerEffect.refl (fun _ _ => matchBEvent_effect) h4)

theorem channelTurn_effect {n : Channel} {s t : State} (h : channelTurn n s = .next t) : TimerEffect s t :=
  whenDo_effect TimerEffect.refl (fun _ _ => timerTickOf_effect) h

/-! ### With a legal firmware every operation completes -/

theorem dispatchSource_total {src : TimerSource} {s : State} (h : s.fw.legal = true) :
    ∃ t, dispatchSource src s = .next t := by
  unfold dispatchSource
  split
  · obtain ⟨u, hu⟩ := call_total (s := s) (stubOf_legal h (.timer src))
    exact ⟨_, by rw [hu]; rfl⟩
  · exact ⟨s, rfl⟩

theorem overflowEvent_total {n : Channel} {s : State} (h : s.fw.legal = true) : ∃ t, overflowEvent n s = .next t :=
  dispatchSource_total h
theorem matchAEvent_total {n : Channel} {s : State} (h : s.fw.legal = true) : ∃ t, matchAEvent n s = .next t := by
  unfold matchAEvent
  dsimp only
  split <;> exact dispatchSource_total h
theorem matchBEvent_total {n : Channel} {s : State} (h : s.fw.legal = true) : ∃ t, matchBEvent n s = .next t :=
  dispatchSource_total h

theorem whenDo_total {b : Bool} {f : State → Result} {s : State} (h : ∃ t, f s = .next t) :
    ∃ t, whenDo b f s = .next t := by
  cases b with
  | true => exact h
  | false => exact ⟨s, rfl⟩

theorem andThen_total {o : Result} {k : State → Result} {s : State} (h : o = .next s) (hk : ∃ t, k s = .next t) :
    ∃ t, andThen o k = .next t := by
  obtain ⟨t, ht⟩ := hk
  exact ⟨t, by rw [h, andThen_next, ht]⟩

theorem timerTickOf_total {n : Channel} {s : State} (h : s.fw.legal = true) : ∃ t, timerTickOf n s = .next t := by
  unfold timerTickOf
  dsimp only
  obtain ⟨u, hu⟩ := whenDo_total (b := counter s.csr n == channelModulus n - 1)
    (overflowEvent_total (n := n) (s := { s with csr := setCounter s.csr n ((counter s.csr n + 1) % channelModulus n) }) h)
  refine andThen_total hu ?_
  have hu' : u.fw.legal = true := by rw [(whenDo_effect TimerEffect.refl (fun _ _ => overflowEvent_effect) hu).fw]; exact h
  obtain ⟨v, hv⟩ := whenDo_total (b := (counter s.csr n + 1) % channelModulus n ==
    compareA (setCounter s.csr n ((counter s.csr n + 1) % channelModulus n)) n) (matchAEvent_total (n := n) hu')
  refine andThen_total hv (whenDo_total (matchBEvent_total ?_))
  rw [(whenDo_effect TimerEffect.refl (fun _ _ => matchAEvent_effect) hv).fw]; exact hu'

theorem channelTurn_total {n : Channel} {s : State} (h : s.fw.legal = true) : ∃ t, channelTurn n s = .next t :=
  whenDo_total (timerTickOf_total h)

/-! ### `STEP` -/

/-- What `STEP` can do besides the tick: the registers but not `BUSCTL`, the firmware's state, the output and its
latch, and calls. -/
structure StepEffect (s t : State) : Prop where
  same : t = { s with
    tick := t.tick, csr := t.csr, fwst := t.fwst, calls := t.calls
    oc2aMatch := t.oc2aMatch, oc2a := t.oc2a }
  busctl : t.csr.busctl = s.csr.busctl
  latch : s.oc2aMatch = false → t.oc2aMatch = false
  tick : s.tick ≤ t.tick

theorem StepEffect.refl (s : State) : StepEffect s s := ⟨rfl, rfl, id, le_rfl⟩
theorem StepEffect.trans {a b c : State} (h : StepEffect a b) (k : StepEffect b c) : StepEffect a c :=
  ⟨by rw [k.same, h.same], k.busctl.trans h.busctl, k.latch ∘ h.latch, h.tick.trans k.tick⟩
theorem StepEffect.fw {s t : State} (h : StepEffect s t) : t.fw = s.fw := by rw [h.same]
theorem StepEffect.moment {s t : State} (h : StepEffect s t) : t.moment = s.moment := by rw [h.same]

/-- The lines of a `STEP`, with the step under way. -/
theorem stepTick_lines {s t : State} (h : stepTick s = .next t) :
    ∃ v, stepLines { s with moment := .step } = .next v ∧ t = { v with moment := s.moment } := by
  obtain ⟨v, k, e⟩ := andThen_eq_next.mp h
  cases e
  exact ⟨v, k, rfl⟩

/-- What one `STEP` can do (R140 to R144): the tick is one more, the channels call timer handlers, then the hook is
called once, and the output update is performed on what it leaves. -/
theorem stepTick_eq_next {s t : State} (h : stepTick s = .next t) :
    ∃ u v, TimerEffect { s with moment := .step, tick := s.tick + 1 } u ∧ call .loop u = .next v ∧
      t = { outputUpdate v with moment := s.moment } := by
  obtain ⟨w, k, rfl⟩ := stepTick_lines h
  obtain ⟨u0, h0, h⟩ := andThen_eq_next.mp k
  obtain ⟨u1, h1, h⟩ := andThen_eq_next.mp h
  obtain ⟨u2, h2, h⟩ := andThen_eq_next.mp h
  obtain ⟨v, h3, h⟩ := andThen_eq_next.mp h
  cases h
  exact ⟨u2, v, ((channelTurn_effect h0).trans (channelTurn_effect h1)).trans (channelTurn_effect h2), h3, rfl⟩

theorem stepTick_tick {s t : State} (h : stepTick s = .next t) : t.tick = s.tick + 1 := by
  obtain ⟨u, v, hu, hv, rfl⟩ := stepTick_eq_next h
  simp only [outputUpdate_tick]
  rw [(call_eq_next hv).1]
  exact hu.tick

theorem stepTick_effect {s t : State} (h : stepTick s = .next t) : StepEffect s t := by
  have ht := stepTick_tick h
  obtain ⟨u, v, hu, hv, rfl⟩ := stepTick_eq_next h
  obtain ⟨e, b⟩ := call_eq_next hv
  refine ⟨?_, ?_, fun _ => by simp, by omega⟩
  · unfold outputUpdate
    rw [e, hu.same]
  · simp only [outputUpdate_busctl]; rw [b, hu.busctl]

theorem stepLines_total {s : State} (h : s.fw.legal = true) : ∃ t, stepLines s = .next t := by
  unfold stepLines
  obtain ⟨u0, h0⟩ := channelTurn_total (n := .t0) (s := { s with tick := s.tick + 1 }) h
  have f0 : u0.fw.legal = true := by rw [(channelTurn_effect h0).fw]; exact h
  obtain ⟨u1, h1⟩ := channelTurn_total (n := .t1) f0
  have f1 : u1.fw.legal = true := by rw [(channelTurn_effect h1).fw]; exact f0
  obtain ⟨u2, h2⟩ := channelTurn_total (n := .t2) f1
  have f2 : u2.fw.legal = true := by rw [(channelTurn_effect h2).fw]; exact f1
  obtain ⟨v, h3⟩ := call_total (s := u2) (stubOf_legal f2 .loop)
  exact andThen_total h0 (andThen_total h1 (andThen_total h2 (andThen_total h3 ⟨_, rfl⟩)))
/-- `STEP` completes where its lines do. -/
theorem stepTick_total_of {s : State} (h : ∃ t, stepLines { s with moment := .step } = .next t) :
    ∃ t, stepTick s = .next t := by
  obtain ⟨u, hu⟩ := h
  exact andThen_total hu ⟨_, rfl⟩

theorem stepTick_total {s : State} (h : s.fw.legal = true) : ∃ t, stepTick s = .next t :=
  stepTick_total_of (stepLines_total (s := { s with moment := .step }) h)

theorem stepTimes_effect {n : Nat} {s t : State} (h : stepTimes n s = .next t) : StepEffect s t :=
  iterate_rel StepEffect.refl StepEffect.trans (fun _ _ => stepTick_effect) h

theorem stepTimes_tick : ∀ {n : Nat} {s t : State}, stepTimes n s = .next t → t.tick = s.tick + n
  | 0, s, t, h => by cases h; rfl
  | n + 1, s, t, h => by
    obtain ⟨u, h1, h2⟩ := andThen_eq_next.mp h
    rw [stepTimes_tick (n := n) h2, stepTick_tick h1]
    omega

theorem stepTimes_total {n : Nat} {s : State} (h : s.fw.legal = true) : ∃ t, stepTimes n s = .next t := by
  obtain ⟨t, ht, -⟩ := iterate_total (P := fun s => s.fw.legal = true) (fun s hs => by
    obtain ⟨t, ht⟩ := stepTick_total hs
    exact ⟨t, ht, by rw [(stepTick_effect ht).fw]; exact hs⟩) n s h
  exact ⟨t, ht⟩

/-- `RUNTO t` never steps backward (R132, R286). -/
theorem runToTick_tick {n : Nat} {s t : State} (h : runToTick n s = .next t) : t.tick = max s.tick n := by
  rw [stepTimes_tick h]; omega

theorem runToTick_effect {n : Nat} {s t : State} (h : runToTick n s = .next t) : StepEffect s t := stepTimes_effect h
theorem runToTick_total {n : Nat} {s : State} (h : s.fw.legal = true) : ∃ t, runToTick n s = .next t :=
  stepTimes_total h

/-! ### `RESET` -/

/-- What `RESET` can do (R380, R386): the block is at its reset values when `fw.setup` is called, which is the only
call. -/
theorem resetAndBoot_eq_next {s t : State} (h : resetAndBoot s = .next t) :
    t = { resetBlock s with
      csr := t.csr, fwst := t.fwst, calls := s.calls ++ [⟨.setup, 0⟩] } ∧ t.csr.busctl = 0 :=
  call_eq_next h

theorem resetAndBoot_total {s : State} (h : s.fw.legal = true) : ∃ t, resetAndBoot s = .next t :=
  call_total (s := resetBlock s) (stubOf_legal h .setup)

/-! ### `FEED` -/

/-- What `FEED` can do (R190). -/
theorem feedLevel_eq_next {l : Bool} {s t : State} (h : feedLevel l s = .next t) :
    (¬ (l ≠ s.prevLevel ∧ transitionAccepted s = true) ∧ t = s) ∨
    (l ≠ s.prevLevel ∧ transitionAccepted s = true ∧
      ∃ u, t = { u with prevLevel := l, lastAccept := some u.tick } ∧
        (let latched := { s with csr := { s.csr with icr1 := s.csr.tcnt1 } }
        (polaritySelected l latched = true ∧ call .capture latched = .next u) ∨
        (polaritySelected l latched = false ∧ u = latched))) := by
  unfold feedLevel at h
  split at h
  next hc =>
    obtain ⟨u, h1, h2⟩ := andThen_eq_next.mp h
    cases h2
    refine .inr ⟨hc.1, hc.2, u, rfl, ?_⟩
    dsimp only at h1 ⊢
    cases hp : polaritySelected l { s with csr := { s.csr with icr1 := s.csr.tcnt1 } } with
    | true => rw [hp] at h1; exact .inl ⟨rfl, h1⟩
    | false => rw [hp] at h1; cases h1; exact .inr ⟨rfl, rfl⟩
  next hc => cases h; exact .inl ⟨hc, rfl⟩

/-- What a host operation on the block can do besides advancing the tick. -/
structure HostEffect (s t : State) : Prop where
  same : t = { s with
    csr := t.csr, fwst := t.fwst, calls := t.calls
    prevLevel := t.prevLevel, lastAccept := t.lastAccept, hostResult := t.hostResult }
  accept : (∀ a ∈ s.lastAccept, a ≤ s.tick) → ∀ a ∈ t.lastAccept, a ≤ t.tick

theorem HostEffect.refl (s : State) : HostEffect s s := ⟨rfl, id⟩
theorem HostEffect.tick {s t : State} (h : HostEffect s t) : t.tick = s.tick := by rw [h.same]
theorem HostEffect.fw {s t : State} (h : HostEffect s t) : t.fw = s.fw := by rw [h.same]
theorem HostEffect.moment {s t : State} (h : HostEffect s t) : t.moment = s.moment := by rw [h.same]
theorem HostEffect.trans {a b c : State} (h : HostEffect a b) (k : HostEffect b c) : HostEffect a c :=
  ⟨by rw [k.same, h.same], k.accept ∘ h.accept⟩

theorem feedLevel_effect {l : Bool} {s t : State} (h : feedLevel l s = .next t) :
    HostEffect s t ∧ t.csr.busctl = s.csr.busctl := by
  rcases feedLevel_eq_next h with ⟨-, rfl⟩ | ⟨-, -, u, rfl, ⟨-, hu⟩ | ⟨-, rfl⟩⟩
  · exact ⟨.refl _, rfl⟩
  · obtain ⟨e, b⟩ := call_eq_next hu
    refine ⟨⟨by rw [e], fun _ a ha => ?_⟩, b⟩
    simp only [Option.mem_def, Option.some.injEq] at ha
    simp [ha]
  · refine ⟨⟨rfl, fun _ a ha => ?_⟩, rfl⟩
    simp only [Option.mem_def, Option.some.injEq] at ha
    simp [← ha]

theorem feedLevel_total {l : Bool} {s : State} (h : s.fw.legal = true) : ∃ t, feedLevel l s = .next t := by
  unfold feedLevel
  split
  · obtain ⟨u, hu⟩ := whenDo_total
      (b := polaritySelected l { s with csr := { s.csr with icr1 := s.csr.tcnt1 } })
      (call_total (c := .capture) (s := { s with csr := { s.csr with icr1 := s.csr.tcnt1 } })
        (stubOf_legal h .capture))
    exact andThen_total hu ⟨_, rfl⟩
  · exact ⟨s, rfl⟩

/-! ### The bus -/

/-- What `RD` can do (R231). -/
theorem busReadOf_eq_next {r : BusReg} {s t : State} (h : busReadOf r s = .next t) :
    ∃ u, call .pcRead { s with csr := fieldWrite (fieldWrite s.csr .addr (busRegBits r)) .rds 1 } = .next u ∧
      t = { u with hostResult := u.csr.busdata, csr := fieldWrite u.csr .rds 0 } := by
  obtain ⟨u, h1, h2⟩ := andThen_eq_next.mp h
  cases h2
  exact ⟨u, h1, rfl⟩

/-- What `WR` can do (R232). -/
theorem busWriteOf_eq_next {r : BusReg} {v : Byte} {s t : State} (h : busWriteOf r v s = .next t) :
    ∃ u, call .pcWrite { s with
        csr := fieldWrite (fieldWrite { s.csr with busdata := v } .addr (busRegBits r)) .wrs 1 } = .next u ∧
      t = { u with csr := fieldWrite u.csr .wrs 0 } := by
  obtain ⟨u, h1, h2⟩ := andThen_eq_next.mp h
  cases h2
  exact ⟨u, h1, rfl⟩

/-- The pins of a read transaction, seen from `BUSCTL` (R231, R233): the address stays, the strobe is released. -/
theorem busReadOf_pins (b : Byte) (r : BusReg) :
    replaceField 1 1 0 (replaceField 1 1 1 (replaceField 0 1 (busRegBits r) b)) = (b &&& 0xFC) ||| busRegBits r := by
  revert b; cases r <;> decide

/-- The pins of a write transaction (R232, R233). -/
theorem busWriteOf_pins (b : Byte) (r : BusReg) :
    replaceField 2 1 0 (replaceField 2 1 1 (replaceField 0 1 (busRegBits r) b)) = (b &&& 0xFA) ||| busRegBits r := by
  revert b; cases r <;> decide

theorem busReadOf_effect {r : BusReg} {s t : State} (h : busReadOf r s = .next t) :
    HostEffect s t ∧ t.csr.busctl = (s.csr.busctl &&& 0xFC) ||| busRegBits r ∧ t.hostResult = t.csr.busdata ∧
      t.calls = s.calls ++ [⟨.pcRead, s.tick⟩] := by
  obtain ⟨u, hu, rfl⟩ := busReadOf_eq_next h
  obtain ⟨e, b⟩ := call_eq_next hu
  refine ⟨⟨by rw [e], fun ha => by rw [e]; exact ha⟩, ?_, rfl, by rw [e]⟩
  show replaceField 1 1 0 u.csr.busctl = _
  rw [b]
  exact busReadOf_pins _ _

theorem busWriteOf_effect {r : BusReg} {v : Byte} {s t : State} (h : busWriteOf r v s = .next t) :
    HostEffect s t ∧ t.csr.busctl = (s.csr.busctl &&& 0xFA) ||| busRegBits r ∧ t.hostResult = s.hostResult ∧
      t.calls = s.calls ++ [⟨.pcWrite, s.tick⟩] := by
  obtain ⟨u, hu, rfl⟩ := busWriteOf_eq_next h
  obtain ⟨e, b⟩ := call_eq_next hu
  refine ⟨⟨by rw [e], fun ha => by rw [e]; exact ha⟩, ?_, by rw [e], by rw [e]⟩
  show replaceField 2 1 0 u.csr.busctl = _
  rw [b]
  exact busWriteOf_pins _ _

theorem busReadOf_total {r : BusReg} {s : State} (h : s.fw.legal = true) : ∃ t, busReadOf r s = .next t := by
  obtain ⟨u, hu⟩ := call_total (c := .pcRead)
    (s := { s with csr := fieldWrite (fieldWrite s.csr .addr (busRegBits r)) .rds 1 }) (stubOf_legal h .pcRead)
  exact andThen_total hu ⟨_, rfl⟩

theorem busWriteOf_total {r : BusReg} {v : Byte} {s : State} (h : s.fw.legal = true) :
    ∃ t, busWriteOf r v s = .next t := by
  obtain ⟨u, hu⟩ := call_total (c := .pcWrite)
    (s := { s with csr := fieldWrite (fieldWrite { s.csr with busdata := v } .addr (busRegBits r)) .wrs 1 })
    (stubOf_legal h .pcWrite)
  exact andThen_total hu ⟨_, rfl⟩

end Sys2Proof.Machine
end

