-- ==== Sys2Proof/Laws/Procedures.lean ====
section
/-! SUPPORT. Laws/Procedures.lean: what the host's procedures can do, and when they complete: `POLL`, `COMPARE`,
`CSV_PLAY`, `WAV_PLAY`, `SINK_RUN`. -/

namespace Sys2Proof.Machine

/-! ### What every procedure keeps -/

/-- What any sequence of host operations and reads keeps: the bindings of the run, the sink's state, and the points of
the invariant that concern the block. The tick does not go back. -/
structure RunEffect (s t : State) : Prop where
  bindings : BindingsKept s t
  snk : t.snk = s.snk
  moment : t.moment = s.moment
  pins : s.csr.busctl &&& 0xFE = 0 → t.csr.busctl &&& 0xFE = 0
  latch : s.oc2aMatch = false → t.oc2aMatch = false
  accept : (∀ a ∈ s.lastAccept, a ≤ s.tick) → ∀ a ∈ t.lastAccept, a ≤ t.tick
  tick : s.tick ≤ t.tick

theorem RunEffect.refl (s : State) : RunEffect s s := ⟨⟨rfl, rfl, rfl, rfl⟩, rfl, rfl, id, id, id, le_rfl⟩
theorem RunEffect.trans {a b c : State} (h : RunEffect a b) (k : RunEffect b c) : RunEffect a c :=
  ⟨⟨k.bindings.fw.trans h.bindings.fw, k.bindings.fwst0.trans h.bindings.fwst0,
    k.bindings.params.trans h.bindings.params, k.bindings.trace.trans h.bindings.trace⟩,
    k.snk.trans h.snk, k.moment.trans h.moment, k.pins ∘ h.pins, k.latch ∘ h.latch, k.accept ∘ h.accept,
    h.tick.trans k.tick⟩

/-- A change of the host's own state only. -/
theorem RunEffect.host (s : State) (d : Decoder) (src : Source) (e : List HostError) (o : Option Bool)
    (x : Option Nat) :
    RunEffect s { s with dec := d, src := src, errors := e, outcome := o, exitStatus := x } :=
  ⟨⟨rfl, rfl, rfl, rfl⟩, rfl, rfl, id, id, id, le_rfl⟩

theorem StepEffect.run {s t : State} (h : StepEffect s t) : RunEffect s t := by
  have e := h.same
  refine ⟨⟨?_, ?_, ?_, ?_⟩, ?_, ?_, fun hb => h.busctl ▸ hb, h.latch, fun ha a m => ?_, h.tick⟩ <;>
    try (rw [e])
  rw [show t.lastAccept = s.lastAccept by rw [e]] at m
  exact (ha a m).trans h.tick

theorem HostEffect.run {s t : State} (h : HostEffect s t)
    (hp : s.csr.busctl &&& 0xFE = 0 → t.csr.busctl &&& 0xFE = 0) : RunEffect s t := by
  have e := h.same
  refine ⟨⟨?_, ?_, ?_, ?_⟩, ?_, ?_, hp, fun hl => ?_, h.accept, ?_⟩ <;> rw [e]
  exact hl

theorem pins_read (b : Byte) (r : BusReg) (h : b &&& 0xFE = 0) : ((b &&& 0xFC) ||| busRegBits r) &&& 0xFE = 0 := by
  revert b; cases r <;> decide
theorem pins_write (b : Byte) (r : BusReg) (h : b &&& 0xFE = 0) : ((b &&& 0xFA) ||| busRegBits r) &&& 0xFE = 0 := by
  revert b; cases r <;> decide

theorem busReadOf_run {r : BusReg} {s t : State} (h : busReadOf r s = .next t) : RunEffect s t := by
  obtain ⟨e, p, -, -⟩ := busReadOf_effect h
  exact e.run fun hb => p ▸ pins_read _ r hb
theorem busWriteOf_run {r : BusReg} {v : Byte} {s t : State} (h : busWriteOf r v s = .next t) : RunEffect s t := by
  obtain ⟨e, p, -, -⟩ := busWriteOf_effect h
  exact e.run fun hb => p ▸ pins_write _ r hb
theorem feedLevel_run {l : Bool} {s t : State} (h : feedLevel l s = .next t) : RunEffect s t := by
  obtain ⟨e, p⟩ := feedLevel_effect h
  exact e.run fun hb => p ▸ hb
theorem stepTick_run {s t : State} (h : stepTick s = .next t) : RunEffect s t := (stepTick_effect h).run
theorem runToTick_run {n : Nat} {s t : State} (h : runToTick n s = .next t) : RunEffect s t :=
  (runToTick_effect h).run

theorem RunEffect.legal {s t : State} (h : RunEffect s t) (hl : s.fw.legal = true) : t.fw.legal = true := by
  rw [h.bindings.fw]; exact hl

/-! ### `COMPARE` and `POLL` -/

theorem decoderError_run (e : HostError) (s : State) : RunEffect s (decoderError e s) :=
  RunEffect.host s _ _ _ _ _
theorem compareNext_run (ref : List Byte) (b : Byte) (s : State) : RunEffect s (compareNext ref b s) := by
  unfold compareNext
  split
  · exact RunEffect.host s _ _ _ _ _
  · dsimp only; split <;> exact RunEffect.host s _ _ _ _ _
theorem compareByte_run (b : Byte) (s : State) : RunEffect s (compareByte b s) := by
  unfold compareByte
  split
  · exact .refl s
  · split
    · exact RunEffect.host s _ _ _ _ _
    · exact (RunEffect.host s _ s.src s.errors s.outcome s.exitStatus).trans (compareNext_run _ _ _)

/-- What receiving a byte can do (R262). -/
theorem receiveByte_eq_next {s t : State} (h : receiveByte s = .next t) :
    ∃ u, busReadOf .data s = .next u ∧ t = compareByte u.hostResult
      { u with dec := { u.dec with received := u.dec.received ++ [u.hostResult] } } := by
  obtain ⟨u, h1, h2⟩ := andThen_eq_next.mp h
  cases h2
  exact ⟨u, h1, rfl⟩

theorem receiveByte_run {s t : State} (h : receiveByte s = .next t) : RunEffect s t := by
  obtain ⟨u, h1, rfl⟩ := receiveByte_eq_next h
  exact (busReadOf_run h1).trans
    ((RunEffect.host u _ u.src u.errors u.outcome u.exitStatus).trans (compareByte_run _ _))

theorem unlessStopped_eq_next {s t : State} {k : State → Result} :
    unlessStopped s k = .next t ↔ (s.dec.stopped = true ∧ t = s) ∨ (s.dec.stopped = false ∧ k s = .next t) := by
  unfold unlessStopped
  cases h : s.dec.stopped <;> simp [eq_comm]

theorem unlessStopped_run {s t : State} {k : State → Result} (hk : k s = .next t → RunEffect s t)
    (h : unlessStopped s k = .next t) : RunEffect s t := by
  rcases unlessStopped_eq_next.mp h with ⟨-, rfl⟩ | ⟨-, h⟩
  · exact .refl _
  · exact hk h

theorem handleStatus_run {st : Byte} {s t : State} (h : handleStatus st s = .next t) : RunEffect s t := by
  unfold handleStatus at h
  have e1 : RunEffect s (if st.getLsbD 3 = true then decoderError (.framing s.tick) s else s) := by
    split
    · exact decoderError_run _ _
    · exact .refl _
  refine e1.trans (unlessStopped_run (fun h2 => ?_) h)
  dsimp only at h2
  generalize (if st.getLsbD 3 = true then decoderError (.framing s.tick) s else s) = u at h2 ⊢
  have e2 : RunEffect u (if st.getLsbD 2 = true then decoderError (.parity u.tick) u else u) := by
    split
    · exact decoderError_run _ _
    · exact .refl _
  refine e2.trans (unlessStopped_run (fun h3 => ?_) h2)
  split at h3
  · cases h3; exact .refl _
  · exact receiveByte_run h3

theorem pollOnce_run {s t : State} (h : pollOnce s = .next t) : RunEffect s t := by
  refine unlessStopped_run (fun h => ?_) h
  obtain ⟨u, h1, h2⟩ := andThen_eq_next.mp h
  exact (busReadOf_run h1).trans (handleStatus_run h2)

theorem unlessStopped_total {s : State} {k : State → Result} (hk : ∃ t, k s = .next t) :
    ∃ t, unlessStopped s k = .next t := by
  unfold unlessStopped; split
  · exact ⟨s, rfl⟩
  · exact hk

theorem receiveByte_total {s : State} (h : s.fw.legal = true) : ∃ t, receiveByte s = .next t := by
  obtain ⟨u, hu⟩ := busReadOf_total (r := .data) h
  exact andThen_total hu ⟨_, rfl⟩

theorem handleStatus_total {st : Byte} {s : State} (h : s.fw.legal = true) : ∃ t, handleStatus st s = .next t := by
  unfold handleStatus
  refine unlessStopped_total (unlessStopped_total ?_)
  split
  · exact ⟨_, rfl⟩
  · refine receiveByte_total ?_
    split <;> split <;> exact h

theorem pollOnce_total {s : State} (h : s.fw.legal = true) : ∃ t, pollOnce s = .next t := by
  obtain ⟨u, hu⟩ := busReadOf_total (r := .control) h
  exact unlessStopped_total (andThen_total hu (handleStatus_total ((busReadOf_run hu).legal h)))

/-- What a poll can write (R262, R263): nothing of the block but what its bus reads do, the decoder but not its
configuration (R260), and the list of errors. -/
structure PollEffect (s t : State) : Prop where
  same : t = { s with
    csr := t.csr, fwst := t.fwst, calls := t.calls, hostResult := t.hostResult
    dec := t.dec, errors := t.errors }
  config : t.dec.keepGoing = s.dec.keepGoing ∧ t.dec.ref = s.dec.ref ∧ t.dec.ignoreLeader = s.dec.ignoreLeader

theorem PollEffect.refl (s : State) : PollEffect s s := ⟨rfl, rfl, rfl, rfl⟩
theorem PollEffect.trans {a b c : State} (h : PollEffect a b) (k : PollEffect b c) : PollEffect a c :=
  ⟨by rw [k.same, h.same], k.config.1.trans h.config.1, k.config.2.1.trans h.config.2.1,
    k.config.2.2.trans h.config.2.2⟩
theorem PollEffect.src {s t : State} (h : PollEffect s t) : t.src = s.src := by rw [h.same]
theorem PollEffect.tick {s t : State} (h : PollEffect s t) : t.tick = s.tick := by rw [h.same]

theorem busReadOf_poll {r : BusReg} {s t : State} (h : busReadOf r s = .next t) : PollEffect s t := by
  obtain ⟨u, hu, rfl⟩ := busReadOf_eq_next h
  have e := (call_eq_next hu).1
  refine ⟨by rw [e], ?_⟩
  rw [e]
  exact ⟨rfl, rfl, rfl⟩

theorem decoderError_poll (e : HostError) (s : State) : PollEffect s (decoderError e s) := ⟨rfl, rfl, rfl, rfl⟩
theorem compareNext_poll (ref : List Byte) (b : Byte) (s : State) : PollEffect s (compareNext ref b s) := by
  unfold compareNext
  split
  · exact ⟨rfl, rfl, rfl, rfl⟩
  · dsimp only; split <;> exact ⟨rfl, rfl, rfl, rfl⟩
theorem compareLeader_config (ref : List Byte) (b : Byte) (d : Decoder) :
    (compareLeader ref b d).1.keepGoing = d.keepGoing ∧ (compareLeader ref b d).1.ref = d.ref ∧
      (compareLeader ref b d).1.ignoreLeader = d.ignoreLeader := by
  unfold compareLeader
  split
  · split <;> exact ⟨rfl, rfl, rfl⟩
  · exact ⟨rfl, rfl, rfl⟩
theorem compareByte_poll (b : Byte) (s : State) : PollEffect s (compareByte b s) := by
  unfold compareByte
  split
  · exact .refl s
  · next ref _ =>
    have hc := compareLeader_config ref b s.dec
    split
    · next d he => rw [he] at hc; exact ⟨rfl, hc⟩
    · next d he =>
      rw [he] at hc
      exact PollEffect.trans (b := { s with dec := d }) ⟨rfl, hc⟩ (compareNext_poll _ _ _)

theorem receiveByte_poll {s t : State} (h : receiveByte s = .next t) : PollEffect s t := by
  obtain ⟨u, h1, rfl⟩ := receiveByte_eq_next h
  refine (busReadOf_poll h1).trans (PollEffect.trans (b := { u with
    dec := { u.dec with received := u.dec.received ++ [u.hostResult] } }) ?_ (compareByte_poll _ _))
  exact ⟨rfl, rfl, rfl, rfl⟩

theorem unlessStopped_poll {s t : State} {k : State → Result} (hk : k s = .next t → PollEffect s t)
    (h : unlessStopped s k = .next t) : PollEffect s t := by
  rcases unlessStopped_eq_next.mp h with ⟨-, rfl⟩ | ⟨-, h⟩
  · exact .refl _
  · exact hk h

theorem handleStatus_poll {st : Byte} {s t : State} (h : handleStatus st s = .next t) : PollEffect s t := by
  unfold handleStatus at h
  have e1 : PollEffect s (if st.getLsbD 3 = true then decoderError (.framing s.tick) s else s) := by
    split
    · exact decoderError_poll _ _
    · exact .refl _
  refine e1.trans (unlessStopped_poll (fun h2 => ?_) h)
  dsimp only at h2
  generalize (if st.getLsbD 3 = true then decoderError (.framing s.tick) s else s) = u at h2 ⊢
  have e2 : PollEffect u (if st.getLsbD 2 = true then decoderError (.parity u.tick) u else u) := by
    split
    · exact decoderError_poll _ _
    · exact .refl _
  refine e2.trans (unlessStopped_poll (fun h3 => ?_) h2)
  split at h3
  · cases h3; exact .refl _
  · exact receiveByte_poll h3

theorem pollOnce_poll {s t : State} (h : pollOnce s = .next t) : PollEffect s t := by
  refine unlessStopped_poll (fun h => ?_) h
  obtain ⟨u, h1, h2⟩ := andThen_eq_next.mp h
  exact (busReadOf_poll h1).trans (handleStatus_poll h2)

/-! ### The players -/

theorem startRead_run (s : State) : RunEffect s (startRead s) := RunEffect.host s _ _ _ _ _
theorem finishRead_run (ok : Bool) (s : State) : RunEffect s (finishRead ok s) := RunEffect.host s _ _ _ _ _

/-- What one CSV record can do (R283): refused before the origin, else the clock runs to its tick, its level is fed,
and a poll is made. -/
theorem csvRecord_eq_next {n : Nat} {v : Int} {s t : State} (h : csvRecord n v s = .next t) :
    s.src.origin.getD n ≤ n ∧ ∃ u w,
      runToTick (s.src.t0 + (n - s.src.origin.getD n) / Config.csvUnitsPerTick)
        { s with src := { s.src with origin := some (s.src.origin.getD n) } } = .next u ∧
      feedLevel (v ≠ 0) u = .next w ∧ pollOnce w = .next t := by
  unfold csvRecord at h
  dsimp only at h
  split at h
  · cases h
  · obtain ⟨u, h1, h2⟩ := andThen_eq_next.mp h
    obtain ⟨w, h3, h4⟩ := andThen_eq_next.mp h2
    exact ⟨by omega, u, w, h1, h3, h4⟩

theorem csvRecord_run {n : Nat} {v : Int} {s t : State} (h : csvRecord n v s = .next t) : RunEffect s t := by
  obtain ⟨-, u, w, h1, h2, h3⟩ := csvRecord_eq_next h
  exact (RunEffect.host s s.dec _ s.errors s.outcome s.exitStatus).trans
    (((runToTick_run h1).trans (feedLevel_run h2)).trans (pollOnce_run h3))

theorem csvRecord_total {n : Nat} {v : Int} {s : State} (h : s.fw.legal = true) (ho : s.src.origin.getD n ≤ n) :
    ∃ t, csvRecord n v s = .next t := by
  unfold csvRecord
  dsimp only
  rw [if_neg (by omega)]
  obtain ⟨u, h1⟩ := runToTick_total (n := s.src.t0 + (n - s.src.origin.getD n) / Config.csvUnitsPerTick)
    (s := { s with src := { s.src with origin := some (s.src.origin.getD n) } }) h
  have f1 := (runToTick_run h1).legal h
  obtain ⟨w, h2⟩ := feedLevel_total (l := decide (v ≠ 0)) f1
  exact andThen_total h1 (andThen_total h2 (pollOnce_total ((feedLevel_run h2).legal f1)))

theorem csvLoop_run : ∀ {rs : List (Nat × Int)} {s t : State}, csvLoop rs s = .next t → RunEffect s t
  | [], s, t, h => by cases h; exact finishRead_run _ _
  | (n, v) :: rs, s, t, h => by
    obtain ⟨u, h1, h2⟩ := andThen_eq_next.mp h
    refine (csvRecord_run h1).trans ?_
    split at h2
    · cases h2; exact finishRead_run _ _
    · exact csvLoop_run h2

/-- Past a record the origin is set, to the first record's time (R283, R284). -/
theorem csvRecord_src {n : Nat} {v : Int} {s t : State} (h : csvRecord n v s = .next t) :
    t.src = { s.src with origin := some (s.src.origin.getD n) } := by
  obtain ⟨-, u, w, h1, h2, h3⟩ := csvRecord_eq_next h
  rw [(pollOnce_poll h3).src, (feedLevel_effect h2).1.same]
  show u.src = _
  rw [(runToTick_effect h1).same]

/-- A record's tick (R283, R286). -/
theorem csvRecord_tick {n : Nat} {v : Int} {s t : State} (h : csvRecord n v s = .next t) :
    t.tick = max s.tick (s.src.t0 + (n - s.src.origin.getD n) / Config.csvUnitsPerTick) := by
  obtain ⟨-, u, w, h1, h2, h3⟩ := csvRecord_eq_next h
  rw [(pollOnce_poll h3).tick, (feedLevel_effect h2).1.tick, runToTick_tick h1]

theorem csvLoop_total {o : Nat} : ∀ {rs : List (Nat × Int)} {s : State}, s.fw.legal = true →
    s.src.origin = some o → (∀ r ∈ rs, o ≤ r.1) → ∃ t, csvLoop rs s = .next t
  | [], s, _, _, _ => ⟨_, rfl⟩
  | (n, v) :: rs, s, h, ho, hr => by
    obtain ⟨u, h1⟩ := csvRecord_total (n := n) (v := v) h (by rw [ho]; exact hr (n, v) (by simp))
    have e := csvRecord_src h1
    refine andThen_total h1 ?_
    split
    · exact ⟨_, rfl⟩
    · exact csvLoop_total ((csvRecord_run h1).legal h) (by rw [e, ho]; rfl) fun r m => hr r (by simp [m])

theorem csvPlayAll_total {rs : List (Nat × Int)} {s : State} (h : s.fw.legal = true)
    (hw : recordsFromOrigin rs = true) : ∃ t, csvPlayAll rs s = .next t := by
  unfold csvPlayAll
  cases rs with
  | nil => exact ⟨_, rfl⟩
  | cons r rs =>
    obtain ⟨n, v⟩ := r
    simp only [recordsFromOrigin, List.all_eq_true, decide_eq_true_eq] at hw
    simp only [csvLoop]
    obtain ⟨u, h1⟩ := csvRecord_total (n := n) (v := v)
      (s := startRead s) h le_rfl
    have e := csvRecord_src h1
    refine andThen_total h1 ?_
    split
    · exact ⟨_, rfl⟩
    · exact csvLoop_total ((csvRecord_run h1).legal h) (by rw [e]; rfl) hw

theorem csvPlayAll_run {rs : List (Nat × Int)} {s t : State} (h : csvPlayAll rs s = .next t) : RunEffect s t :=
  (startRead_run s).trans (csvLoop_run h)

/-- What one frame of a WAV stream can do (R287, R291): its level is fed, the clock runs to the next sample's tick, a
poll is made. -/
theorem wavLoop_succ_eq_next {bytes : List Byte} {m : Nat} {s t : State} (h : wavLoop bytes (m + 1) s = .next t) :
    let frame := slice bytes (44 + s.src.k * wavBlockAlign bytes) (wavBlockAlign bytes)
    (frame.length < wavBlockAlign bytes ∧ t = finishRead false (recordError (.truncated s.tick) s)) ∨
    (¬ frame.length < wavBlockAlign bytes ∧ ∃ u v w,
      feedLevel (decide (0 < sampleValue (wavBits bytes) frame)) s = .next u ∧
      runToTick (u.src.t0 + sampleTick (u.src.k + 1) u.params.clockHz (wavSampleRate bytes))
        { u with src := { u.src with k := u.src.k + 1 } } = .next v ∧
      pollOnce v = .next w ∧
      ((w.dec.stopped = true ∧ t = finishRead false w) ∨
        (w.dec.stopped = false ∧ wavLoop bytes m w = .next t))) := by
  simp only [wavLoop] at h
  dsimp only
  split at h
  next hf => cases h; exact .inl ⟨hf, rfl⟩
  next hf =>
    obtain ⟨u, h1, h⟩ := andThen_eq_next.mp h
    obtain ⟨v, h2, h⟩ := andThen_eq_next.mp h
    obtain ⟨w, h3, h⟩ := andThen_eq_next.mp h
    refine .inr ⟨hf, u, v, w, h1, h2, h3, ?_⟩
    cases hs : w.dec.stopped with
    | true => rw [hs] at h; cases h; exact .inl ⟨rfl, rfl⟩
    | false => rw [hs] at h; exact .inr ⟨rfl, h⟩

theorem wavLoop_run {bytes : List Byte} : ∀ {m : Nat} {s t : State}, wavLoop bytes m s = .next t → RunEffect s t
  | 0, s, t, h => by cases h; exact finishRead_run _ _
  | m + 1, s, t, h => by
    rcases wavLoop_succ_eq_next h with ⟨-, rfl⟩ | ⟨-, u, v, w, h1, h2, h3, h4⟩
    · exact RunEffect.host s _ _ _ _ _
    · refine ((feedLevel_run h1).trans ((RunEffect.host u u.dec _ u.errors u.outcome u.exitStatus).trans
        ((runToTick_run h2).trans (pollOnce_run h3)))).trans ?_
      rcases h4 with ⟨-, rfl⟩ | ⟨-, h4⟩
      · exact finishRead_run _ _
      · exact wavLoop_run h4

theorem wavLoop_total {bytes : List Byte} : ∀ {m : Nat} {s : State}, s.fw.legal = true →
    ∃ t, wavLoop bytes m s = .next t
  | 0, s, _ => ⟨_, rfl⟩
  | m + 1, s, h => by
    simp only [wavLoop]
    split
    · exact ⟨_, rfl⟩
    · obtain ⟨u, h1⟩ := feedLevel_total (s := s) h
      have f1 := (feedLevel_run h1).legal h
      refine andThen_total h1 ?_
      obtain ⟨v, h2⟩ := runToTick_total (n := u.src.t0 + sampleTick (u.src.k + 1) u.params.clockHz (wavSampleRate bytes))
        (s := { u with src := { u.src with k := u.src.k + 1 } }) f1
      have f2 := (runToTick_run h2).legal f1
      obtain ⟨w, h3⟩ := pollOnce_total f2
      refine andThen_total h2 (andThen_total h3 ?_)
      split
      · exact ⟨_, rfl⟩
      · exact wavLoop_total ((pollOnce_run h3).legal f2)

theorem wavPlayAll_run {bytes : List Byte} {s t : State} (h : wavPlayAll bytes s = .next t) : RunEffect s t := by
  refine (startRead_run s).trans ?_
  unfold wavPlayAll at h
  dsimp only at h
  split at h
  · cases h; exact RunEffect.host _ _ _ _ _ _
  · split at h
    · cases h; exact RunEffect.host _ _ _ _ _ _
    · exact (RunEffect.host _ _ _ _ _ _).trans (wavLoop_run h)

theorem wavPlayAll_total {bytes : List Byte} {s : State} (h : s.fw.legal = true) :
    ∃ t, wavPlayAll bytes s = .next t := by
  unfold wavPlayAll
  dsimp only
  split
  · exact ⟨_, rfl⟩
  · split
    · exact ⟨_, rfl⟩
    · exact wavLoop_total h

/-! ### The sink -/

/-- The sink's part of the invariant (R320, R322): the filter's value within the amplitude, the sample count right. -/
def SinkOk (s : State) : Prop :=
  (-Config.amplitude ≤ s.snk.prev ∧ s.snk.prev ≤ Config.amplitude) ∧ s.snk.n = s.snk.samples.length

/-- What the parts of a sink run keep: the rest of the machine as a procedure keeps it, and the sink's invariant. -/
structure SinkEffect (s t : State) : Prop where
  run : RunEffect s { t with snk := s.snk }
  sink : SinkOk s → SinkOk t

theorem SinkEffect.refl (s : State) : SinkEffect s s := ⟨.refl s, id⟩
theorem SinkEffect.trans {a b c : State} (h : SinkEffect a b) (k : SinkEffect b c) : SinkEffect a c :=
  ⟨h.run.trans ⟨⟨k.run.bindings.fw, k.run.bindings.fwst0, k.run.bindings.params, k.run.bindings.trace⟩, rfl,
    k.run.moment, k.run.pins, k.run.latch, k.run.accept, k.run.tick⟩, k.sink ∘ h.sink⟩
theorem RunEffect.sinkEffect {s t : State} (h : RunEffect s t) : SinkEffect s t :=
  ⟨⟨⟨h.bindings.fw, h.bindings.fwst0, h.bindings.params, h.bindings.trace⟩, rfl,
    h.moment, h.pins, h.latch, h.accept, h.tick⟩, by unfold SinkOk; rw [h.snk]; exact id⟩
/-- A change of the sink's state and of the host's results. -/
theorem SinkEffect.of_sink (s : State) (k : Sink) (e : List HostError) (o : Option Bool) (x : Option Nat)
    (h : SinkOk s → SinkOk { s with snk := k }) :
    SinkEffect s { s with snk := k, errors := e, outcome := o, exitStatus := x } :=
  ⟨RunEffect.host s _ _ _ _ _, h⟩

theorem startSink_sinkOk (data : List Byte) (s : State) : SinkOk (startSink data s) := by
  simp [SinkOk, startSink, Config.amplitude]

theorem startSink_effect (data : List Byte) (s : State) : SinkEffect s (startSink data s) :=
  ⟨RunEffect.host s _ _ _ _ _, fun _ => startSink_sinkOk data s⟩

/-- Division by 3 toward zero, by the sign (R11, R320). -/
theorem tdiv_three (x : Int) : (0 ≤ x ∧ Int.tdiv x 3 = x / 3) ∨ (x < 0 ∧ Int.tdiv x 3 = -(-x / 3)) := by
  rcases lt_or_ge x 0 with h | h
  · refine .inr ⟨h, ?_⟩
    rw [← Int.tdiv_eq_ediv_of_nonneg (by omega : 0 ≤ -x), Int.neg_tdiv, neg_neg]
  · exact .inl ⟨h, Int.tdiv_eq_ediv_of_nonneg h⟩

/-- The filter keeps its value within the amplitude (R320). -/
theorem filterValue_bounded {p : Int} (level : Bool) (h : -Config.amplitude ≤ p ∧ p ≤ Config.amplitude) :
    -Config.amplitude ≤ filterValue p level ∧ filterValue p level ≤ Config.amplitude := by
  unfold filterValue
  simp only [Config.amplitude] at *
  cases level
  · rcases tdiv_three (2 * p + -120) with h | h <;> simp [h.2] <;> omega
  · rcases tdiv_three (2 * p + 120) with h | h <;> simp [h.2] <;> omega

theorem trackLevel_effect (s : State) : SinkEffect s (trackLevel s) := by
  unfold trackLevel
  split
  · exact .refl s
  · exact SinkEffect.of_sink s _ s.errors s.outcome s.exitStatus id

theorem filterLevel_effect (s : State) : SinkEffect s (filterLevel s) :=
  SinkEffect.of_sink s _ s.errors s.outcome s.exitStatus fun h => ⟨filterValue_bounded _ h.1, h.2⟩

theorem emitLoop_effect : ∀ (fuel : Nat) (s : State), SinkEffect s (emitLoop fuel s)
  | 0, s => .refl s
  | fuel + 1, s => by
    unfold emitLoop
    split
    · refine SinkEffect.trans ?_ (emitLoop_effect fuel _)
      exact SinkEffect.of_sink s _ s.errors s.outcome s.exitStatus fun h => ⟨h.1, by simp [h.2]⟩
    · exact .refl s

theorem emitSamples_effect (s : State) : SinkEffect s (emitSamples s) := emitLoop_effect _ _
theorem finishSink_effect (ok : Bool) (s : State) : SinkEffect s (finishSink ok s) :=
  SinkEffect.of_sink s _ s.errors _ _ id

theorem SinkEffect.legal {s t : State} (h : SinkEffect s t) (hl : s.fw.legal = true) : t.fw.legal = true := by
  have := h.run.bindings.fw
  simp only at this
  rw [this]; exact hl

/-- What the write of the next byte can do (R313, R314). -/
theorem sendNext_eq_next {s t : State} (h : sendNext s = .next t) :
    ((s.tick < s.snk.leaderEnd ∨ s.snk.data[s.snk.pos]? = none) ∧ t = s) ∨
    (s.snk.leaderEnd ≤ s.tick ∧ ∃ b u, s.snk.data[s.snk.pos]? = some b ∧ busWriteOf .data b s = .next u ∧
      t = { u with snk := { u.snk with pos := u.snk.pos + 1, endTime := u.tick + u.params.clockHz } }) := by
  unfold sendNext at h
  split at h
  next hl =>
    split at h
    next hn => cases h; exact .inl ⟨.inr hn, rfl⟩
    next b hb =>
      obtain ⟨u, h1, h2⟩ := andThen_eq_next.mp h
      cases h2
      exact .inr ⟨hl, b, u, hb, h1, rfl⟩
  next hl => cases h; exact .inl ⟨.inl (by omega), rfl⟩

theorem sendNext_effect {s t : State} (h : sendNext s = .next t) : SinkEffect s t := by
  rcases sendNext_eq_next h with ⟨-, rfl⟩ | ⟨-, b, u, -, h1, rfl⟩
  · exact .refl _
  · exact (busWriteOf_run h1).sinkEffect.trans
      (SinkEffect.of_sink u _ u.errors u.outcome u.exitStatus id)

theorem sendNext_total {s : State} (h : s.fw.legal = true) : ∃ t, sendNext s = .next t := by
  unfold sendNext
  split
  · split
    · exact ⟨s, rfl⟩
    · next b _ =>
      obtain ⟨u, hu⟩ := busWriteOf_total (r := .data) (v := b) h
      exact andThen_total hu ⟨_, rfl⟩
  · exact ⟨s, rfl⟩

/-- What one pass of a sink run can do (R312). -/
theorem sinkLoop_succ_eq_next {fuel : Nat} {s t : State} (h : sinkLoop (fuel + 1) s = .next t) :
    (s.snk.endTime ≤ s.tick ∧ t = finishSink true s) ∨
    (s.tick < s.snk.endTime ∧ ∃ u v w,
      busReadOf .control s = .next u ∧
      whenDo (statusHasRoom u.params u.hostResult) sendNext u = .next v ∧
      stepTick v = .next w ∧
      ((outputStuck w = true ∧ t = finishSink false (recordError (.bufferStuck w.tick) w)) ∨
        (outputStuck w = false ∧ sinkLoop fuel (emitSamples (filterLevel (trackLevel w))) = .next t))) := by
  simp only [sinkLoop] at h
  split at h
  next he =>
    obtain ⟨u, h1, h⟩ := andThen_eq_next.mp h
    obtain ⟨v, h2, h⟩ := andThen_eq_next.mp h
    obtain ⟨w, h3, h⟩ := andThen_eq_next.mp h
    refine .inr ⟨he, u, v, w, h1, h2, h3, ?_⟩
    cases hs : outputStuck w with
    | true => rw [hs] at h; cases h; exact .inl ⟨rfl, rfl⟩
    | false => rw [hs] at h; exact .inr ⟨rfl, h⟩
  next he => cases h; exact .inl ⟨by omega, rfl⟩

theorem sinkLoop_effect : ∀ {fuel : Nat} {s t : State}, sinkLoop fuel s = .next t → SinkEffect s t
  | 0, s, t, h => by cases h; exact finishSink_effect _ _
  | fuel + 1, s, t, h => by
    rcases sinkLoop_succ_eq_next h with ⟨-, rfl⟩ | ⟨-, u, v, w, h1, h2, h3, h4⟩
    · exact finishSink_effect _ _
    · refine (((busReadOf_run h1).sinkEffect.trans
        (whenDo_effect SinkEffect.refl (fun _ _ => sendNext_effect) h2)).trans (stepTick_run h3).sinkEffect).trans ?_
      rcases h4 with ⟨-, rfl⟩ | ⟨-, h4⟩
      · exact SinkEffect.of_sink w _ _ _ _ id
      · exact (((trackLevel_effect w).trans (filterLevel_effect _)).trans (emitSamples_effect _)).trans
          (sinkLoop_effect h4)

theorem sinkLoop_total : ∀ {fuel : Nat} {s : State}, s.fw.legal = true → ∃ t, sinkLoop fuel s = .next t
  | 0, s, _ => ⟨_, rfl⟩
  | fuel + 1, s, h => by
    simp only [sinkLoop]
    split
    · obtain ⟨u, h1⟩ := busReadOf_total (r := .control) h
      have f1 := (busReadOf_run h1).legal h
      obtain ⟨v, h2⟩ := whenDo_total (b := statusHasRoom u.params u.hostResult) (sendNext_total f1)
      have f2 := (whenDo_effect SinkEffect.refl (fun _ _ => sendNext_effect) h2).legal f1
      obtain ⟨w, h3⟩ := stepTick_total f2
      have f3 := (stepTick_run h3).legal f2
      refine andThen_total h1 (andThen_total h2 (andThen_total h3 ?_))
      split
      · exact ⟨_, rfl⟩
      · refine sinkLoop_total (SinkEffect.legal ?_ f3)
        exact ((trackLevel_effect w).trans (filterLevel_effect _)).trans (emitSamples_effect _)
    · exact ⟨_, rfl⟩

theorem sinkRunAll_effect {data : List Byte} {s t : State} (h : sinkRunAll data s = .next t) : SinkEffect s t :=
  ((startSink_effect data s).trans (emitSamples_effect _)).trans (sinkLoop_effect h)

theorem sinkRunAll_total {data : List Byte} {s : State} (h : s.fw.legal = true) :
    ∃ t, sinkRunAll data s = .next t :=
  sinkLoop_total (((startSink_effect data s).trans (emitSamples_effect _)).legal h)

end Sys2Proof.Machine
end

