-- ==== Sys2Proof/Laws/HostState.lean ====
section
/-! SUPPORT. Laws/HostState.lean: the operations on the block neither read nor write the host's own state (the decoder,
the adapters, what the procedures recorded), so a procedure is its host operations, whatever that state is. -/

namespace Sys2Proof.Machine

/-- The host's own state: its procedures and what they recorded (R52, R340, R341). -/
structure HostPart where
  dec : Decoder
  src : Source
  snk : Sink
  errors : List HostError
  outcome : Option Bool
  exitStatus : Option Nat

/-- A state with another host's own state. -/
def withHost (h : HostPart) (s : State) : State :=
  { s with dec := h.dec, src := h.src, snk := h.snk, errors := h.errors, outcome := h.outcome, exitStatus := h.exitStatus }

/-- An operation neither reads nor writes the host's own state. -/
def HostFree (f : State → Result) : Prop := ∀ h s t, f s = .next t → f (withHost h s) = .next (withHost h t)

/-- So it leaves the host's own state as it is. -/
theorem HostFree.kept {f : State → Result} (hf : HostFree f) {s t : State} (h : f s = .next t) :
    t = withHost ⟨s.dec, s.src, s.snk, s.errors, s.outcome, s.exitStatus⟩ t := by
  have e := hf ⟨s.dec, s.src, s.snk, s.errors, s.outcome, s.exitStatus⟩ s t h
  rw [show withHost ⟨s.dec, s.src, s.snk, s.errors, s.outcome, s.exitStatus⟩ s = s from rfl, h] at e
  exact Host.Outcome.next.inj e

theorem HostFree.next {g : State → State} (hg : ∀ h s, g (withHost h s) = withHost h (g s)) :
    HostFree fun s => .next (g s) := by
  intro h s t e; cases e; simp only [hg]

theorem HostFree.andThen {f k : State → Result} (hf : HostFree f) (hk : HostFree k) :
    HostFree fun s => andThen (f s) k := by
  intro h s t e
  obtain ⟨u, h1, h2⟩ := andThen_eq_next.mp e
  simp only [hf h s u h1, andThen_next, hk h u t h2]

theorem HostFree.before {g : State → State} (hg : ∀ h s, g (withHost h s) = withHost h (g s)) {k : State → Result}
    (hk : HostFree k) : HostFree fun s => k (g s) := by
  intro h s t e; simp only [hg]; exact hk h _ t e

theorem HostFree.ite {p : State → Prop} [DecidablePred p] (hp : ∀ h s, p (withHost h s) ↔ p s) {f k : State → Result}
    (hf : HostFree f) (hk : HostFree k) : HostFree fun s => if p s then f s else k s := by
  intro h s t e
  dsimp only at e ⊢
  split at e
  · rename_i q; rw [if_pos ((hp h s).mpr q)]; exact hf h s t e
  · rename_i q; rw [if_neg (fun w => q ((hp h s).mp w))]; exact hk h s t e

theorem runStub_hostFree (p : FwStmt) : HostFree (runStub p) := by
  intro h s t e
  obtain ⟨d, hd, ag⟩ := runStub_agree (a := s) (b := withHost h s) ⟨rfl, rfl, rfl⟩ e
  rw [hd, (runStub_effect hd).same, (runStub_effect e).same, ← ag.1, ← ag.2.1]
  rfl

theorem call_hostFree (c : Callback) : HostFree (call c) := by
  intro h s t e
  obtain ⟨u, h1, h2⟩ := andThen_eq_next.mp e
  cases h2
  rw [call, show stubOf (withHost h s).fw c = stubOf s.fw c from rfl,
    show enterCallback c (withHost h s) = withHost h (enterCallback c s) from rfl, runStub_hostFree _ h _ u h1]
  rfl

theorem dispatchSource_hostFree (src : TimerSource) : HostFree (dispatchSource src) :=
  .ite (fun _ _ => Iff.rfl) ((call_hostFree _).andThen (.next fun _ _ => rfl)) (.next fun _ _ => rfl)

theorem overflowEvent_hostFree (n : Channel) : HostFree (overflowEvent n) :=
  .before (g := fun s => { s with csr := setFlag s.csr ⟨n, .ovf⟩ }) (fun _ _ => rfl) (dispatchSource_hostFree _)
theorem matchBEvent_hostFree (n : Channel) : HostFree (matchBEvent n) :=
  .before (g := fun s => { s with csr := setFlag s.csr ⟨n, .compB⟩ }) (fun _ _ => rfl) (dispatchSource_hostFree _)
theorem matchAEvent_hostFree (n : Channel) : HostFree (matchAEvent n) :=
  .before (g := fun s => if n = .t2 then matchTimer2 { s with csr := setFlag s.csr ⟨n, .compA⟩ }
    else { s with csr := setFlag s.csr ⟨n, .compA⟩ }) (fun _ _ => by split <;> rfl) (dispatchSource_hostFree _)

theorem whenDo_hostFree {b : State → Bool} {f : State → Result} (hb : ∀ h s, b (withHost h s) = b s) (hf : HostFree f) :
    HostFree fun s => whenDo (b s) f s :=
  .ite (p := fun s => b s = true) (fun h s => by rw [hb]) hf (.next fun _ _ => rfl)

theorem timerTickOf_hostFree (n : Channel) : HostFree (timerTickOf n) := by
  intro h s t e
  obtain ⟨u, h1, h2⟩ := andThen_eq_next.mp e
  obtain ⟨v, h3, h4⟩ := andThen_eq_next.mp h2
  have a := whenDo_hostFree (b := fun _ => counter s.csr n == channelModulus n - 1) (fun _ _ => rfl)
    (overflowEvent_hostFree n) h _ _ h1
  have b := whenDo_hostFree (b := fun _ => _) (fun _ _ => rfl) (matchAEvent_hostFree n) h _ _ h3
  have c := whenDo_hostFree (b := fun _ => _) (fun _ _ => rfl) (matchBEvent_hostFree n) h _ _ h4
  exact andThen_eq_next.mpr ⟨_, a, andThen_eq_next.mpr ⟨_, b, c⟩⟩

theorem channelTurn_hostFree (n : Channel) : HostFree (channelTurn n) :=
  whenDo_hostFree (fun _ _ => rfl) (timerTickOf_hostFree n)

theorem stepLines_hostFree : HostFree stepLines :=
  .andThen (.before (g := fun s => { s with tick := s.tick + 1 }) (fun _ _ => rfl) (channelTurn_hostFree .t0))
    ((channelTurn_hostFree .t1).andThen ((channelTurn_hostFree .t2).andThen ((call_hostFree .loop).andThen
      (.next fun _ _ => rfl))))

theorem stepTick_hostFree : HostFree stepTick := by
  intro h s t e
  obtain ⟨u, hu, rfl⟩ := stepTick_lines e
  exact andThen_eq_next.mpr ⟨_, stepLines_hostFree h _ u hu, rfl⟩

theorem stepTimes_hostFree : ∀ n, HostFree (stepTimes n)
  | 0 => .next fun _ _ => rfl
  | n + 1 => stepTick_hostFree.andThen (stepTimes_hostFree n)

theorem runToTick_hostFree (n : Nat) : HostFree (runToTick n) :=
  fun h s t e => stepTimes_hostFree (n - s.tick) h s t e

theorem feedLevel_hostFree (l : Bool) : HostFree (feedLevel l) := by
  intro h s t e
  unfold feedLevel at e ⊢
  split at e
  next q =>
    obtain ⟨u, h1, h2⟩ := andThen_eq_next.mp e
    rw [if_pos (show l ≠ (withHost h s).prevLevel ∧ transitionAccepted (withHost h s) = true from q)]
    exact andThen_eq_next.mpr ⟨_,
      whenDo_hostFree (b := fun _ => _) (fun _ _ => rfl) (call_hostFree .capture) h _ _ h1,
      HostFree.next (g := fun s => { s with prevLevel := l, lastAccept := some s.tick }) (fun _ _ => rfl) h _ _ h2⟩
  next q =>
    rw [if_neg (show ¬ (l ≠ (withHost h s).prevLevel ∧ transitionAccepted (withHost h s) = true) from q)]
    cases e; rfl

theorem busReadOf_hostFree (r : BusReg) : HostFree (busReadOf r) :=
  .andThen
    (.before (g := fun s => { s with csr := fieldWrite (fieldWrite s.csr .addr (busRegBits r)) .rds 1 })
      (fun _ _ => rfl) (call_hostFree .pcRead))
    (.next fun _ _ => rfl)
theorem busWriteOf_hostFree (r : BusReg) (v : Byte) : HostFree (busWriteOf r v) :=
  .andThen
    (.before (g := fun s => { s with
        csr := fieldWrite (fieldWrite { s.csr with busdata := v } .addr (busRegBits r)) .wrs 1 })
      (fun _ _ => rfl) (call_hostFree .pcWrite))
    (.next fun _ _ => rfl)

/-! ### `POLL` does not read the source adapter -/

/-- A state with another source adapter. -/
def withSource (k : Source) (s : State) : State := { s with src := k }

/-- An operation neither reads nor writes the source adapter. -/
def SourceFree (f : State → Result) : Prop := ∀ k s t, f s = .next t → f (withSource k s) = .next (withSource k t)

theorem HostFree.sourceFree {f : State → Result} (hf : HostFree f) : SourceFree f := by
  intro k s t e
  rw [show withSource k s = withHost ⟨s.dec, k, s.snk, s.errors, s.outcome, s.exitStatus⟩ s from rfl, hf _ _ _ e,
    hf.kept e]
  rfl

theorem compareNext_withSource (ref : List Byte) (b : Byte) (k : Source) (s : State) :
    compareNext ref b (withSource k s) = withSource k (compareNext ref b s) := by
  unfold compareNext
  cases h : ref[s.dec.refPos]? with
  | none => rw [show (withSource k s).dec = s.dec from rfl, h]; rfl
  | some e => rw [show (withSource k s).dec = s.dec from rfl, h]; dsimp only; split <;> rfl
theorem compareByte_withSource (b : Byte) (k : Source) (s : State) :
    compareByte b (withSource k s) = withSource k (compareByte b s) := by
  unfold compareByte
  rw [show (withSource k s).dec = s.dec from rfl]
  split
  · rfl
  · split
    · rfl
    · next d _ => exact compareNext_withSource _ _ k { s with dec := d }

theorem receiveByte_sourceFree : SourceFree receiveByte := by
  intro k s t e
  obtain ⟨u, h1, rfl⟩ := receiveByte_eq_next e
  rw [receiveByte, (busReadOf_hostFree .data).sourceFree k s u h1]
  exact congrArg Host.Outcome.next (compareByte_withSource _ k
    { u with dec := { u.dec with received := u.dec.received ++ [u.hostResult] } })

theorem unlessStopped_sourceFree {k : Source} {s t : State} {f g : State → Result}
    (hf : f s = .next t → g (withSource k s) = .next (withSource k t)) (h : unlessStopped s f = .next t) :
    unlessStopped (withSource k s) g = .next (withSource k t) := by
  rcases unlessStopped_eq_next.mp h with ⟨hs, rfl⟩ | ⟨hs, h⟩
  · exact unlessStopped_eq_next.mpr (.inl ⟨hs, rfl⟩)
  · exact unlessStopped_eq_next.mpr (.inr ⟨hs, hf h⟩)

theorem handleStatus_sourceFree (st : Byte) : SourceFree (handleStatus st) := by
  intro k s t e
  have e1 : ∀ (p : Bool) (f : State → HostError) (s : State), (∀ s, f (withSource k s) = f s) →
      (if p then decoderError (f (withSource k s)) (withSource k s) else withSource k s)
        = withSource k (if p then decoderError (f s) s else s) := by
    intro p f s hf; rw [hf]; split <;> rfl
  unfold handleStatus at e ⊢
  dsimp only at e ⊢
  rw [e1 (st.getLsbD 3) (fun s => .framing s.tick) s fun _ => rfl]
  refine unlessStopped_sourceFree (fun h => ?_) e
  generalize (if st.getLsbD 3 = true then decoderError (.framing s.tick) s else s) = u at h ⊢
  rw [e1 (st.getLsbD 2) (fun s => .parity s.tick) u fun _ => rfl]
  refine unlessStopped_sourceFree (fun h => ?_) h
  split at h
  · next hb => cases h; rw [if_pos hb]
  · next hb => rw [if_neg hb]; exact receiveByte_sourceFree k _ _ h

theorem pollOnce_sourceFree : SourceFree pollOnce := by
  intro k s t e
  refine unlessStopped_sourceFree (fun h => ?_) e
  obtain ⟨u, h1, h2⟩ := andThen_eq_next.mp h
  exact andThen_eq_next.mpr ⟨_, (busReadOf_hostFree .control).sourceFree k s u h1, handleStatus_sourceFree _ k u t h2⟩

end Sys2Proof.Machine
end

