-- ==== Sys2Proof/Laws/Passive.lean ====
section
/-! SUPPORT. Laws/Passive.lean: what the ticks do with a firmware that writes no register once it has booted
(Safety.lean, `Firmware.passive`): each register but the flags, the flags that stay, and the output. -/

namespace Sys2Proof.Machine

/-! ### Fields of the flag registers -/

/-- All the registers but the flag registers are the same. -/
structure NotFlags (c d : Csrs) : Prop where
  same : d = { c with tifr0 := d.tifr0, tifr1 := d.tifr1, tifr2 := d.tifr2 }
theorem NotFlags.refl (c : Csrs) : NotFlags c c := ⟨rfl⟩
theorem NotFlags.trans {a b c : Csrs} (h : NotFlags a b) (k : NotFlags b c) : NotFlags a c :=
  ⟨by rw [k.same, h.same]⟩
theorem fieldWrite_flag_notFlags (c : Csrs) (src : TimerSource) (v : Byte) :
    NotFlags c (fieldWrite c (flagField src) v) := by
  obtain ⟨n, e⟩ := src; cases n <;> cases e <;> exact ⟨rfl⟩

theorem stubOf_passive_legal {fw : Firmware} (h : fw.passive = true) {c : Callback} (hc : c ≠ .setup) :
    (stubOf fw c).legal = true :=
  FwStmt_passive_legal (stubOf_passive h hc)

theorem flagField_inj {a b : TimerSource} (h : a ≠ b) : flagField a ≠ flagField b := by
  obtain ⟨n, e⟩ := a; obtain ⟨m, f⟩ := b
  intro hh
  apply h
  revert hh
  cases n <;> cases e <;> cases m <;> cases f <;> decide
theorem enableField_ne (a b : TimerSource) : enableField a ≠ flagField b := by
  obtain ⟨n, e⟩ := a; obtain ⟨m, f⟩ := b
  cases n <;> cases e <;> cases m <;> cases f <;> decide
theorem flag_width (src : TimerSource) : (flagField src).pos.width = 1 := by
  obtain ⟨n, e⟩ := src; cases n <;> cases e <;> rfl
theorem flagged_set_same (c : Csrs) (src : TimerSource) : flagged (setFlag c src) src = true := by
  rw [flagged, setFlag, fieldRead_fieldWrite_same _ _ (by rw [flag_width]; decide)]; rfl
theorem flagged_clear_same (c : Csrs) (src : TimerSource) : flagged (clearFlag c src) src = false := by
  rw [flagged, clearFlag, fieldRead_fieldWrite_same _ _ (by rw [flag_width]; decide)]; rfl
theorem flagged_set_ne (c : Csrs) {a b : TimerSource} (h : b ≠ a) : flagged (setFlag c a) b = flagged c b := by
  rw [flagged, setFlag, fieldRead_fieldWrite_ne (flagField_inj h)]; rfl
theorem flagged_clear_ne (c : Csrs) {a b : TimerSource} (h : b ≠ a) : flagged (clearFlag c a) b = flagged c b := by
  rw [flagged, clearFlag, fieldRead_fieldWrite_ne (flagField_inj h)]; rfl
theorem enabled_set (c : Csrs) (a b : TimerSource) : enabled (setFlag c a) b = enabled c b := by
  rw [enabled, setFlag, fieldRead_fieldWrite_ne (enableField_ne b a)]; rfl
theorem NotFlags.enabled_eq {c d : Csrs} (h : NotFlags c d) (b : TimerSource) : enabled d b = enabled c b := by
  rw [h.same]; obtain ⟨n, e⟩ := b; cases n <;> cases e <;> rfl

theorem timer_ne (src) : Callback.timer src ≠ .setup := by simp

/-! ### The events, with a passive firmware -/

/-- A dispatch whose handler writes no register clears the flag, or does nothing (R175). -/
theorem dispatchSource_passive {src : TimerSource} {s t : State}
    (hp : (stubOf s.fw (.timer src)).passive = true) (h : dispatchSource src s = .next t) :
    t.csr = if enabled s.csr src then clearFlag s.csr src else s.csr := by
  rcases dispatchSource_eq_next.mp h with ⟨he, u, hu, rfl⟩ | ⟨he, rfl⟩
  · rw [he]; simp only [call_passive_csr hu hp, if_true]
  · rw [he]; rfl

/-- The registers after an event whose handler writes none: the flag is set, and cleared again if it is dispatched
(R165, R175). -/
def eventCsrs (c : Csrs) (src : TimerSource) : Csrs :=
  if enabled c src then clearFlag (setFlag c src) src else setFlag c src

theorem eventCsrs_notFlags (c : Csrs) (src) : NotFlags c (eventCsrs c src) := by
  unfold eventCsrs; split
  · exact NotFlags.trans (fieldWrite_flag_notFlags _ _ _) (fieldWrite_flag_notFlags _ _ _)
  · exact fieldWrite_flag_notFlags _ _ _
/-- A flag whose enable bit is 0 survives an event (R176). -/
theorem eventCsrs_sticky (c : Csrs) (a b) (he : enabled c b = false) (hf : flagged c b = true) :
    flagged (eventCsrs c a) b = true := by
  unfold eventCsrs
  by_cases h : b = a
  · subst h; rw [he]; exact flagged_set_same _ _
  · split
    · rw [flagged_clear_ne _ h, flagged_set_ne _ h, hf]
    · rw [flagged_set_ne _ h, hf]

theorem overflowEvent_passive {n} {s t : State} (hp : (stubOf s.fw (.timer ⟨n, .ovf⟩)).passive = true)
    (h : overflowEvent n s = .next t) : t.csr = eventCsrs s.csr ⟨n, .ovf⟩ := by
  have := dispatchSource_passive (s := { s with csr := setFlag s.csr ⟨n, .ovf⟩ }) hp h
  rw [this]; simp only [enabled_set]; rfl
theorem matchBEvent_passive {n} {s t : State} (hp : (stubOf s.fw (.timer ⟨n, .compB⟩)).passive = true)
    (h : matchBEvent n s = .next t) : t.csr = eventCsrs s.csr ⟨n, .compB⟩ := by
  have := dispatchSource_passive (s := { s with csr := setFlag s.csr ⟨n, .compB⟩ }) hp h
  rw [this]; simp only [enabled_set]; rfl
theorem matchAEvent_passive_of_ne {n} (hn : n ≠ .t2) {s t : State}
    (hp : (stubOf s.fw (.timer ⟨n, .compA⟩)).passive = true) (h : matchAEvent n s = .next t) :
    t.csr = eventCsrs s.csr ⟨n, .compA⟩ := by
  unfold matchAEvent at h; simp only [if_neg hn] at h
  have := dispatchSource_passive (s := { s with csr := setFlag s.csr ⟨n, .compA⟩ }) hp h
  rw [this]; simp only [enabled_set]; rfl
theorem matchAEvent_passive_t2 {s t : State} (hp : (stubOf s.fw (.timer ⟨.t2, .compA⟩)).passive = true)
    (h : matchAEvent .t2 s = .next t) :
    t.csr = (if wgm2 s.csr = Config.wgm2Ctc then { eventCsrs s.csr ⟨.t2, .compA⟩ with tcnt2 := 0 }
      else eventCsrs s.csr ⟨.t2, .compA⟩) ∧ t.oc2aMatch = true := by
  unfold matchAEvent at h; simp only [if_true] at h
  have h0 := h
  have := dispatchSource_passive (s := matchTimer2 { s with csr := setFlag s.csr ⟨.t2, .compA⟩ }) hp h
  constructor
  · rw [this]
    have hw : wgm2 (setFlag s.csr ⟨.t2, .compA⟩) = wgm2 s.csr := rfl
    unfold matchTimer2; simp only [hw]
    have e1 : ∀ c : Csrs, enabled (setCounter c .t2 0) ⟨.t2, .compA⟩ = enabled c ⟨.t2, .compA⟩ := fun _ => rfl
    split
    · simp only [e1, enabled_set]; unfold eventCsrs; split <;> rfl
    · simp only [enabled_set]; rfl
  · rcases dispatchSource_eq_next.mp h0 with ⟨he, u, hu, rfl⟩ | ⟨he, rfl⟩
    · simp only; rw [(call_eq_next hu).1]; rfl
    · rfl

theorem whenDo_eq_next {b f} {s t : State} :
    whenDo b f s = .next t ↔ (b = true ∧ f s = .next t) ∨ (b = false ∧ t = s) := by
  cases b <;> simp [whenDo, eq_comm]

theorem overflowEvent_oc2aMatch {n} {s t : State} (h : overflowEvent n s = .next t) : t.oc2aMatch = s.oc2aMatch := by
  rcases dispatchSource_eq_next.mp h with ⟨he, u, hu, rfl⟩ | ⟨he, rfl⟩
  · simp only; rw [(call_eq_next hu).1]
  · rfl
theorem matchBEvent_oc2aMatch {n} {s t : State} (h : matchBEvent n s = .next t) : t.oc2aMatch = s.oc2aMatch := by
  rcases dispatchSource_eq_next.mp h with ⟨he, u, hu, rfl⟩ | ⟨he, rfl⟩
  · simp only; rw [(call_eq_next hu).1]
  · rfl
theorem matchAEvent_oc2aMatch {n} {s t : State} (h : matchAEvent n s = .next t) :
    t.oc2aMatch = (s.oc2aMatch || decide (n = .t2)) := by
  unfold matchAEvent at h
  by_cases hn : n = .t2
  · simp only [if_pos hn] at h
    rcases dispatchSource_eq_next.mp h with ⟨he, u, hu, rfl⟩ | ⟨he, rfl⟩
    · simp only; rw [(call_eq_next hu).1]; simp [hn, matchTimer2]
    · simp [hn, matchTimer2]
  · simp only [if_neg hn] at h
    rcases dispatchSource_eq_next.mp h with ⟨he, u, hu, rfl⟩ | ⟨he, rfl⟩
    · simp only; rw [(call_eq_next hu).1]; simp [hn]
    · simp [hn]

theorem NotFlags.counter_eq {c d : Csrs} (h : NotFlags c d) (n) : counter d n = counter c n := by
  rw [h.same]; cases n <;> rfl
theorem NotFlags.compareA_eq {c d : Csrs} (h : NotFlags c d) (n) : compareA d n = compareA c n := by
  rw [h.same]; cases n <;> rfl
theorem NotFlags.compareB_eq {c d : Csrs} (h : NotFlags c d) (n) : compareB d n = compareB c n := by
  rw [h.same]; cases n <;> rfl
theorem NotFlags.divisor_eq {c d : Csrs} (h : NotFlags c d) (n) : divisor d n = divisor c n := by
  rw [h.same]; cases n <;> rfl
theorem NotFlags.wgm2_eq {c d : Csrs} (h : NotFlags c d) : wgm2 d = wgm2 c := by rw [h.same]; rfl
theorem NotFlags.com2a_eq {c d : Csrs} (h : NotFlags c d) : fieldRead d .com2a = fieldRead c .com2a := by rw [h.same]; rfl
theorem NotFlags.foc2a_eq {c d : Csrs} (h : NotFlags c d) : fieldRead d .foc2a = fieldRead c .foc2a := by rw [h.same]; rfl

/-! ### Ticks, with a passive firmware -/

/-- All the timer handlers are passive. -/
def TimersPassive (fw : Firmware) : Prop := ∀ src, (stubOf fw (.timer src)).passive = true

theorem Firmware_passive_timers {fw : Firmware} (h : fw.passive = true) : TimersPassive fw :=
  fun src => stubOf_passive h (timer_ne src)

/-- A tick of a channel (R160): the count, the latch of Timer2, the flags that stay. -/
theorem timerTickOf_passive {n} {s t : State} (hp : TimersPassive s.fw) (h : timerTickOf n s = .next t) :
    let c := (counter s.csr n + 1) % channelModulus n
    NotFlags (setCounter s.csr n
      (if n = .t2 ∧ c = compareA s.csr n ∧ wgm2 s.csr = Config.wgm2Ctc then 0 else c)) t.csr ∧
    t.oc2aMatch = (s.oc2aMatch || decide (n = .t2 ∧ c = compareA s.csr n)) ∧
    (∀ src, enabled s.csr src = false → flagged s.csr src = true → flagged t.csr src = true) := by
  dsimp only
  obtain ⟨u, h1, h2⟩ := andThen_eq_next.mp h
  obtain ⟨v, h3, h4⟩ := andThen_eq_next.mp h2
  clear h h2
  dsimp only at h1 h3 h4
  generalize (counter s.csr n + 1) % channelModulus n = c at h1 h3 h4 ⊢
  have hpu : TimersPassive u.fw := by
    rw [(whenDo_effect TimerEffect.refl (fun _ _ => overflowEvent_effect) h1).fw]; exact hp
  have hpv : TimersPassive v.fw := by
    rw [(whenDo_effect TimerEffect.refl (fun _ _ => matchAEvent_effect) h3).fw]; exact hpu
  have s0 : ∀ src, enabled (setCounter s.csr n c) src = enabled s.csr src ∧
      flagged (setCounter s.csr n c) src = flagged s.csr src := by
    intro ⟨m, e⟩; cases n <;> cases m <;> cases e <;> exact ⟨rfl, rfl⟩
  have fu : NotFlags (setCounter s.csr n c) u.csr ∧ u.oc2aMatch = s.oc2aMatch ∧
      (∀ src, enabled s.csr src = false → flagged s.csr src = true → flagged u.csr src = true) := by
    rcases whenDo_eq_next.mp h1 with ⟨-, h⟩ | ⟨-, rfl⟩
    · have e := overflowEvent_passive (s := { s with csr := setCounter s.csr n c })
        (hp _) h
      have e2 := overflowEvent_oc2aMatch (s := { s with csr := setCounter s.csr n c }) h
      rw [e]
      refine ⟨eventCsrs_notFlags _ _, e2, fun src a b => eventCsrs_sticky _ _ _ ?_ ?_⟩
      · exact (s0 src).1.trans a
      · exact (s0 src).2.trans b
    · exact ⟨NotFlags.refl _, rfl, fun src _ b => (s0 src).2.trans b⟩
  have cA : compareA (setCounter s.csr n c) n = compareA s.csr n := by cases n <;> rfl
  have cB : compareB (setCounter s.csr n c) n = compareB s.csr n := by cases n <;> rfl
  have wg : wgm2 (setCounter s.csr n c) = wgm2 s.csr := by cases n <;> rfl
  simp only [cA] at h3
  have eu : ∀ src, enabled u.csr src = enabled s.csr src := fun src => by
    rw [NotFlags.enabled_eq fu.1, (s0 src).1]
  have fv : NotFlags (setCounter s.csr n
      (if n = .t2 ∧ c = compareA s.csr n ∧ wgm2 s.csr = Config.wgm2Ctc then 0 else c)) v.csr ∧
      v.oc2aMatch = (s.oc2aMatch || decide (n = .t2 ∧ c = compareA s.csr n)) ∧
      (∀ src, enabled s.csr src = false → flagged s.csr src = true → flagged v.csr src = true) := by
    rcases whenDo_eq_next.mp h3 with ⟨hb, h⟩ | ⟨hb, rfl⟩
    · have hb : c = compareA s.csr n := by simpa using hb
      by_cases hn : n = .t2
      · subst hn
        obtain ⟨e1, e2⟩ := matchAEvent_passive_t2 (hpu _) h
        rw [NotFlags.wgm2_eq fu.1, wg] at e1
        refine ⟨?_, by rw [e2]; simp [hb], ?_⟩
        · rw [e1]
          have := NotFlags.trans fu.1 (eventCsrs_notFlags u.csr ⟨.t2, .compA⟩)
          simp only [true_and]
          by_cases hw : wgm2 s.csr = Config.wgm2Ctc
          · rw [if_pos hw, if_pos ⟨hb, hw⟩]
            constructor; rw [this.same]; rfl
          · rw [if_neg hw, if_neg (fun hh => hw hh.2)]; exact this
        · intro src a b
          have := eventCsrs_sticky u.csr ⟨.t2, .compA⟩ src ((eu src).trans a) (fu.2.2 src a b)
          rw [e1]; split
          · obtain ⟨m, e⟩ := src; cases m <;> cases e <;> exact this
          · exact this
      · have e1 := matchAEvent_passive_of_ne hn (hpu _) h
        have e2 := matchAEvent_oc2aMatch h
        refine ⟨?_, by rw [e2, fu.2.1]; simp [hn], ?_⟩
        · rw [e1, if_neg (fun hh => hn hh.1)]; exact NotFlags.trans fu.1 (eventCsrs_notFlags _ _)
        · intro src a b
          rw [e1]; exact eventCsrs_sticky u.csr _ src ((eu src).trans a) (fu.2.2 src a b)
    · have hb : c ≠ compareA s.csr n := by simpa using hb
      refine ⟨?_, ?_, fu.2.2⟩
      · rw [if_neg (fun hh => hb hh.2.1)]; exact fu.1
      · rw [fu.2.1]; simp [hb]
  have ev : ∀ src, enabled v.csr src = enabled s.csr src := fun src => by
    rw [NotFlags.enabled_eq fv.1]; obtain ⟨m, e⟩ := src; cases n <;> cases m <;> cases e <;> rfl
  rcases whenDo_eq_next.mp h4 with ⟨-, h⟩ | ⟨-, rfl⟩
  · rw [matchBEvent_passive (hpv _) h]
    refine ⟨NotFlags.trans fv.1 (eventCsrs_notFlags _ _), by rw [matchBEvent_oc2aMatch h, fv.2.1],
      fun src a b => eventCsrs_sticky _ _ _ ((ev src).trans a) (fv.2.2 src a b)⟩
  · exact fv

/-- The parts of a `STEP` (R140). -/
theorem stepTick_parts {s t : State} (h : stepTick s = .next t) :
    ∃ u0 u1 u2 v, channelTurn .t0 { s with moment := .step, tick := s.tick + 1 } = .next u0 ∧ channelTurn .t1 u0 = .next u1 ∧
      channelTurn .t2 u1 = .next u2 ∧ call .loop u2 = .next v ∧
      t = { outputUpdate v with moment := s.moment } := by
  obtain ⟨w, k, rfl⟩ := stepTick_lines h
  obtain ⟨u0, h0, h⟩ := andThen_eq_next.mp k
  obtain ⟨u1, h1, h⟩ := andThen_eq_next.mp h
  obtain ⟨u2, h2, h⟩ := andThen_eq_next.mp h
  obtain ⟨v, h3, h⟩ := andThen_eq_next.mp h
  cases h
  exact ⟨u0, u1, u2, v, h0, h1, h2, h3, rfl⟩

/-- A counter after a `STEP` to tick `tick` (R145, R146, R160, R172). -/
def countOf (c : Csrs) (n : Channel) (tick : Nat) : Nat :=
  if due (divisor c n) tick = true then
    (let k := (counter c n + 1) % channelModulus n
    if n = .t2 ∧ k = compareA c n ∧ wgm2 c = Config.wgm2Ctc then 0 else k)
  else counter c n

theorem setCounter_self (c : Csrs) (n) : setCounter c n (counter c n) = c := by
  cases n <;> simp [setCounter, counter]

theorem channelTurn_passive {n} {s t : State} (hp : TimersPassive s.fw) (h : channelTurn n s = .next t) :
    NotFlags (setCounter s.csr n (countOf s.csr n s.tick)) t.csr ∧
    t.oc2aMatch = (s.oc2aMatch || decide (due (divisor s.csr n) s.tick = true ∧ n = .t2 ∧
      (counter s.csr n + 1) % channelModulus n = compareA s.csr n)) ∧
    (∀ src, enabled s.csr src = false → flagged s.csr src = true → flagged t.csr src = true) := by
  rcases whenDo_eq_next.mp h with ⟨hd, h⟩ | ⟨hd, rfl⟩
  · have := timerTickOf_passive hp h
    unfold countOf
    rw [if_pos hd]
    simp only [hd, true_and]
    exact this
  · unfold countOf
    rw [hd]
    simp only [Bool.false_eq_true, if_false, setCounter_self, false_and, decide_false, Bool.or_false, true_and]
    exact ⟨NotFlags.refl _, fun src a b => b⟩

/-- The registers after the channels of a `STEP`, but for the flags. -/
def countedCsrs (c : Csrs) (tick : Nat) : Csrs :=
  setCounter (setCounter (setCounter c .t0 (countOf c .t0 tick)) .t1 (countOf c .t1 tick)) .t2 (countOf c .t2 tick)

/-- The channels of a `STEP` (R140): each register but the flags after the counts, the latch, the flags that stay. -/
theorem channelTurns_passive {s u0 u1 u2 : State} (hp : TimersPassive s.fw)
    (h0 : channelTurn .t0 { s with moment := .step, tick := s.tick + 1 } = .next u0) (h1 : channelTurn .t1 u0 = .next u1)
    (h2 : channelTurn .t2 u1 = .next u2) :
    NotFlags (countedCsrs s.csr (s.tick + 1)) u2.csr ∧
    u2.oc2aMatch = (s.oc2aMatch || decide (due (divisor s.csr .t2) (s.tick + 1) = true ∧
      (counter s.csr .t2 + 1) % 256 = compareA s.csr .t2)) ∧
    (∀ src, enabled s.csr src = false → flagged s.csr src = true → flagged u2.csr src = true) ∧
    TimerEffect { s with moment := .step, tick := s.tick + 1 } u2 := by
  have p0 : TimersPassive u0.fw := by rw [(channelTurn_effect h0).fw]; exact hp
  have p1 : TimersPassive u1.fw := by rw [(channelTurn_effect h1).fw]; exact p0
  obtain ⟨a0, b0, c0⟩ := channelTurn_passive (s := { s with moment := .step, tick := s.tick + 1 }) hp h0
  obtain ⟨a1, b1, c1⟩ := channelTurn_passive p0 h1
  obtain ⟨a2, b2, c2⟩ := channelTurn_passive p1 h2
  have t0 : u0.tick = s.tick + 1 := (channelTurn_effect h0).tick
  have t1 : u1.tick = s.tick + 1 := ((channelTurn_effect h1).tick).trans t0
  have en : ∀ (c : Csrs) src k n, enabled (setCounter c n k) src = enabled c src := by
    intro c ⟨m, e⟩ k n; cases n <;> cases m <;> cases e <;> rfl
  have e0 : ∀ src, enabled u0.csr src = enabled s.csr src := fun src => by rw [NotFlags.enabled_eq a0, en]
  have e1 : ∀ src, enabled u1.csr src = enabled s.csr src := fun src => by rw [NotFlags.enabled_eq a1, en, e0]
  have k1 : countOf u0.csr .t1 u0.tick = countOf s.csr .t1 (s.tick + 1) := by
    unfold countOf
    rw [t0, NotFlags.divisor_eq a0, NotFlags.counter_eq a0, NotFlags.compareA_eq a0, NotFlags.wgm2_eq a0]; rfl
  have a01 : NotFlags (setCounter (setCounter s.csr .t0 (countOf s.csr .t0 (s.tick + 1))) .t1
      (countOf s.csr .t1 (s.tick + 1))) u1.csr := by
    refine NotFlags.trans ?_ a1
    rw [k1]; constructor; rw [a0.same]; rfl
  have k2 : countOf u1.csr .t2 u1.tick = countOf s.csr .t2 (s.tick + 1) := by
    unfold countOf
    rw [t1, NotFlags.divisor_eq a01, NotFlags.counter_eq a01, NotFlags.compareA_eq a01, NotFlags.wgm2_eq a01]; rfl
  refine ⟨?_, ?_, fun src a b => c2 src ((e1 src).trans a) (c1 src ((e0 src).trans a) (c0 src a b)),
    ((channelTurn_effect h0).trans (channelTurn_effect h1)).trans (channelTurn_effect h2)⟩
  · refine NotFlags.trans ?_ a2
    rw [k2]; constructor; rw [countedCsrs, a01.same]; rfl
  · have m0 : u0.oc2aMatch = s.oc2aMatch := by rw [b0]; simp
    have m1 : u1.oc2aMatch = s.oc2aMatch := by rw [b1, m0]; simp
    rw [b2, m1, t1, NotFlags.divisor_eq a01, NotFlags.counter_eq a01, NotFlags.compareA_eq a01]
    simp only [true_and]; rfl

/-- A `STEP` (R140): each counter after its count, the forced-compare bit used up, the flags that stay, and the output
after one update (R210, R214). -/
theorem stepTick_passive {s t : State} (hp : s.fw.passive = true) (h : stepTick s = .next t) :
    (∃ v0 : Csrs, NotFlags (countedCsrs s.csr (s.tick + 1)) v0 ∧ t.csr = fieldWrite v0 .foc2a 0 ∧
      (∀ src, enabled s.csr src = false → flagged s.csr src = true → flagged v0 src = true)) ∧
    (t.oc2a = if (s.oc2aMatch || decide (due (divisor s.csr .t2) (s.tick + 1) = true ∧
          (counter s.csr .t2 + 1) % 256 = compareA s.csr .t2)) || fieldRead s.csr .foc2a == 1
        then outputLevel (fieldRead s.csr .com2a) s.oc2a else s.oc2a) := by
  obtain ⟨u0, u1, u2, v, h0, h1, h2, h3, rfl⟩ := stepTick_parts h
  obtain ⟨a, m, st, e⟩ := channelTurns_passive (Firmware_passive_timers hp) h0 h1 h2
  have hv := call_passive_csr h3 (stubOf_passive (by rw [e.fw]; exact hp) (by simp))
  have ev := (call_eq_next h3).1
  refine ⟨⟨u2.csr, a, ?_, st⟩, ?_⟩
  · unfold outputUpdate; simp only; rw [hv]
  · have vm : v.oc2aMatch = u2.oc2aMatch := by rw [ev]
    have vo : v.oc2a = s.oc2a := by rw [ev, e.same]
    unfold outputUpdate
    simp only
    rw [vm, vo, m, hv, NotFlags.foc2a_eq a, NotFlags.com2a_eq a]; rfl

/-! ### Completion, with passive handlers -/

theorem StepEffect.passive {s t : State} (h : StepEffect s t) (k : s.fw.passive = true) : t.fw.passive = true := by
  rw [h.fw]; exact k
theorem TimerEffect.timersPassive {s t : State} (h : TimerEffect s t) (k : TimersPassive s.fw) : TimersPassive t.fw := by
  rw [h.fw]; exact k

theorem dispatchSource_total_passive {src : TimerSource} {s : State} (h : TimersPassive s.fw) :
    ∃ t, dispatchSource src s = .next t := by
  unfold dispatchSource
  split
  · obtain ⟨u, hu⟩ := call_total (s := s) (FwStmt_passive_legal (h src))
    exact ⟨_, by rw [hu]; rfl⟩
  · exact ⟨s, rfl⟩

theorem timerTickOf_total_passive {n : Channel} {s : State} (h : TimersPassive s.fw) :
    ∃ t, timerTickOf n s = .next t := by
  unfold timerTickOf
  dsimp only
  obtain ⟨u, hu⟩ := whenDo_total (b := counter s.csr n == channelModulus n - 1) (f := overflowEvent n)
    (s := { s with csr := setCounter s.csr n ((counter s.csr n + 1) % channelModulus n) })
    (dispatchSource_total_passive h)
  have pu := (whenDo_effect TimerEffect.refl (fun _ _ => overflowEvent_effect) hu).timersPassive h
  refine andThen_total hu ?_
  obtain ⟨v, hv⟩ := whenDo_total (b := (counter s.csr n + 1) % channelModulus n ==
      compareA (setCounter s.csr n ((counter s.csr n + 1) % channelModulus n)) n) (f := matchAEvent n) (s := u)
    (by unfold matchAEvent; dsimp only; split <;> exact dispatchSource_total_passive pu)
  have pv := (whenDo_effect TimerEffect.refl (fun _ _ => matchAEvent_effect) hv).timersPassive pu
  exact andThen_total hv (whenDo_total (dispatchSource_total_passive pv))

theorem channelTurn_total_passive {n : Channel} {s : State} (h : TimersPassive s.fw) :
    ∃ t, channelTurn n s = .next t := whenDo_total (timerTickOf_total_passive h)

/-- The channels of a `STEP` complete with passive handlers, and the `STEP` if the hook is legal too. -/
theorem stepTick_total_timers {s : State} (h : TimersPassive s.fw) (hl : s.fw.loop.legal = true) :
    ∃ t, stepTick s = .next t := by
  refine stepTick_total_of ?_
  unfold stepLines
  obtain ⟨u0, h0⟩ := channelTurn_total_passive (n := .t0) (s := { s with moment := .step, tick := s.tick + 1 }) h
  have p0 := (channelTurn_effect h0).timersPassive h
  obtain ⟨u1, h1⟩ := channelTurn_total_passive (n := .t1) p0
  have p1 := (channelTurn_effect h1).timersPassive p0
  obtain ⟨u2, h2⟩ := channelTurn_total_passive (n := .t2) p1
  have f2 : u2.fw = s.fw := by
    rw [(channelTurn_effect h2).fw, (channelTurn_effect h1).fw, (channelTurn_effect h0).fw]
  obtain ⟨v, h3⟩ := call_total (c := .loop) (s := u2) (by rw [f2]; exact hl)
  exact andThen_total h0 (andThen_total h1 (andThen_total h2 (andThen_total h3 ⟨_, rfl⟩)))

theorem stepTick_total_passive {s : State} (h : s.fw.passive = true) : ∃ t, stepTick s = .next t :=
  stepTick_total_timers (Firmware_passive_timers h) (stubOf_passive_legal h (c := .loop) (by simp))

end Sys2Proof.Machine
end

