-- ==== Sys2Proof/Laws/PerInstr.lean ====
section
/-! SUPPORT. Laws/PerInstr.lean: for each operation, that the decoder reads back what the encoder writes. -/

namespace Sys2Proof.Laws

/-! ### The fields of a command word (spec/30_encoding.md R123) -/

theorem getLsbD_cmd32 (op : BitVec 4) (a : Byte) (d : Word16) (i : Nat) :
    (cmd32 op a d).getLsbD i =
      if i < 16 then d.getLsbD i else if i < 24 then a.getLsbD (i - 16)
      else if i < 28 then false else op.getLsbD (i - 28) := by
  unfold cmd32
  rw [show BitVec.getLsbD (op ++ 0#4 ++ a ++ d : Word32) i = _ from BitVec.getLsbD_append,
    BitVec.getLsbD_append, BitVec.getLsbD_append]
  by_cases h1 : i < 16
  · simp [h1]
  by_cases h2 : i < 24
  · simp [h1, h2, show i - 16 < 8 by omega]
  by_cases h3 : i < 28
  · simp [h1, h2, h3, Nat.sub_sub, show ¬ i - 16 < 8 by omega, show ¬ 4 ≤ i - 24 by omega]
  · simp [h1, h2, h3, Nat.sub_sub, show ¬ i - 16 < 8 by omega, show ¬ i - 24 < 4 by omega]

theorem cmd32_op (op : BitVec 4) (a : Byte) (d : Word16) : (cmd32 op a d).extractLsb' 28 4 = op := by
  apply BitVec.eq_of_getLsbD_eq; intro i hi
  rw [BitVec.getLsbD_extractLsb', getLsbD_cmd32]
  simp [hi, show ¬ 28 + i < 16 by omega, show ¬ 28 + i < 24 by omega, show ¬ 28 + i < 28 by omega]
theorem cmd32_z (op : BitVec 4) (a : Byte) (d : Word16) : (cmd32 op a d).extractLsb' 24 4 = 0 := by
  apply BitVec.eq_of_getLsbD_eq; intro i hi
  rw [BitVec.getLsbD_extractLsb', getLsbD_cmd32]
  simp [hi, show ¬ 24 + i < 16 by omega, show 24 + i < 28 by omega]
theorem cmd32_a (op : BitVec 4) (a : Byte) (d : Word16) : (cmd32 op a d).extractLsb' 16 8 = a := by
  apply BitVec.eq_of_getLsbD_eq; intro i hi
  rw [BitVec.getLsbD_extractLsb', getLsbD_cmd32]
  simp [hi, show 16 + i < 24 by omega]
theorem cmd32_d (op : BitVec 4) (a : Byte) (d : Word16) : (cmd32 op a d).extractLsb' 0 16 = d := by
  apply BitVec.eq_of_getLsbD_eq; intro i hi
  rw [BitVec.getLsbD_extractLsb', getLsbD_cmd32]
  simp [hi]
theorem cmd32_v (op : BitVec 4) (a : Byte) (v : Byte) :
    (cmd32 op a (v.setWidth 16)).extractLsb' 0 8 = v := by
  apply BitVec.eq_of_getLsbD_eq; intro i hi
  rw [BitVec.getLsbD_extractLsb', getLsbD_cmd32]
  simp [hi, show i < 16 by omega]

/-- The decoder takes a command word of 32 bits as it is. -/
theorem decode_word32 (w : Word32) : decode (.word 32 w.toNat) = decodeCmd32 w := by
  simp only [decode]
  rw [if_pos ⟨trivial, w.isLt⟩, BitVec.ofNat_toNat, BitVec.setWidth_eq]

theorem busRegBits_lt (r : BusReg) : (busRegBits r).toNat < 2 := by cases r <;> decide

/-- What the decoder reads is what was encoded. -/
def EncodeDecode.Statement (i : Instr) : Prop := decode (encode i) = .ok i

theorem EncodeDecode.reset : EncodeDecode.Statement .reset := rfl
theorem EncodeDecode.step : EncodeDecode.Statement .step := rfl
theorem EncodeDecode.feed (l : Bool) : EncodeDecode.Statement (.feed l) := by
  cases l <;> rfl
theorem EncodeDecode.rd (r : BusReg) : EncodeDecode.Statement (.rd r) := by
  cases r <;> rfl
theorem EncodeDecode.wr (r : BusReg) (v : Byte) : EncodeDecode.Statement (.wr r v) := by
  rw [EncodeDecode.Statement, encode, decode_word32]
  simp only [decodeCmd32, cmd32_op, cmd32_z, cmd32_a, cmd32_d, cmd32_v]
  have h1 := busRegBits_lt r
  have h2 := v.isLt
  simp
  rw [if_pos ⟨by omega, by omega⟩]
  cases r <;> rfl
theorem EncodeDecode.csrr (a : Byte) : EncodeDecode.Statement (.csrr a) := by
  rw [EncodeDecode.Statement, encode, decode_word32]
  simp only [decodeCmd32, cmd32_op, cmd32_z, cmd32_a, cmd32_d]
  simp
theorem EncodeDecode.csrw (a : Byte) (v : Byte) : EncodeDecode.Statement (.csrw a v) := by
  rw [EncodeDecode.Statement, encode, decode_word32]
  simp only [decodeCmd32, cmd32_op, cmd32_z, cmd32_a, cmd32_d, cmd32_v]
  have h2 := v.isLt
  simp
  omega
theorem EncodeDecode.csrr16 (a : Byte) : EncodeDecode.Statement (.csrr16 a) := by
  rw [EncodeDecode.Statement, encode, decode_word32]
  simp only [decodeCmd32, cmd32_op, cmd32_z, cmd32_a, cmd32_d]
  simp
theorem EncodeDecode.csrw16 (a : Byte) (v : Word16) : EncodeDecode.Statement (.csrw16 a v) := by
  rw [EncodeDecode.Statement, encode, decode_word32]
  simp only [decodeCmd32, cmd32_op, cmd32_z, cmd32_a, cmd32_d]
  simp
theorem EncodeDecode.cs0Stopped : EncodeDecode.Statement .cs0Stopped := rfl
theorem EncodeDecode.cs0Div1 : EncodeDecode.Statement .cs0Div1 := rfl
theorem EncodeDecode.cs0Div8 : EncodeDecode.Statement .cs0Div8 := rfl
theorem EncodeDecode.cs0Div64 : EncodeDecode.Statement .cs0Div64 := rfl
theorem EncodeDecode.cs0Div256 : EncodeDecode.Statement .cs0Div256 := rfl
theorem EncodeDecode.cs0Div1024 : EncodeDecode.Statement .cs0Div1024 := rfl
theorem EncodeDecode.cs0Reserved6 : EncodeDecode.Statement .cs0Reserved6 := rfl
theorem EncodeDecode.cs0Reserved7 : EncodeDecode.Statement .cs0Reserved7 := rfl
theorem EncodeDecode.cs1Stopped : EncodeDecode.Statement .cs1Stopped := rfl
theorem EncodeDecode.cs1Div1 : EncodeDecode.Statement .cs1Div1 := rfl
theorem EncodeDecode.cs1Div8 : EncodeDecode.Statement .cs1Div8 := rfl
theorem EncodeDecode.cs1Div64 : EncodeDecode.Statement .cs1Div64 := rfl
theorem EncodeDecode.cs1Div256 : EncodeDecode.Statement .cs1Div256 := rfl
theorem EncodeDecode.cs1Div1024 : EncodeDecode.Statement .cs1Div1024 := rfl
theorem EncodeDecode.cs1Reserved6 : EncodeDecode.Statement .cs1Reserved6 := rfl
theorem EncodeDecode.cs1Reserved7 : EncodeDecode.Statement .cs1Reserved7 := rfl
theorem EncodeDecode.cs2Stopped : EncodeDecode.Statement .cs2Stopped := rfl
theorem EncodeDecode.cs2Div1 : EncodeDecode.Statement .cs2Div1 := rfl
theorem EncodeDecode.cs2Div8 : EncodeDecode.Statement .cs2Div8 := rfl
theorem EncodeDecode.cs2Div32 : EncodeDecode.Statement .cs2Div32 := rfl
theorem EncodeDecode.cs2Div64 : EncodeDecode.Statement .cs2Div64 := rfl
theorem EncodeDecode.cs2Div128 : EncodeDecode.Statement .cs2Div128 := rfl
theorem EncodeDecode.cs2Div256 : EncodeDecode.Statement .cs2Div256 := rfl
theorem EncodeDecode.cs2Div1024 : EncodeDecode.Statement .cs2Div1024 := rfl
theorem EncodeDecode.com2aNoChange : EncodeDecode.Statement .com2aNoChange := rfl
theorem EncodeDecode.com2aToggle : EncodeDecode.Statement .com2aToggle := rfl
theorem EncodeDecode.com2aForceLow : EncodeDecode.Statement .com2aForceLow := rfl
theorem EncodeDecode.com2aForceHigh : EncodeDecode.Statement .com2aForceHigh := rfl
theorem EncodeDecode.wgm2Ctc : EncodeDecode.Statement .wgm2Ctc := rfl
theorem EncodeDecode.icnc1On : EncodeDecode.Statement .icnc1On := rfl
theorem EncodeDecode.icnc1Off : EncodeDecode.Statement .icnc1Off := rfl
theorem EncodeDecode.ices1Rising : EncodeDecode.Statement .ices1Rising := rfl
theorem EncodeDecode.ices1Falling : EncodeDecode.Statement .ices1Falling := rfl
theorem EncodeDecode.foc2aRequest : EncodeDecode.Statement .foc2aRequest := rfl
theorem EncodeDecode.toie0Enable : EncodeDecode.Statement .toie0Enable := rfl
theorem EncodeDecode.tov0Pending : EncodeDecode.Statement .tov0Pending := rfl
theorem EncodeDecode.ocie0aEnable : EncodeDecode.Statement .ocie0aEnable := rfl
theorem EncodeDecode.ocf0aPending : EncodeDecode.Statement .ocf0aPending := rfl
theorem EncodeDecode.ocie0bEnable : EncodeDecode.Statement .ocie0bEnable := rfl
theorem EncodeDecode.ocf0bPending : EncodeDecode.Statement .ocf0bPending := rfl
theorem EncodeDecode.toie1Enable : EncodeDecode.Statement .toie1Enable := rfl
theorem EncodeDecode.tov1Pending : EncodeDecode.Statement .tov1Pending := rfl
theorem EncodeDecode.ocie1aEnable : EncodeDecode.Statement .ocie1aEnable := rfl
theorem EncodeDecode.ocf1aPending : EncodeDecode.Statement .ocf1aPending := rfl
theorem EncodeDecode.ocie1bEnable : EncodeDecode.Statement .ocie1bEnable := rfl
theorem EncodeDecode.ocf1bPending : EncodeDecode.Statement .ocf1bPending := rfl
theorem EncodeDecode.toie2Enable : EncodeDecode.Statement .toie2Enable := rfl
theorem EncodeDecode.tov2Pending : EncodeDecode.Statement .tov2Pending := rfl
theorem EncodeDecode.ocie2aEnable : EncodeDecode.Statement .ocie2aEnable := rfl
theorem EncodeDecode.ocf2aPending : EncodeDecode.Statement .ocf2aPending := rfl
theorem EncodeDecode.ocie2bEnable : EncodeDecode.Statement .ocie2bEnable := rfl
theorem EncodeDecode.ocf2bPending : EncodeDecode.Statement .ocf2bPending := rfl
theorem EncodeDecode.busRead (r : BusReg) : EncodeDecode.Statement (.busRead r) := by
  cases r <;> rfl
theorem EncodeDecode.busWrite (r : BusReg) : EncodeDecode.Statement (.busWrite r) := by
  cases r <;> rfl
theorem EncodeDecode.statusFraming : EncodeDecode.Statement .statusFraming := rfl
theorem EncodeDecode.statusParity : EncodeDecode.Statement .statusParity := rfl
theorem EncodeDecode.statusByteAvailable : EncodeDecode.Statement .statusByteAvailable := rfl
theorem EncodeDecode.statusRoom : EncodeDecode.Statement .statusRoom := rfl
theorem EncodeDecode.timerTick (n : Channel) : EncodeDecode.Statement (.timerTick n) := rfl
theorem EncodeDecode.overflow (n : Channel) : EncodeDecode.Statement (.overflow n) := rfl
theorem EncodeDecode.matchA (n : Channel) : EncodeDecode.Statement (.matchA n) := rfl
theorem EncodeDecode.matchB (n : Channel) : EncodeDecode.Statement (.matchB n) := rfl
theorem EncodeDecode.dispatch (src : TimerSource) : EncodeDecode.Statement (.dispatch src) := rfl
theorem EncodeDecode.oc2aUpdate : EncodeDecode.Statement .oc2aUpdate := rfl
theorem EncodeDecode.poll : EncodeDecode.Statement .poll := rfl
theorem EncodeDecode.compare (b : Byte) : EncodeDecode.Statement (.compare b) := rfl
theorem EncodeDecode.csvPlay (records : List (Nat × Int)) : EncodeDecode.Statement (.csvPlay records) := rfl
theorem EncodeDecode.wavPlay (bytes : List Byte) : EncodeDecode.Statement (.wavPlay bytes) := rfl
theorem EncodeDecode.sinkRun (data : List Byte) : EncodeDecode.Statement (.sinkRun data) := rfl
theorem EncodeDecode.steps (n : Nat) : EncodeDecode.Statement (.steps n) := rfl
theorem EncodeDecode.runTo (t : Nat) : EncodeDecode.Statement (.runTo t) := rfl
theorem EncodeDecode.feedAt (t : Nat) (l : Bool) : EncodeDecode.Statement (.feedAt t l) := rfl
theorem EncodeDecode.setField (f : CsrField) (v : Nat) : EncodeDecode.Statement (.setField f v) := rfl

end Sys2Proof.Laws
end

