-- ==== Sys2Proof/Tests/Slice0.lean ====
section
/-! SUPPORT. Tests/Slice0.lean: tests and witnesses. The expected results are those of spec/95_test_vectors.md (the
comment names the vector) or are worked out by hand from the rule the comment names; the words and selectors of the
decode tests are written out from spec/30_encoding.md and the columns of spec/opcode_table.json. A `witness_` theorem
shows a concrete state and operands that meet the hypotheses of an obligation. -/

namespace Sys2Proof.Tests

open Sys2Proof Sys2Proof.Machine Sys2Proof.Claims

set_option Elab.async false

/-! ### Helpers -/

/-- A state between two operations with given registers and firmware, at a tick. -/
def at_ (tick : Nat) (c : Csrs) (fw : Firmware := {}) : State :=
  { State.reset with tick := tick, csr := c, fw := fw, params := ⟨1000000, 0, 0, .b7⟩ }

/-- The same inside the hook. -/
def inHook (c : Csrs) : State := { at_ 0 c with moment := .callback .loop }

/-- The same state inside a `STEP`, where the block performs its sub-operations. -/
def inStep (s : State) : State := { s with moment := .step }

/-- One component of the next state, none where there is no next state. -/
def get {α : Type} (r : Result) (f : State → α) : Option α :=
  match r with
  | .next s => some (f s)
  | _ => none

def isNext (r : Result) : Bool := (get r fun _ => ()).isSome

def refusal (r : Result) : Option Refusal :=
  match r with
  | .refused r => some r
  | _ => none

theorem next_of_isNext {r : Result} (h : isNext r = true) : ∃ t, r = .next t := by
  cases r with
  | next s => exact ⟨s, rfl⟩
  | fault f => cases f
  | refused r => cases h

/-- The callbacks made, without their ticks. -/
def called (s : State) : List Callback := s.calls.map Call.callback

def store (a : Byte) (v : Nat) : FwStmt := .csrw a (.lit v)
def count : FwStmt := .assign 0 (.bin .add (.var 0) (.lit 1))
def onControl (a b : FwStmt) : FwStmt := .seq (.csrr 0xE0) (.ite (.bin .and .lastRead (.lit 1)) b a)

/-- What a coded form reads as; none where the decoder rejects it. -/
def reads (c : Code) : Option Instr :=
  match decode c with
  | .ok i => some i
  | .error _ => none

/-- Why the decoder rejects a coded form. -/
def rejects (c : Code) : Option Reject :=
  match decode c with
  | .ok _ => none
  | .error r => some r

/-! ### Well-formedness -/

/-- Not well-formed, and it runs (log 19), in a trace and in a stub. -/
theorem test_field_value_too_wide :
    (Instr.setField .com2a 4).wellFormed = false ∧ (Instr.setField .com2a 3).wellFormed = true ∧
    reads (.operation (.setField .com2a 4)) = some (.setField .com2a 4) ∧
    isNext (exec (.setField .com2a 4) (inHook {})) = true ∧
    isNext (exec .step (at_ 0 {} { loop := .set .com2a (.lit 4) })) = true := by decide +kernel

/-- Not well-formed; the decoder reads it, and the record is refused where it is reached (R285, U13). -/
theorem test_record_before_origin :
    (Instr.csvPlay [(5, 0), (4, 1)]).wellFormed = false ∧
    reads (.operation (.csvPlay [(5, 0), (4, 1)])) = some (.csvPlay [(5, 0), (4, 1)]) := by decide +kernel

/-! ### Decoding -/

/-- V1. -/
theorem test_decode_cmd32 : ∀ p ∈ ([(0x00000000, .reset), (0x10000000, .step), (0x20000000, .feed false),
    (0x20000001, .feed true), (0x30000000, .rd .control), (0x30010000, .rd .data), (0x40000080, .wr .control 0x80),
    (0x40010041, .wr .data 0x41), (0x50B20000, .csrr 0xB2), (0x50E00000, .csrr 0xE0), (0x60B00042, .csrw 0xB0 0x42),
    (0x60B10002, .csrw 0xB1 0x02), (0x60350000, .csrw 0x35 0x00), (0x60E10001, .csrw 0xE1 0x01),
    (0x70860000, .csrr16 0x86), (0x808803E8, .csrw16 0x88 0x03E8), (0x8084FFFE, .csrw16 0x84 0xFFFE)] :
    List (Nat × Instr)), decodeTableWord 32 p.1 = some p.2 := by decide +kernel

/-- V2. -/
theorem test_rejected_words : ∀ p ∈ ([(0x90000000, .reservedOp), (0xF0000000, .reservedOp), (0x11000000, .nonzeroZ),
    (0x10000001, .operandBits), (0x00010000, .operandBits), (0x20000002, .operandBits), (0x30020000, .operandBits),
    (0x30000001, .operandBits), (0x40010100, .operandBits), (0x50B20001, .operandBits), (0x60B20100, .operandBits)] :
    List (Nat × Reject)), rejects (.word 32 p.1) = some p.2 := by decide +kernel

/-- V3: well-formed, refused when performed. -/
theorem test_refused_words :
    (∀ w ∈ ([0x50000000, 0x50340000, 0x50380000, 0x50830000, 0x50E20000, 0x50FF0000, 0x60E00001, 0x70B20000,
      0x70850000, 0x70800000, 0x80460000] : List Nat),
      (refusal (step ((at_ 0 {}).withFetchWord 32 w))).isSome = true) ∧
    refusal (step ((at_ 0 {}).withFetchWord 32 0x50830000)) = some (.unmappedCsr 0x83) ∧
    refusal (step ((at_ 0 {}).withFetchWord 32 0x60E00001)) = some .busctlReadOnly ∧
    refusal (step ((at_ 0 {}).withFetchWord 32 0x70850000)) = some (.notSixteenBit 0x85) := by decide +kernel

/-- R112: `CS0` is `TCCR0B[2:0]`, `CS1` is `TCCR1B[2:0]`. -/
theorem test_decode_cs0_cs1 : ∀ p ∈ ([(0x45, 0, .cs0Stopped), (0x45, 1, .cs0Div1), (0x45, 2, .cs0Div8),
    (0x45, 3, .cs0Div64), (0x45, 4, .cs0Div256), (0x45, 5, .cs0Div1024), (0x45, 6, .cs0Reserved6),
    (0x45, 7, .cs0Reserved7), (0x81, 0, .cs1Stopped), (0x81, 1, .cs1Div1), (0x81, 2, .cs1Div8), (0x81, 3, .cs1Div64),
    (0x81, 4, .cs1Div256), (0x81, 5, .cs1Div1024), (0x81, 6, .cs1Reserved6), (0x81, 7, .cs1Reserved7)] :
    List (Byte × Word16 × Instr)), reads (.selector (.csr p.1) 0x07 p.2.1) = some p.2.2 := by decide +kernel

/-- R113: `CS2` is `TCCR2B[2:0]`. -/
theorem test_decode_cs2 : ∀ p ∈ ([(0, .cs2Stopped), (1, .cs2Div1), (2, .cs2Div8), (3, .cs2Div32), (4, .cs2Div64),
    (5, .cs2Div128), (6, .cs2Div256), (7, .cs2Div1024)] : List (Word16 × Instr)),
    reads (.selector (.csr 0xB1) 0x07 p.1) = some p.2 := by decide +kernel

/-- R114 to R116: `COM2A` is `TCCR2A[7:6]`; `WGM2` is `TCCR2B[3]` and `TCCR2A[1:0]`, in the pair bits 11, 1 and 0;
`ICNC1` and `ICES1` are bits 7 and 6 of `TCCR1B`; `FOC2A` is bit 7 of `TCCR2B`. -/
theorem test_decode_modes : ∀ p ∈ ([(.csr 0xB0, 0xC0, 0x00, .com2aNoChange), (.csr 0xB0, 0xC0, 0x40, .com2aToggle),
    (.csr 0xB0, 0xC0, 0x80, .com2aForceLow), (.csr 0xB0, 0xC0, 0xC0, .com2aForceHigh),
    (.tccr2Pair, 0x0803, 0x0002, .wgm2Ctc), (.csr 0x81, 0x80, 0x80, .icnc1On), (.csr 0x81, 0x80, 0x00, .icnc1Off),
    (.csr 0x81, 0x40, 0x40, .ices1Rising), (.csr 0x81, 0x40, 0x00, .ices1Falling),
    (.csr 0xB1, 0x80, 0x80, .foc2aRequest)] : List (Location × Word16 × Word16 × Instr)),
    reads (.selector p.1 p.2.1 p.2.2.1) = some p.2.2.2 := by decide +kernel

/-- R111, R116: bits 0, 1, 2 of `TIMSKn` (0x6E, 0x6F, 0x70) and of `TIFRn` (0x35, 0x36, 0x37). -/
theorem test_decode_enables_and_flags : ∀ p ∈ ([(0x6E, 0x01, .toie0Enable), (0x6E, 0x02, .ocie0aEnable),
    (0x6E, 0x04, .ocie0bEnable), (0x6F, 0x01, .toie1Enable), (0x6F, 0x02, .ocie1aEnable), (0x6F, 0x04, .ocie1bEnable),
    (0x70, 0x01, .toie2Enable), (0x70, 0x02, .ocie2aEnable), (0x70, 0x04, .ocie2bEnable), (0x35, 0x01, .tov0Pending),
    (0x35, 0x02, .ocf0aPending), (0x35, 0x04, .ocf0bPending), (0x36, 0x01, .tov1Pending), (0x36, 0x02, .ocf1aPending),
    (0x36, 0x04, .ocf1bPending), (0x37, 0x01, .tov2Pending), (0x37, 0x02, .ocf2aPending),
    (0x37, 0x04, .ocf2bPending)] : List (Byte × Word16 × Instr)),
    reads (.selector (.csr p.1) p.2.1 p.2.1) = some p.2.2 := by decide +kernel

/-- R117, R118: the pins `WRS`, `RDS`, `ADDR` are bits 2, 1, 0 of `BUSCTL`; the status bits 3, 2, 0, 7. -/
theorem test_decode_bus_and_status : ∀ p ∈ ([(.csr 0xE0, 0xFE, 0x02, .busRead .control),
    (.csr 0xE0, 0xFE, 0x03, .busRead .data), (.csr 0xE0, 0xFE, 0x04, .busWrite .control),
    (.csr 0xE0, 0xFE, 0x05, .busWrite .data), (.status, 0x08, 0x08, .statusFraming),
    (.status, 0x04, 0x04, .statusParity), (.status, 0x01, 0x00, .statusByteAvailable),
    (.status, 0x80, 0x00, .statusRoom)] : List (Location × Word16 × Word16 × Instr)),
    reads (.selector p.1 p.2.1 p.2.2.1) = some p.2.2.2 := by decide +kernel

/-- The rows the table gives no bits (R123: a datatype of operations instead). -/
theorem test_decode_operations : ∀ i ∈ ([.timerTick .t1, .overflow .t0, .matchA .t2, .matchB .t1,
    .dispatch ⟨.t1, .compB⟩, .oc2aUpdate, .poll, .compare 0x16, .csvPlay [(0, 0), (100, 1)], .wavPlay [0x52],
    .sinkRun [0x41], .steps 100, .runTo 10, .feedAt 5 true, .setField .ices1 1] : List Instr),
    reads (.operation i) = some i := by decide +kernel

/-- Bare words (log 2): the pair of 16 bits, and the first row of 8 bits with these bits. -/
theorem test_decode_bare_words :
    decodeTableWord 16 0x0002 = some .wgm2Ctc ∧ decodeTableWord 8 0x05 = some .cs0Div1024 ∧
    decodeTableWord 8 0xC0 = some .com2aForceHigh ∧ decodeTableWord 8 0xFF = none := by decide +kernel

/-! ### Reset, steps and channels -/

/-- V54, first half: `RESET` from a used state runs `setup`, and nothing consumes `FOC2A` outside `STEP`. -/
theorem test_reset_boots :
    get (exec .reset { at_ 9 ⟨1, 2, 3, 4, 5, 6, 7, 8, 9, 10, 11, 12, 13, 14, 15, 16, 17, 18, 19, 20, 21, 22, 23, 24, 25⟩
        { setup := .seq (store 0xB0 0xC0) (store 0xB1 0x80) } with prevLevel := true, lastAccept := some 3 })
      (fun s => (s.csr, s.oc2a, s.lastAccept, s.calls))
    = some ({ tccr2a := 0xC0, tccr2b := 0x80 }, false, none, [⟨.setup, 0⟩]) := by decide +kernel

/-- V54, second half. -/
theorem test_step_forced_compare :
    get (exec .step (at_ 0 { tccr2a := 0xC0, tccr2b := 0x80 })) (fun s => (s.oc2a, s.csr.tccr2b, s.csr.tifr2))
    = some (true, 0x00, 0x00) := by decide +kernel

/-- V14. -/
theorem test_step_order :
    get (exec .step (at_ 0 { tcnt0 := 0xFF, timsk0 := 0x07, tccr0b := 0x01 }))
      (fun s => (s.csr.tcnt0, s.csr.tifr0, called s))
    = some (0x00, 0x00, [.timer ⟨.t0, .ovf⟩, .timer ⟨.t0, .compA⟩, .timer ⟨.t0, .compB⟩, .loop]) ∧
    get (exec .step (at_ 0 { tcnt0 := 0xFF, tccr0b := 0x01 })) (fun s => (s.csr.tifr0, called s))
    = some (0x07, [.loop]) := by decide +kernel

/-- V10, V11, V12: the column of tick 64 for each code, and a phase that is a test on the tick. -/
theorem test_steps_prescalers :
    [0, 1, 2, 3, 4, 5, 6, 7].map (fun c => get (exec (.steps 64) (at_ 0 { tccr1b := c })) fun s => s.csr.tcnt1)
      = [some 0, some 64, some 8, some 1, some 0, some 0, some 0, some 0] ∧
    [0, 1, 2, 3, 4, 5, 6, 7].map (fun c => get (exec (.steps 64) (at_ 0 { tccr2b := c })) fun s => s.csr.tcnt2)
      = [some 0, some 64, some 8, some 2, some 1, some 0, some 0, some 0] ∧
    get (exec (.steps 12) (at_ 13 { tccr0b := 2 })) (fun s => s.csr.tcnt0) = some 2 := by decide +kernel

/-- R132: `RUNTO` never goes back; `FEEDAT 7, 1` of V46. -/
theorem test_run_to_and_feed_at :
    get (exec (.runTo 3) (at_ 5 {})) State.tick = some 5 ∧ get (exec (.runTo 9) (at_ 5 {})) State.tick = some 9 ∧
    get (exec (.feedAt 7 true) (at_ 0 {})) (fun s => (s.csr.icr1, s.prevLevel, s.lastAccept, s.csr.tifr1))
      = some (0, true, some 7, 0x00) := by decide +kernel

/-- V20 at tick 2, V22 at tick 2, V67. -/
theorem test_timer_tick_wraps :
    get (exec (.timerTick .t2) (inStep (at_ 2 { tcnt2 := 0xFF }))) (fun s => (s.csr.tcnt2, s.csr.tifr2))
      = some (0, 0x07) ∧
    get (exec (.timerTick .t1) (inStep (at_ 2 { tcnt1 := 0xFFFF }))) (fun s => (s.csr.tcnt1, s.csr.tifr1))
      = some (0, 0x07) ∧
    get (exec (.timerTick .t1) (inStep (at_ 1 { tcnt1 := 0x00FF }))) (fun s => (s.csr.tcnt1, s.csr.tifr1))
      = some (0x0100, 0x00) := by decide +kernel

/-- V26: one snapshot. -/
theorem test_timer_tick_snapshot :
    get (exec (.timerTick .t0) (inStep (at_ 1 { tcnt0 := 0xFF, ocr0b := 9, timsk0 := 0x01 } { t0Ovf := store 0x48 0 })))
      (fun s => (s.csr.tcnt0, s.csr.ocr0b, s.csr.tifr0)) = some (0x00, 0x00, 0x02) := by decide +kernel

/-- V28 at ticks 2 and 3, and V29 at tick 256: clear on compare match. -/
theorem test_timer_tick_ctc :
    get (exec (.timerTick .t2) (inStep (at_ 2 { tccr2a := 0x02, ocr2a := 3, ocr2b := 2, timsk2 := 0x02, tcnt2 := 1 })))
      (fun s => (s.csr.tcnt2, s.csr.tifr2)) = some (2, 0x04) ∧
    get (exec (.timerTick .t2)
        (inStep (at_ 3 { tccr2a := 0x02, ocr2a := 3, ocr2b := 2, timsk2 := 0x02, tcnt2 := 2, tifr2 := 0x04 }
          { t2CompA := count })))
      (fun s => (s.csr.tcnt2, s.csr.tifr2, s.fwst.vars)) = some (0, 0x04, [1]) ∧
    get (exec (.timerTick .t2) (inStep (at_ 256 { tccr2a := 0x42, tcnt2 := 255 })))
      (fun s => (s.csr.tcnt2, s.csr.tifr2, s.oc2aMatch)) = some (0, 0x07, true) := by decide +kernel

/-- V21: the overflow handler reads `TIFR2 = 0x01`; its flag is cleared after it. -/
theorem test_overflow_dispatched :
    get (exec (.overflow .t2) (inStep (at_ 2 { timsk2 := 0x01 } { t2Ovf := .seq (.csrr 0x37) (.append .lastRead) })))
      (fun s => (s.csr.tifr2, s.fwst.log)) = some (0x00, [0x01]) := by decide +kernel

/-- V28: inside the handler `TCNT2 = 0` and `TIFR2 = 0x06`. -/
theorem test_match_a_clears_before_the_handler :
    get (exec (.matchA .t2) (inStep (at_ 3 { tccr2a := 0x02, timsk2 := 0x02, tcnt2 := 3, tifr2 := 0x04 }
        { t2CompA := .seq (.csrr 0xB2) (.seq (.append .lastRead) (.seq (.csrr 0x37) (.append .lastRead))) })))
      (fun s => (s.csr.tcnt2, s.csr.tifr2, s.oc2aMatch, s.fwst.log)) = some (0, 0x04, true, [0, 0x06]) := by
  decide +kernel

/-- R167, R176: match B not enabled leaves its flag, and the flags around it. -/
theorem test_match_b_pending :
    get (exec (.matchB .t1) (inStep (at_ 3 { tifr1 := 0x21 }))) (fun s => (s.csr.tifr1, called s))
      = some (0x25, []) := by
  decide +kernel

/-- V24: no dispatch with the enable 0; with it 1 the call, then the flag cleared. -/
theorem test_dispatch :
    get (exec (.dispatch ⟨.t0, .compA⟩) (inStep (at_ 5 { tifr0 := 0x02 } { t0CompA := count })))
      (fun s => (s.csr.tifr0, s.fwst.vars)) = some (0x02, []) ∧
    get (exec (.dispatch ⟨.t0, .compA⟩) (inStep (at_ 261 { tifr0 := 0x07, timsk0 := 0x02 } { t0CompA := count })))
      (fun s => (s.csr.tifr0, s.fwst.vars)) = some (0x05, [1]) := by decide +kernel

/-- R212, V55: the four modes on a low and on a high level, and a forced compare in mode 00. -/
theorem test_output_modes :
    [0x00, 0x40, 0x80, 0xC0].map (fun m => [false, true].map fun l =>
      get (exec .oc2aUpdate (inStep { at_ 2 { tccr2a := m } with oc2aMatch := true, oc2a := l })) State.oc2a)
      = [[some false, some true], [some true, some false], [some false, some false], [some true, some true]] ∧
    get (exec .oc2aUpdate (inStep (at_ 1 { tccr2b := 0x81 }))) (fun s => (s.oc2a, s.csr.tccr2b))
      = some (false, 0x01) := by
  decide +kernel

/-- V52 at tick 2, V56 at tick 2: the mode the hook writes is the one used; one toggle, not two. -/
theorem test_step_hook_before_output :
    get (exec .step (at_ 1 { tccr2a := 0x02, ocr2a := 2, tccr2b := 1, tcnt2 := 1 } { loop := store 0xB0 0x42 }))
      State.oc2a = some true ∧
    get (exec .step (at_ 1 { tccr2a := 0x42, ocr2a := 2, tccr2b := 1, tcnt2 := 1 } { loop := store 0xB1 0x81 }))
      State.oc2a = some true := by decide +kernel

/-! ### Capture -/

/-- V42: 19 ticks reject, 20 accept; the handler records its latch. -/
theorem test_feed_noise_boundary :
    get (exec (.feed false) { at_ 119 { tccr1b := 0x81, tcnt1 := 119, icr1 := 100 } with
        prevLevel := true, lastAccept := some 100 })
      (fun s => (s.csr.icr1, s.prevLevel, s.lastAccept, called s)) = some (100, true, some 100, []) ∧
    get (exec (.feed false) { (at_ 120 { tccr1b := 0x81, tcnt1 := 120, icr1 := 100 }
        { t1Capt := .seq (.csrr16 0x86) (.append .lastRead) }) with prevLevel := true, lastAccept := some 100 })
      (fun s => (s.csr.icr1, s.prevLevel, s.lastAccept, s.fwst.log)) = some (120, false, some 120, [120]) := by
  decide +kernel

/-- V41 and V40 with the canceler off: the latch on the polarity not selected; no wait. -/
theorem test_feed_polarity :
    get (exec (.feed false) { at_ 24 { tccr1b := 0x41, tcnt1 := 24 } with prevLevel := true, lastAccept := some 5 })
      (fun s => (s.csr.icr1, called s)) = some (24, []) ∧
    get (exec (.feed true) { at_ 30 { tccr1b := 0x41, tcnt1 := 30 } with lastAccept := some 24 })
      (fun s => (s.csr.icr1, called s)) = some (30, [.capture]) := by decide +kernel

/-! ### Bus -/

/-- Records the pins and the data lines. -/
def lookAtBus : FwStmt := .seq (.csrr 0xE0) (.seq (.append .lastRead) (.seq (.csrr 0xE1) (.append .lastRead)))

/-- V60, rows 2 and 3. -/
theorem test_bus_handlers :
    get (exec (.wr .data 0x41) (at_ 0 {} { pcWrite := lookAtBus }))
      (fun s => (s.fwst.log, s.csr.busctl, s.csr.busdata)) = some ([0x05, 0x41], 0x01, 0x41) ∧
    get (exec (.rd .data) (at_ 0 { busctl := 0x01, busdata := 0x41 } { pcRead := lookAtBus }))
      (fun s => (s.fwst.log, s.hostResult, s.csr.busctl)) = some ([0x03, 0x41], 0x41, 0x01) := by decide +kernel

/-- V61: no handler, the stale byte. V60, row 1: the handler's byte. -/
theorem test_bus_read_value :
    get (exec (.rd .control) (at_ 0 { busdata := 0x5A })) State.hostResult = some 0x5A ∧
    get (exec (.rd .control) (at_ 0 {} { pcRead := onControl (store 0xE1 0x01) .skip }))
      (fun s => (s.hostResult, s.csr.busctl, s.csr.busdata)) = some (0x01, 0x00, 0x01) := by decide +kernel

/-- Log 4: the pin rows as transactions. -/
theorem test_bus_pins :
    get (exec (.busRead .data) (at_ 0 { busdata := 7 })) (fun s => (s.hostResult, s.csr.busctl, called s))
      = some (7, 0x01, [.pcRead]) ∧
    get (exec (.busWrite .control) (at_ 0 { busctl := 1, busdata := 7 })) (fun s => (s.csr.busctl, called s))
      = some (0x00, [.pcWrite]) := by decide +kernel

/-! ### Registers -/

/-- V65. -/
theorem test_sixteen_bit_registers :
    get (exec (.csrw16 0x88 0x03E8) (inHook {})) (fun s => s.csr.ocr1a) = some 1000 ∧
    get (exec (.csrr 0x88) (inHook { ocr1a := 0x03E8 })) (fun s => s.fwst.lastRead) = some 0xE8 ∧
    get (exec (.csrr 0x89) (inHook { ocr1a := 0x03E8 })) (fun s => s.fwst.lastRead) = some 0x03 ∧
    get (exec (.csrr16 0x88) (inHook { ocr1a := 0x03E8 })) (fun s => s.fwst.lastRead) = some 0x03E8 ∧
    get (exec (.csrw 0x85 0x12) (inHook { tcnt1 := 0x0034 })) (fun s => s.csr.tcnt1) = some 0x1234 ∧
    get (exec (.csrw 0x8B 0xAB) (inHook {})) (fun s => s.csr.ocr1b) = some 0xAB00 := by decide +kernel

/-- V66: plain storage; R132: the other bits kept. -/
theorem test_flag_register_is_storage :
    get (exec (.csrw 0x35 0xFF) (inHook {})) (fun s => s.csr.tifr0) = some 0xFF ∧
    get (exec (.csrw 0x35 0x05) (inHook { tifr0 := 0x07 })) (fun s => s.csr.tifr0) = some 0x05 ∧
    get (exec (.setField .ices1 0) (inHook { tccr1b := 0xC1 })) (fun s => (s.csr.tccr1b, s.fwst.lastRead))
      = some (0x81, 0xC1) := by decide +kernel

/-! The prescaler rows over a register of ones and over one of zeros (R112, R113, R245). -/

theorem test_cs0_rows : ∀ p ∈ ([
    (.cs0Stopped, 0), (.cs0Div1, 1), (.cs0Div8, 2), (.cs0Div64, 3), (.cs0Div256, 4), (.cs0Div1024, 5),
    (.cs0Reserved6, 6), (.cs0Reserved7, 7)] : List (Instr × Byte)),
    get (exec p.1 (inHook { tccr0b := 0xFF })) (fun s => s.csr.tccr0b) = some (0xF8 ||| p.2) ∧
    get (exec p.1 (inHook {})) (fun s => s.csr.tccr0b) = some p.2 := by decide +kernel

theorem test_cs1_rows : ∀ p ∈ ([
    (.cs1Stopped, 0), (.cs1Div1, 1), (.cs1Div8, 2), (.cs1Div64, 3), (.cs1Div256, 4), (.cs1Div1024, 5),
    (.cs1Reserved6, 6), (.cs1Reserved7, 7)] : List (Instr × Byte)),
    get (exec p.1 (inHook { tccr1b := 0xFF })) (fun s => s.csr.tccr1b) = some (0xF8 ||| p.2) ∧
    get (exec p.1 (inHook {})) (fun s => s.csr.tccr1b) = some p.2 := by decide +kernel

theorem test_cs2_rows : ∀ p ∈ ([
    (.cs2Stopped, 0), (.cs2Div1, 1), (.cs2Div8, 2), (.cs2Div32, 3), (.cs2Div64, 4), (.cs2Div128, 5),
    (.cs2Div256, 6), (.cs2Div1024, 7)] : List (Instr × Byte)),
    get (exec p.1 (inHook { tccr2b := 0xFF })) (fun s => s.csr.tccr2b) = some (0xF8 ||| p.2) ∧
    get (exec p.1 (inHook {})) (fun s => s.csr.tccr2b) = some p.2 := by decide +kernel

/-- The mode rows over registers of ones (R114 to R116). -/
theorem test_mode_rows : ∀ p ∈ ([(.com2aNoChange, 0x3F, 0xFF, 0xFF), (.com2aToggle, 0x7F, 0xFF, 0xFF),
    (.com2aForceLow, 0xBF, 0xFF, 0xFF), (.com2aForceHigh, 0xFF, 0xFF, 0xFF), (.wgm2Ctc, 0xFE, 0xF7, 0xFF),
    (.icnc1On, 0xFF, 0xFF, 0xFF), (.icnc1Off, 0xFF, 0xFF, 0x7F), (.ices1Rising, 0xFF, 0xFF, 0xFF),
    (.ices1Falling, 0xFF, 0xFF, 0xBF), (.foc2aRequest, 0xFF, 0xFF, 0xFF)] : List (Instr × Byte × Byte × Byte)),
    get (exec p.1 (inHook { tccr2a := 0xFF, tccr2b := 0xFF, tccr1b := 0xFF }))
      (fun s => (s.csr.tccr2a, s.csr.tccr2b, s.csr.tccr1b)) = some p.2 := by decide +kernel

/-- The rows that set a bit over registers of zeros (R116). -/
theorem test_bit_rows : ∀ p ∈ ([(.toie0Enable, .timsk0, 1), (.ocie0aEnable, .timsk0, 2), (.ocie0bEnable, .timsk0, 4),
    (.toie1Enable, .timsk1, 1), (.ocie1aEnable, .timsk1, 2), (.ocie1bEnable, .timsk1, 4), (.toie2Enable, .timsk2, 1),
    (.ocie2aEnable, .timsk2, 2), (.ocie2bEnable, .timsk2, 4), (.tov0Pending, .tifr0, 1), (.ocf0aPending, .tifr0, 2),
    (.ocf0bPending, .tifr0, 4), (.tov1Pending, .tifr1, 1), (.ocf1aPending, .tifr1, 2), (.ocf1bPending, .tifr1, 4),
    (.tov2Pending, .tifr2, 1), (.ocf2aPending, .tifr2, 2), (.ocf2bPending, .tifr2, 4), (.icnc1On, .tccr1b, 0x80),
    (.ices1Rising, .tccr1b, 0x40), (.foc2aRequest, .tccr2b, 0x80)] : List (Instr × CsrCell × Byte)),
    get (exec p.1 (inHook {})) (fun s => cellRead s.csr p.2.1) = some p.2.2 := by decide +kernel

/-! ### The decoder -/

/-- A state whose firmware answers `st` to a status read and 0x55 to a data read. -/
def polled (st : Nat) (keepGoing : Bool) : State :=
  { at_ 4 {} { pcRead := onControl (store 0xE1 st) (store 0xE1 0x55) } with dec := { keepGoing := keepGoing } }

def afterPoll (st : Nat) (keepGoing : Bool) : Option (List HostError × List Byte × Bool) :=
  get (exec .poll (polled st keepGoing)) fun s => (s.errors, s.dec.received, s.dec.stopped)

/-- V70. -/
theorem test_poll_table : ∀ p ∈ ([(0x01, false, [], [], false), (0x00, false, [], [0x55], false),
    (0x80, false, [], [0x55], false), (0x08, false, [.framing 4], [], true), (0x08, true, [.framing 4], [0x55], false),
    (0x04, false, [.parity 4], [], true), (0x05, true, [.parity 4], [], false), (0x0C, false, [.framing 4], [], true),
    (0x0C, true, [.framing 4, .parity 4], [0x55], false), (0x0D, true, [.framing 4, .parity 4], [], false)] :
    List (Nat × Bool × List HostError × List Byte × Bool)), afterPoll p.1 p.2.1 = some p.2.2 := by decide +kernel

/-- V71. -/
theorem test_poll_stopped :
    get (exec .poll { polled 0x00 false with dec := { stopped := true } }) called = some [] := by decide +kernel

/-- A decoder on the reference of V72. -/
def comparing (refPos : Nat) (inLeader : Bool) (keepGoing : Bool := false) : State :=
  { at_ 6 {} with dec := {
      ref := some [0x16, 0x16, 0x16, 0x01, 0x02], refPos := refPos, inLeader := inLeader, keepGoing := keepGoing } }

def afterCompare (b : Byte) (s : State) : Option (Nat × List HostError × Bool × Nat) :=
  get (exec (.compare b) s) fun s => (s.dec.refPos, s.errors, s.dec.stopped, s.dec.endReports)

/-- V72: the bytes of the source's two streams, an extra leader byte, a late 0x16, the end of the stream. -/
theorem test_compare_table : ∀ p ∈ ([(0x16, comparing 0 true, 1, [], false, 0),
    (0x16, comparing 3 true, 3, [], false, 0), (0x01, comparing 2 true, 4, [], false, 0),
    (0x03, comparing 1 true, 4, [.mismatch 0x01 0x03 6], true, 0),
    (0x16, comparing 4 false true, 5, [.mismatch 0x02 0x16 6], false, 0), (0x03, comparing 5 false, 5, [], false, 1)] :
    List (Byte × State × Nat × List HostError × Bool × Nat)), afterCompare p.1 p.2.1 = some p.2.2 := by decide +kernel

/-- R262: the status rows, each alone (log 5). -/
theorem test_status_rows :
    get (exec .statusFraming (polled 0 false)) (fun s => (s.errors, s.dec.stopped)) = some ([.framing 4], true) ∧
    get (exec .statusParity (polled 0 true)) (fun s => (s.errors, s.dec.stopped)) = some ([.parity 4], false) ∧
    get (exec .statusByteAvailable (polled 0 false)) (fun s => s.dec.received) = some [0x55] := by decide +kernel

/-! ### The source adapter -/

/-- The firmware of P2. -/
def p2 : Firmware where
  t1Capt := .seq (.csrr16 0x86) (.seq (.append .lastRead) (.seq (.csrr 0x81)
    (.csrw 0x81 (.bin .xor .lastRead (.lit 0x40)))))
  pcRead := onControl (store 0xE1 0x01) .skip

/-- P2, the first three records. -/
theorem test_csv_play :
    get (exec (.csvPlay [(0, 0), (100, 1), (250, 0)]) (at_ 0 { tccr1b := 0xC1 } p2))
      (fun s => (s.tick, s.csr.tccr1b, s.csr.icr1, s.lastAccept, s.exitStatus))
    = some (25, 0x81, 0x000A, some 10, some 0) := by decide +kernel

/-- U13, performed and as a step; and R282: a decoder that stops before that record fails the run first. -/
theorem test_csv_record_before_origin :
    refusal (exec (.csvPlay [(5, 0), (4, 1)]) (at_ 0 {} p2)) = some .recordBeforeOrigin ∧
    refusal (step { at_ 0 {} p2 with trace := [.operation (.csvPlay [(5, 0), (4, 1)])] }) = some .recordBeforeOrigin ∧
    get (step { polled 0x08 false with trace := [.operation (.csvPlay [(5, 0), (4, 1)])] })
      (fun s => (s.dec.stopped, s.outcome)) = some (true, some false) := by decide +kernel

/-- V82, for `n` data bytes. -/
def header (n : Byte) : List Byte :=
  [0x52, 0x49, 0x46, 0x46, 0x2C, 0, 0, 0, 0x57, 0x41, 0x56, 0x45, 0x66, 0x6D, 0x74, 0x20, 0x10, 0, 0, 0, 1, 0, 1, 0,
    0x44, 0xAC, 0, 0, 0x44, 0xAC, 0, 0, 1, 0, 8, 0, 0x64, 0x61, 0x74, 0x61, n, 0, 0, 0]

/-- P5, the first two samples; the descriptor of R281, gone when a CSV stream is played. -/
theorem test_wav_play :
    get (exec (.wavPlay (header 2 ++ [0x80, 0xFF])) (at_ 0 { tccr1b := 0x41 } p2))
      (fun s => (s.tick, s.csr.icr1, s.csr.tccr1b, s.prevLevel, s.outcome))
    = some (45, 0x0017, 0x01, true, some true) ∧
    get (exec (.wavPlay (header 2 ++ [0x80, 0xFF])) (at_ 0 {})) State.src
    = some { k := 2, descriptor := some ⟨1, 44100, 8, .littleEndian⟩ } ∧
    get (exec (.csvPlay []) { at_ 9 {} with src := { k := 2, descriptor := some ⟨1, 44100, 8, .littleEndian⟩ } })
      State.src = some { t0 := 9 } := by decide +kernel

/-- V83: 43 bytes; a bad marker; data that ends early. -/
theorem test_wav_errors :
    get (exec (.wavPlay ((header 2).take 43)) (at_ 3 {} p2)) (fun s => (s.errors, s.outcome, s.tick))
      = some ([.truncated 3], some false, 3) ∧
    get (exec (.wavPlay ((header 2).set 0 0x58)) (at_ 3 {} p2)) (fun s => (s.errors, called s))
      = some ([.unsupportedFormat 3], []) ∧
    get (exec (.wavPlay (header 2 ++ [0x80])) (at_ 0 {} p2)) (fun s => (s.errors, s.tick))
      = some ([.truncated 23], 23) := by decide +kernel

/-- V83: what is rejected and what is not checked. -/
theorem test_header_ok :
    wavHeaderOk (header 8) = true ∧ wavHeaderOk ((header 8).set 11 0x46) = false ∧
    wavHeaderOk ((header 8).set 15 0) = false ∧ wavHeaderOk ((header 8).set 36 0x4C) = false ∧
    wavHeaderOk ((header 8).set 20 3) = false ∧ wavHeaderOk ((header 8).set 34 0x0C) = false ∧
    wavHeaderOk ((header 8).set 32 2) = false ∧ wavHeaderOk ((header 8).set 22 0) = false ∧
    wavHeaderOk (((header 8).set 24 0).set 25 0) = false ∧ wavHeaderOk ((header 8).set 4 9) = true ∧
    wavHeaderOk ((header 8).set 28 7) = true := by decide +kernel

/-- V84, V85. -/
theorem test_sample_values :
    [0x00, 0x7F, 0x80, 0x81, 0xFF].map (fun b => sampleValue 8 [b]) = [-128, -1, 0, 1, 127] ∧
    [[0x00, 0x00], [0x01, 0x00], [0xFF, 0x7F], [0x00, 0x80], [0xFF, 0xFF]].map (sampleValue 16)
      = [0, 1, 32767, -32768, -1] ∧
    [[1, 0, 0, 0], [0xFF, 0xFF, 0xFF, 0x7F], [0, 0, 0, 0x80], [0xFF, 0xFF, 0xFF, 0xFF]].map (sampleValue 32)
      = [1, 2147483647, -2147483648, -1] ∧
    sampleValue 16 [0x01, 0x00, 0xFF, 0xFF] = 1 := by decide +kernel

/-- V80, V92: the grids, with ties. -/
theorem test_sample_grid :
    (List.range 9).map (fun k => sampleTick k 1000000 44100) = [0, 23, 45, 68, 91, 113, 136, 159, 181] ∧
    (List.range 9).map (fun k => sampleTick k 22050 44100) = [0, 1, 1, 2, 2, 3, 3, 4, 4] ∧
    (List.range 9).map (fun k => sampleTick k 72000 48000) = [0, 2, 3, 5, 6, 8, 9, 11, 12] := by decide +kernel

/-! ### The sink -/

/-- V91. -/
theorem test_filter :
    filterValue (-13) true = 31 ∧ filterValue (-84) true = -16 ∧ filterValue (-1) false = -40 ∧
    filterValue 1 false = -39 ∧ filterValue 120 true = 120 ∧ filterValue (-120) false = -120 := by decide +kernel

/-- V94, V96. -/
theorem test_output_bytes :
    [-118, 0, 118, -120, 120].map sampleByte = [10, 128, 246, 8, 248] ∧
    outputHeader 192002 = [0x52, 0x49, 0x46, 0x46, 0x26, 0xEE, 0x02, 0x00, 0x57, 0x41, 0x56, 0x45, 0x66, 0x6D, 0x74,
      0x20, 0x10, 0, 0, 0, 1, 0, 1, 0, 0x80, 0xBB, 0, 0, 0x80, 0xBB, 0, 0, 1, 0, 8, 0, 0x64, 0x61, 0x74, 0x61, 0x02,
      0xEE, 0x02, 0x00] := by decide +kernel

/-- R324: the header, then the samples; R120: 37 bytes after the first 8. -/
theorem test_output_file :
    ((finishSink true { at_ 9 {} with snk := { n := 1, samples := [128] } }).snk.file.drop 36)
      = [0x64, 0x61, 0x74, 0x61, 1, 0, 0, 0, 128] ∧
    ((finishSink true { at_ 9 {} with snk := { n := 1, samples := [128] } }).snk.file.take 8)
      = [0x52, 0x49, 0x46, 0x46, 37, 0, 0, 0] := by decide +kernel

/-- R340, the first column of its table. -/
theorem test_error_codes :
    [HostError.framing 0, .parity 0, .mismatch 0 1 0, .unsupportedFormat 0, .fileOpen, .bufferStuck 0, .truncated 0].map
      errorCode = [1, 2, 3, 4, 5, 6, 7] := by decide

/-- V93. -/
theorem test_stuck :
    outputStuck (at_ 5000 {}) = false ∧
    outputStuck { at_ 1350 {} with snk := { lastChange := 100, toggled := true } } = false ∧
    outputStuck { at_ 1351 {} with snk := { lastChange := 100, toggled := true } } = true := by decide +kernel

/-- R322 with `CLOCK_HZ = 24000` (V92): two samples on tick 1, none yet on tick 2. -/
theorem test_emit :
    ((fun s => (s.snk.n, s.snk.samples)) <| emitSamples
      { at_ 1 {} with params := ⟨24000, 0, 0, .b7⟩, snk := { n := 1, samples := [128], prev := -40 } })
    = (3, [128, 88, 88]) := by decide +kernel

/-- The pass of P4 at tick 144000: a byte is sent after the leader, and the bound moves one second on (R313, R314). -/
theorem test_status_room :
    get (exec .statusRoom { at_ 144000 {} with snk := { data := [0x41, 0x42], leaderEnd := 144000 } })
      (fun s => (s.snk.pos, s.snk.endTime, s.csr.busdata, called s)) = some (1, 1144000, 0x41, [.pcWrite]) ∧
    get (exec .statusRoom { at_ 143999 {} with snk := { data := [0x41, 0x42], leaderEnd := 144000 } }) called
      = some [] := by decide +kernel

/-! ### Witnesses of the obligations -/

/-- Registers in which every channel runs, with some flags and enables set. -/
def running : Csrs :=
  { tcnt0 := 0xFE, tccr0b := 1, timsk0 := 7, tcnt1 := 0xFFFF, tccr1b := 0x41, tcnt2 := 3, ocr2a := 5, tccr2a := 0x42,
    tccr2b := 2, tifr1 := 0x20, busctl := 1, busdata := 0x5A }

/-- A passive firmware that reads registers and counts. -/
def counting : Firmware := { loop := count, t0Ovf := .csrr 0x35, t1Capt := .csrr16 0x86, pcRead := .csrr 0xE1 }

/-- Used for the statements about every state between two operations with a legal firmware. -/
def legalState : State := at_ 7 running p2

/-- An operation that completes, one that is refused, a word that is rejected, an empty trace, words placed for the
host and for the firmware. -/
theorem witness_StepRunsTheDecodedOperation :
    (reads (.word 32 0x10000000) = some .step ∧
      get (step { legalState with trace := [.word 32 0x10000000] }) (fun s => (s.tick, s.trace)) = some (8, [])) ∧
    (reads (.word 32 0x50B20000) = some (.csrr 0xB2) ∧
      refusal (step { legalState with trace := [.word 32 0x50B20000] }) = some .firmwareOperationOutsideCallback) ∧
    refusal (step { legalState with trace := [.word 32 0xF0000000] }) = some (.illFormedWord .reservedOp) ∧
    legalState.trace = [] ∧
    (decodeTableWord 32 0x10000000 = some .step ∧ decodeTableWord 32 0x50B20000 = some (.csrr 0xB2) ∧
      get (step (legalState.withFetchWord 32 0x10000000)) State.tick = some 8 ∧
      get (step (legalState.withFetchWord 32 0x50B20000)) (fun s => s.fwst.lastRead) = some 3) := by decide +kernel

theorem witness_AgentsAreSeparated :
    (Instr.performer .step ≠ .firmware ∧ Instr.performer (.overflow .t0) ≠ .firmware ∧
      (inHook running).moment = .callback .loop) ∧
    (Instr.performer .step = .host ∧ (inStep legalState).moment = .step ∧
      refusal (exec .step (inStep legalState)) = some .hostOperationInStep) ∧
    (Instr.performer (.overflow .t0) = .block ∧ Instr.performer (.csrw 0x35 0) = .firmware ∧
      legalState.moment = .between) ∧
    (reads (.word 32 0x60350000) = some (.csrw 0x35 0) ∧
      refusal (step { legalState with trace := [.word 32 0x60350000] }) = some .firmwareOperationOutsideCallback) ∧
    (reads (.operation (.overflow .t0)) = some (.overflow .t0) ∧
      refusal (step { legalState with trace := [.operation (.overflow .t0)] }) = some .subOperationOutsideStep) := by
  decide +kernel

/-- With no `setup`, and with one that writes registers (R386, R388). -/
theorem witness_ResetOperation :
    (legalState.moment = .between ∧ legalState.fw.legal = true ∧ legalState.fw.setup.passive = true ∧
      legalState.fw.setup = .skip) ∧
    get (exec .reset legalState) (fun s => (s.csr.tcnt0, s.calls)) = some (0, [⟨.setup, 0⟩]) ∧
    (let s := at_ 7 running { setup := .set .cs0 (.lit 2) }
    s.moment = .between ∧ s.fw.legal = true ∧
      get (exec .reset s) (fun t => (t.csr.tccr0b, t.csr.tcnt0, t.fwst.lastRead)) = some (0x02, 0, 0)) := by
  decide +kernel

theorem witness_ResetForgetsThePast :
    legalState.moment = .between ∧ (at_ 0 {} p2).moment = .between ∧ legalState.fw = (at_ 0 {} p2).fw ∧
    legalState.fwst0 = (at_ 0 {} p2).fwst0 ∧ legalState.fw.legal = true ∧ legalState.tick ≠ (at_ 0 {} p2).tick := by
  decide +kernel

/-- Also for a state whose output mode is "no change". -/
theorem witness_StepOperation :
    (legalState.moment = .between ∧ legalState.fw.legal = true) ∧
    ((at_ 7 { ocr2a := 1 } p2).fw.legal = true ∧ fieldRead (at_ 7 { ocr2a := 1 } p2).csr .com2a = 0) := by
  decide +kernel

theorem witness_HookRunsOncePerTick :
    legalState.moment = .between ∧ legalState.fw.legal = true ∧ legalState.fw.loop = .skip := by decide +kernel

theorem witness_StoppedTimersCallNothing :
    (at_ 4 { timsk0 := 7, tifr0 := 7, tccr1b := 6 } counting).moment = .between ∧
    (at_ 4 { timsk0 := 7, tifr0 := 7, tccr1b := 6 } counting).fw.legal = true ∧
    (∀ n ∈ [Channel.t0, .t1, .t2], divisor (at_ 4 { timsk0 := 7, tifr0 := 7, tccr1b := 6 } counting).csr n = 0) ∧
    counting.loop.passive = true ∧ (at_ 4 { timsk0 := 7 } counting).oc2aMatch = false ∧
    fieldRead (at_ 4 { timsk0 := 7 } counting).csr .foc2a = 0 := by decide +kernel

/-- With every divisor, 1 and stopped among them; Timer2 out of its clearing mode; from a count at its end. -/
theorem witness_CountingRate :
    (at_ 7 { tcnt0 := 0xFF, tccr0b := 1, tccr1b := 0, tccr2b := 7 } counting).moment = .between ∧
    counting.passive = true ∧ wgm2 (at_ 7 { tcnt0 := 0xFF, tccr2b := 7 } counting).csr ≠ Config.wgm2Ctc ∧
    get (exec (.steps 9) (at_ 7 { tcnt0 := 0xFF, tccr0b := 1, tccr1b := 2 } counting))
      (fun s => (s.csr.tcnt0, s.csr.tcnt1)) = some (8, 2) ∧
    due 8 16 = true ∧ due 8 15 = false ∧ due 0 16 = false := by decide +kernel

/-- `OCR2A` 5 with divisor 8 (P1), and `OCR2A` 0, where the count starts at its last value. -/
theorem witness_CtcSquareWave :
    (∀ s ∈ [at_ 0 { tccr2a := 0x42, ocr2a := 5, tccr2b := 2 } counting,
        at_ 9 { tccr2a := 0x42, ocr2a := 0, tccr2b := 1, tcnt2 := 255 } counting,
        at_ 9 { tccr2a := 0x42, ocr2a := 1, tccr2b := 1 } counting],
      s.moment = .between ∧ s.fw.passive = true ∧ wgm2 s.csr = Config.wgm2Ctc ∧ fieldRead s.csr .com2a = 1 ∧
      fieldRead s.csr .foc2a = 0 ∧ s.oc2aMatch = false ∧
      s.csr.tcnt2.toNat < (if s.csr.ocr2a = 0 then 256 else s.csr.ocr2a.toNat)) ∧
    [39, 40, 79, 80].map (fun k => get (exec (.steps k) (at_ 0 { tccr2a := 0x42, ocr2a := 5, tccr2b := 2 } counting))
      fun s => (s.csr.tcnt2, s.oc2a)) = [some (4, false), some (0, true), some (4, true), some (0, false)] := by
  decide +kernel

theorem witness_RepeatedSteps : legalState.moment = .between ∧ legalState.fw.legal = true := by decide +kernel

/-- A wrap of each width, and a match that clears. -/
theorem witness_TimerTickUndispatched :
    (∀ s ∈ [at_ 1 { tcnt0 := 255, tcnt1 := 0xFFFF, tcnt2 := 255 },
        at_ 1 { tcnt2 := 4, ocr2a := 5, tccr2a := 2, tifr2 := 0xF8 }],
      (inStep s).moment = .step ∧ ∀ n ∈ [Channel.t0, .t1, .t2], ∀ e ∈ [Event.ovf, .compA, .compB],
        enabled s.csr ⟨n, e⟩ = false) ∧
    get (exec (.timerTick .t2) (inStep (at_ 1 { tcnt2 := 4, ocr2a := 5, tccr2a := 2, tifr2 := 0xF8 })))
      (fun s => (s.csr.tcnt2, s.csr.tifr2)) = some (0, 0xFA) := by decide +kernel

/-- Handlers that write no register, an event that occurs and is enabled, one that occurs and is not, one that does not
occur; and V26, where the first handler writes the register of a later condition. -/
theorem witness_TimerTickOperation :
    ((inStep legalState).moment = .step ∧ legalState.fw.legal = true) ∧
    (let s := at_ 7 { running with tcnt0 := 0xFF, timsk0 := 1, ocr0b := 9 } counting
    s.fw.legal = true ∧
      (∀ e ∈ [Event.ovf, .compA, .compB], enabled s.csr ⟨.t0, e⟩ = true →
        (stubOf s.fw (.timer ⟨.t0, e⟩)).passive = true) ∧
      (eventOccurs s ⟨.t0, .ovf⟩, eventOccurs s ⟨.t0, .compA⟩, eventOccurs s ⟨.t0, .compB⟩) = (true, true, false) ∧
      get (exec (.timerTick .t0) (inStep s)) (fun t => (called t, t.csr.tifr0)) = some ([.timer ⟨.t0, .ovf⟩], 0x02)) ∧
    (let s := at_ 1 { tcnt0 := 0xFF, ocr0b := 9, timsk0 := 0x05 } { t0Ovf := store 0x48 0 }
    s.fw.legal = true ∧ eventOccurs s ⟨.t0, .compB⟩ = false ∧
      get (exec (.timerTick .t0) (inStep s)) (fun t => (called t, t.csr.ocr0b)) = some ([.timer ⟨.t0, .ovf⟩], 0)) := by
  decide +kernel

/-- An enabled source with a passive handler, one whose handler writes registers, and a source that is not enabled. -/
theorem witness_EventSetsFlagAndDispatches :
    (inStep (at_ 2 running counting)).moment = .step ∧ (at_ 2 running counting).fw.legal = true ∧
    enabled running ⟨.t0, .ovf⟩ = true ∧ (stubOf counting (.timer ⟨.t0, .ovf⟩)).passive = true ∧
    enabled running ⟨.t2, .compA⟩ = false ∧
    (let s := at_ 3 { running with timsk2 := 2, tccr2a := 2 } { t2CompA := store 0xB2 9 }
    s.fw.legal = true ∧ enabled s.csr ⟨.t2, .compA⟩ = true ∧ wgm2 s.csr = Config.wgm2Ctc ∧
      get (exec (.matchA .t2) (inStep s)) (fun t => (t.csr.tcnt2, t.csr.tifr2)) = some (9, 0)) := by decide +kernel

theorem witness_DispatchOperation :
    (inStep legalState).moment = .step ∧ legalState.fw.legal = true ∧ enabled legalState.csr ⟨.t2, .ovf⟩ = false ∧
    enabled legalState.csr ⟨.t0, .compB⟩ = true := by decide +kernel

theorem witness_HandlerSeesItsEvent :
    (enabled (at_ 2 running counting).csr ⟨.t0, .ovf⟩ = true ∧
      stubOf counting (.timer ⟨.t0, .ovf⟩) = .csrr (flagField ⟨.t0, .ovf⟩).pos.cell.address) ∧
    ((inStep (at_ 2 { tcnt2 := 5, tccr2a := 2, timsk2 := 2 } { t2CompA := .csrr 0xB2 })).moment = .step ∧
      enabled { tcnt2 := 5, tccr2a := 2, timsk2 := 2 } ⟨.t2, .compA⟩ = true ∧
      wgm2 { tcnt2 := 5, tccr2a := 2, timsk2 := 2 } = Config.wgm2Ctc) := by decide +kernel

theorem witness_StickyFlags :
    (at_ 2 { running with tifr1 := 0x01 } counting).moment = .between ∧ counting.passive = true ∧
    enabled { running with tifr1 := 0x01 } ⟨.t1, .ovf⟩ = false ∧
    flagged { running with tifr1 := 0x01 } ⟨.t1, .ovf⟩ = true := by decide +kernel

/-- The four modes, with the latch set or `FOC2A` set or neither. -/
theorem witness_OutputUpdateTable :
    ∀ s ∈ [{ at_ 1 { tccr2a := 0x40 } with oc2aMatch := true }, at_ 1 { tccr2a := 0xC0, tccr2b := 0x80 }, at_ 1 {}],
      (inStep s).moment = .step := by decide +kernel

/-- A match and a forced compare; a legal firmware; a hook that writes `FOC2A`, with and without a match (V56); neither
a match nor `FOC2A`, on a tick that is due and on one that is not. -/
theorem witness_OneUpdatePerTick :
    ((at_ 1 { tcnt2 := 1, ocr2a := 2, tccr2a := 0x42, tccr2b := 0x81 } counting).moment = .between ∧
      counting.passive = true ∧ due (divisor { tccr2b := 0x81 } .t2) 2 = true ∧
      (({ tcnt2 := 1, ocr2a := 2 } : Csrs).tcnt2.toNat + 1) % 256 = ({ tcnt2 := 1, ocr2a := 2 } : Csrs).ocr2a.toNat ∧
      fieldRead { tccr2b := 0x81 } .foc2a = 1 ∧ fieldRead { tccr2a := 0x42 } .com2a = 1) ∧
    (legalState.moment = .between ∧ legalState.fw.legal = true) ∧
    (∀ ocr2a ∈ ([2, 9] : List Byte),
      let s := at_ 1 { tcnt2 := 1, ocr2a := ocr2a, tccr2a := 0x42, tccr2b := 0x01 }
        { counting with loop := store 0xB1 0x81 }
      s.moment = .between ∧ ({ s.fw with loop := .skip } : Firmware).passive = true ∧
        s.fw.loop = .csrw 0xB1 (.lit 0x81) ∧ 0x81 < 256 ∧ 0x81 / 128 % 2 = 1 ∧
        get (exec .step s) (fun t => (t.oc2a, t.csr.tccr2b)) = some (true, 0x01)) ∧
    (∀ s ∈ [at_ 1 { tcnt2 := 1, ocr2a := 9, tccr2a := 0x42, tccr2b := 0x01 } counting,
        at_ 1 { tcnt2 := 1, ocr2a := 2, tccr2a := 0x42, tccr2b := 0x05 } counting],
      s.moment = .between ∧ s.fw.passive = true ∧ s.oc2aMatch = false ∧ fieldRead s.csr .foc2a = 0 ∧
        (due (divisor s.csr .t2) (s.tick + 1) = false ∨ (s.csr.tcnt2.toNat + 1) % 256 ≠ s.csr.ocr2a.toNat)) := by
  decide +kernel

theorem witness_OutputAndCaptureWriters :
    (∃ t, exec (.timerTick .t1) (inStep legalState) = .next t) ∧ mayWriteOutput (.timerTick .t1) = false ∧
    mayWriteCapture (.timerTick .t1) = false :=
  ⟨next_of_isNext (by decide +kernel), rfl, rfl⟩

theorem witness_FeedOfTheSameLevel :
    legalState.moment = .between ∧ (∃ t, exec (.feed true) legalState = .next t) :=
  ⟨rfl, next_of_isNext (by decide +kernel)⟩

/-- The canceler on at 19 and at 20 ticks, and with no earlier acceptance; the canceler off; both polarities. -/
theorem witness_FeedNoiseTest :
    (∀ s ∈ [{ at_ 119 { tccr1b := 0xC1 } p2 with lastAccept := some 100 },
        { at_ 120 { tccr1b := 0xC1 } p2 with lastAccept := some 100 }, at_ 0 { tccr1b := 0xC1 } p2,
        { at_ 100 { tccr1b := 0x01 } p2 with lastAccept := some 100 }],
      s.moment = .between ∧ s.fw.legal = true ∧ true ≠ s.prevLevel) ∧
    (fieldRead { tccr1b := 0xC1 } .icnc1 = 1 ∧ (119 < 100 + 20) ∧ ¬ (120 < 100 + 20)) ∧
    fieldRead { tccr1b := 0xC1 } .ices1 = 1 ∧ fieldRead { tccr1b := 0x01 } .icnc1 = 0 ∧
    fieldRead { tccr1b := 0x01 } .ices1 = 0 := by decide +kernel

/-- The three ways to be accepted; a passive handler and the handler that reads the latch, on the selected edge. -/
theorem witness_CaptureLatch :
    (∀ s ∈ [at_ 3 { tccr1b := 0x41 } counting, at_ 3 { tccr1b := 0xC1 } counting,
        { at_ 120 { tccr1b := 0xC1 } counting with lastAccept := some 100 }],
      s.moment = .between ∧ true ≠ s.prevLevel ∧ s.fw.t1Capt.passive = true ∧ s.fw.t1Capt = .csrr16 0x86 ∧
      fieldRead s.csr .ices1 = 1 ∧
      (fieldRead s.csr .icnc1 = 0 ∨ s.lastAccept = none ∨ s.lastAccept = some 100 ∧ 100 + 20 ≤ s.tick)) := by
  decide +kernel

theorem witness_ReadTransaction : legalState.moment = .between ∧ legalState.fw.legal = true := by decide +kernel
theorem witness_WriteTransaction : legalState.moment = .between ∧ legalState.fw.legal = true := by decide +kernel

theorem witness_StaleByteAndPins :
    (legalState.moment = .between ∧ counting.pcRead.passive = true ∧ counting.pcWrite.passive = true) ∧
    ((at_ 2 running { pcRead := .csrr 0xE0, pcWrite := .csrr 0xE0 }).moment = .between ∧
      running.busctl &&& 0xFE = 0) := by decide +kernel

theorem witness_PinRowsAreTransactions : legalState.moment = .between ∧ legalState.fw.legal = true := by decide +kernel

/-- Inside the hook; 0x83 is an address between mapped ones. -/
theorem witness_CsrrOperation :
    (inHook running).moment = .callback .loop ∧
    (∀ cell : CsrCell, cell.address ≠ 0x83) ∧ (∀ cell : CsrCell, cell.address ≠ 0xFF) :=
  ⟨rfl, fun cell => by cases cell <;> decide, fun cell => by cases cell <;> decide⟩

theorem witness_CsrwOperation :
    (inHook running).moment = .callback .loop ∧ CsrCell.busdata ≠ .busctl ∧
    (∀ cell : CsrCell, cell.address ≠ 0x00) ∧ (∀ cell : CsrCell, cell.address ≠ 0xE2) :=
  ⟨rfl, by decide, fun cell => by cases cell <;> decide, fun cell => by cases cell <;> decide⟩

/-- The addresses next to the four of R89 fall under the refusing clause. -/
theorem witness_WordAccess :
    (inHook running).moment = .callback .loop ∧
    ∀ a ∈ ([0x83, 0x85, 0x87, 0x89, 0x8B] : List Byte), a ≠ 0x84 ∧ a ≠ 0x86 ∧ a ≠ 0x88 ∧ a ≠ 0x8A := by decide +kernel

theorem witness_SetFieldOperation :
    (inHook running).moment = .callback .loop ∧
    (CsrField.wgm1High.pos.cell ≠ .busctl ∧ 3 < 2 ^ CsrField.wgm1High.pos.width ∧
      ¬ 4 < 2 ^ CsrField.wgm1High.pos.width) ∧
    CsrField.rds.pos.cell = .busctl := by decide +kernel

theorem witness_PrescalerSelectsOfTimers0And1 : (inHook running).moment = .callback .loop := rfl
theorem witness_PrescalerSelectsOfTimer2 : (inHook running).moment = .callback .loop := rfl
theorem witness_OutputAndWaveformModes : (inHook running).moment = .callback .loop := rfl
theorem witness_CaptureSelectsAndForcedCompare : (inHook running).moment = .callback .loop := rfl
theorem witness_EnableAndFlagRows : (inHook running).moment = .callback .loop := rfl

/-- Stopped; and a state for each clause: framing, parity, an error with keep-going, no byte, a byte. -/
theorem witness_PollByStatus :
    { polled 0 false with dec := { stopped := true } }.moment = .between ∧
    (∀ p ∈ ([(0x08, false), (0x04, false), (0x0D, true), (0x0C, true), (0x01, false), (0x00, false)] :
        List (Nat × Bool)),
      (polled p.1 p.2).dec.stopped = false ∧ (polled p.1 p.2).dec.keepGoing = p.2 ∧
      get (exec (.rd .control) (polled p.1 p.2)) (fun s => s.hostResult.toNat) = some p.1 ∧
      isNext (exec .poll (polled p.1 p.2)) = true) := by decide +kernel

/-- A decoder that has not stopped, and one that has. -/
theorem witness_PollOperation :
    ((polled 0 false).moment = .between ∧ (polled 0 false).fw.legal = true ∧ (polled 0 false).dec.stopped = false) ∧
    { polled 0 false with dec := { stopped := true } }.dec.stopped = true := by decide +kernel

/-- No reference; the end of the reference at exactly its length; a match; a mismatch; a leader byte. -/
theorem witness_CompareOperation :
    ((at_ 1 {}).moment = .between ∧ (at_ 1 {}).dec.ref = none) ∧
    ((comparing 5 false).dec.inLeader = false ∧ (comparing 5 false).dec.refPos = 5) ∧
    ((comparing 4 false).dec.ref.getD [])[4]? = some 0x02 ∧
    ((comparing 1 true).dec.inLeader = true ∧ ((comparing 1 true).dec.ref.getD []).head? = some 0x16 ∧
      (0x01 : Byte) ≠ 0x16) := by
  decide +kernel

theorem witness_LeaderTolerance :
    (comparing 0 true).moment = .between ∧ 0 < 3 ∧ (0x01 : Byte) ≠ 0x16 ∧
    (comparing 0 true).dec.ref = some (List.replicate 3 0x16 ++ 0x01 :: [0x02]) ∧ (comparing 0 true).dec.refPos = 0 ∧
    (comparing 0 true).dec.inLeader = true ∧ (0x03 : Byte) ≠ 0x16 ∧ (0x03 : Byte) ≠ 0x01 := by decide +kernel

/-- The decoder stopped and not; the leader not yet over, nothing left to send, and a byte to send. -/
theorem witness_StatusRows :
    (polled 0 false).moment = .between ∧ (polled 0 false).fw.legal = true ∧ (polled 0 false).dec.stopped = false ∧
    { polled 0 false with dec := { stopped := true } }.dec.stopped = true ∧
    (at_ 9 {}).snk.data.length ≤ (at_ 9 {}).snk.pos ∧
    { at_ 9 {} with snk := { leaderEnd := 10 } }.tick < 10 ∧
    { at_ 9 {} with snk := { leaderEnd := 9, data := [0x41] } }.snk.data[0]? = some 0x41 := by decide +kernel

/-- A list from its origin, played whole; a list played until an error stops it; a list refused, and one that is
stopped before its bad record. Nothing left over of no reference; a reference byte left over, and leader bytes still
being skipped, which are not. -/
theorem witness_CsvPlayOperation :
    (legalState.moment = .between ∧ legalState.fw.legal = true ∧ recordsFromOrigin [(0, 0), (100, 1)] = true ∧
      recordsFromOrigin [(5, 0), (4, 1)] = false) ∧
    get (exec (.csvPlay [(0, 0), (100, 1)]) legalState) (fun s => s.dec.stopped) = some false ∧
    get (exec (.csvPlay [(0, 0), (100, 1)]) (polled 0x08 false)) (fun s => s.dec.stopped) = some true ∧
    get (exec (.csvPlay [(5, 0), (4, 1)]) (polled 0x08 false)) (fun s => s.dec.stopped) = some true ∧
    [({ polled 0x01 false with dec := {} } : State), { polled 0x01 false with dec := { ref := some [0x16, 0x41] } },
        { polled 0x01 false with dec := { ref := some [0x16, 0x16], ignoreLeader := true } }].map
      (fun s => get (exec (.csvPlay [(0, 0)]) s) fun t => (t.dec.stopped, t.errors.length, t.outcome, t.exitStatus))
      = [some (false, 0, some true, some 0), some (false, 0, some true, some 1),
          some (false, 0, some true, some 0)] := by
  decide +kernel

/-- 43 bytes, 44 bytes with a bad header, a good file; a file with a frame missing, and one the decoder stops (R287). -/
theorem witness_WavPlayOperation :
    legalState.moment = .between ∧ legalState.fw.legal = true ∧ ((header 1).take 43).length < 44 ∧
    (44 ≤ ((header 1).set 20 3).length ∧ wavHeaderOk ((header 1).set 20 3) = false) ∧
    wavHeaderOk (header 1) = true ∧
    get (exec (.wavPlay (header 2 ++ [0x80])) legalState) (fun s => (s.dec.stopped, s.outcome, s.exitStatus))
      = some (false, some false, some 1) ∧
    get (exec (.wavPlay (header 2 ++ [0x80, 0x80])) (polled 0x08 false))
      (fun s => (s.dec.stopped, s.outcome, s.exitStatus)) = some (true, some false, some 1) := by decide +kernel

/-- The header of a stream of one sample per second. -/
def header1Hz : List Byte := ((header 1).set 24 1).set 25 0

theorem witness_WavPlayClock :
    legalState.moment = .between ∧ legalState.fw.legal = true ∧ wavHeaderOk (header 2 ++ [0x80, 0xFF]) = true ∧
    44 + wavDataSize (header 2) / wavBlockAlign (header 2) * wavBlockAlign (header 2)
      ≤ (header 2 ++ [0x80, 0xFF]).length ∧
    get (exec (.wavPlay (header 2 ++ [0x80, 0xFF])) legalState) (fun s => (s.dec.stopped, s.tick))
      = some (false, 7 + 45) ∧
    (wavHeaderOk (header1Hz ++ [0]) = true ∧
      wavDataSize (header1Hz ++ [0]) / wavBlockAlign (header1Hz ++ [0]) = wavSampleRate (header1Hz ++ [0]) ∧
      get (exec (.wavPlay (header1Hz ++ [0])) { legalState with params := ⟨3, 0, 0, .b7⟩ }) State.tick
        = some (7 + 3)) := by decide +kernel

/-- The ends of the range of a sample. -/
theorem witness_SampleDecoding :
    (-128 : Int) ≤ -128 ∧ (-128 : Int) ≤ 127 ∧ sampleByte (-128) = 0x00 ∧ sampleByte 127 = 0xFF := by decide +kernel

theorem witness_SampleGridIsNearest : 0 < 44100 ∧ sampleTick 1 22050 44100 = 1 := by decide +kernel

theorem witness_SinkRunOperation :
    legalState.moment = .between ∧ legalState.fw.legal = true ∧ 0 < legalState.params.clockHz := by decide +kernel

theorem sinkRun_next (data : List Byte) {s : State} (hc : s.moment = .between) (h : s.fw.legal = true) :
    ∃ t, exec (.sinkRun data) s = .next t := by
  rw [exec, execSinkRun, betweenOperations_between hc]
  exact sinkRunAll_total h

theorem witness_SinkSampleCount :
    0 < legalState.params.clockHz ∧ ∃ t, exec (.sinkRun [0x41]) legalState = .next t :=
  ⟨by decide +kernel, sinkRun_next _ rfl (by decide +kernel)⟩

theorem witness_SinkRunBytesAndSamples :
    0 < legalState.params.clockHz ∧ ∃ t, exec (.sinkRun [0x41, 0x42]) legalState = .next t :=
  ⟨by decide +kernel, sinkRun_next _ rfl (by decide +kernel)⟩

/-- V93: a level that changes on the first tick and then stands is stuck at the 1252nd tick, not at the 1251st. -/
theorem test_stuck_bound :
    StuckAt (fun i => decide (1 ≤ i)) 1252 ∧ ¬ StuckAt (fun i => decide (1 ≤ i)) 1251 ∧
    ∀ i, ¬ StuckAt (fun _ => true) i := by
  refine ⟨⟨0, by decide, fun m h _ => by simp; omega, by omega⟩, ?_, fun i h => h.choose_spec.1 rfl⟩
  rintro ⟨c, h, -, hc⟩
  have : ¬ 1 ≤ c := fun k => h (by simp [k])
  omega

theorem witness_SinkHeaderIsAccepted : ∃ t, exec (.sinkRun []) legalState = .next t :=
  sinkRun_next _ rfl (by decide +kernel)

/-- The ends of the range, and a value on each side of 0. -/
theorem witness_FilterTowardZero :
    ∀ p ∈ ([-120, -1, 0, 120] : List Int), -120 ≤ p ∧ p ≤ 120 := by decide +kernel

/-- The reset state with an operation to perform. -/
theorem witness_StepKeepsInvariant :
    Invariant (at_ 0 {}) ∧ Invariant ((at_ 0 {} p2).withFetchWord 32 0x10000000) ∧
    ∃ t, step ((at_ 0 {} p2).withFetchWord 32 0x10000000) = .next t :=
  ⟨⟨rfl, by decide, rfl, by simp [at_, State.reset], by decide, by decide, rfl⟩,
    ⟨rfl, by decide, rfl, by simp [at_, State.reset, State.withFetchWord], by decide, by decide,
      rfl⟩,
    next_of_isNext (by decide +kernel)⟩

theorem witness_LegalFirmwareCompletes :
    (Instr.csvPlay [(0, 0), (100, 1)]).wellFormed = true ∧ (Instr.csvPlay [(0, 0), (100, 1)]).performer = .host ∧
    legalState.moment = .between ∧ legalState.fw.legal = true ∧
    (Instr.timerTick .t2).performer = .block ∧ (inStep legalState).moment = .step := by decide +kernel

theorem witness_BindingsAndTime :
    (∃ t, exec .step legalState = .next t) ∧ (∃ t, exec .reset legalState = .next t) :=
  ⟨next_of_isNext (by decide +kernel), next_of_isNext (by decide +kernel)⟩

theorem witness_FirmwareIsConfined :
    Instr.performer (.csrw 0xE1 0x41) = .firmware ∧ ∃ t, exec (.csrw 0xE1 0x41) (inHook running) = .next t :=
  ⟨rfl, next_of_isNext (by decide +kernel)⟩

end Sys2Proof.Tests
end

section
/-! PROOFS. Family 00_scope: the sample grid (O50), and what every operation leaves (O58). For O58 the operations are
taken apart by the agent that performs them (spec/00_scope.md R8): per agent one lemma says what any of its operations
can do. -/

namespace Sys2Proof.Proofs

open Sys2Proof Sys2Proof.Machine

/-- Rounding half up lies within half a unit of the quotient, the upper end excluded. -/
theorem roundDiv_bounds (a : Nat) {b : Nat} (hb : 0 < b) :
    2 * (roundDiv a b * b) ≤ 2 * a + b ∧ 2 * a < 2 * (roundDiv a b * b) + b := by
  have hlow : roundDiv a b * (2 * b) ≤ 2 * a + b := Nat.div_mul_le_self _ _
  have hhigh : 2 * a + b < roundDiv a b * (2 * b) + 2 * b := Nat.lt_div_mul_add (by omega)
  rw [Nat.mul_left_comm] at hlow hhigh
  omega

/-- Settles O50: the tick of a sample is a quotient rounded half up. -/
theorem sampleGridIsNearest : Obligations.SampleGridIsNearest :=
  fun k clockHz _ hrate => roundDiv_bounds (k * clockHz) hrate

section Agents

variable {s t : State} {k : State → Result} {R : State → State → Prop}

/-! ### An operation allowed at this moment has the effect of its body -/

theorem betweenOperations_effect (hk : ∀ u, k s = .next u → R s u) (h : betweenOperations s k = .next t) : R s t :=
  hk t (betweenOperations_eq_next.mp h).2

theorem insideStep_effect (hk : ∀ u, k s = .next u → R s u) (h : insideStep s k = .next t) : R s t :=
  hk t (insideStep_eq_next.mp h).2

theorem insideCallback_effect (hk : ∀ u, k s = .next u → R s u) (h : insideCallback s k = .next t) : R s t :=
  hk t (insideCallback_eq_next.mp h).2

/-! ### The firmware's operations -/

theorem csrRead8_effect {a : Byte} (h : csrRead8 a s = .next t) : FirmwareEffect s t :=
  runStub_effect (p := .csrr a) h
theorem csrRead16_effect {a : Byte} (h : csrRead16 a s = .next t) : FirmwareEffect s t :=
  runStub_effect (p := .csrr16 a) h

theorem csrWrite8_effect {a v : Byte} (h : csrWrite8 a v s = .next t) : FirmwareEffect s t := by
  obtain ⟨cell, -, hcell, rfl⟩ := csrWrite8_eq_next.mp h
  exact ⟨rfl, cellWrite_busctl hcell _ _⟩

theorem csrWrite16_effect {a : Byte} {v : Word16} (h : csrWrite16 a v s = .next t) : FirmwareEffect s t := by
  obtain ⟨r, -, rfl⟩ := csrWrite16_eq_next.mp h
  exact ⟨rfl, write16_busctl _ _ _⟩

theorem setFieldRegister_effect {f : CsrField} {v : Nat} (h : setFieldRegister f v s = .next t) :
    FirmwareEffect s t :=
  runStub_effect (p := .set f (.lit v)) h

/-- A row that is a value of a field of a register other than `BUSCTL` (R245). -/
theorem writeSelector_effect {f : CsrField} {v : Byte} (hf : f.pos.cell ≠ .busctl)
    (h : writeSelector f v s = .next t) : FirmwareEffect s t := by
  obtain ⟨-, e⟩ := insideCallback_eq_next.mp h
  cases e
  exact ⟨rfl, fieldWrite_busctl hf _ _⟩

/-- The one row of two fields, `WGM2` (R172). -/
theorem execWgm2Ctc_effect (h : execWgm2Ctc s = .next t) : FirmwareEffect s t := by
  obtain ⟨-, e⟩ := insideCallback_eq_next.mp h
  cases e
  exact ⟨rfl, (fieldWrite_busctl (f := .wgm2Low) (by decide) _ _).trans
    (fieldWrite_busctl (f := .wgm2High) (by decide) _ _)⟩

/-- What any operation of the firmware can do (R56, R85): the accesses of R235 to R238, `SET`, and the field values,
each but `WGM2` the write of one field. -/
theorem exec_firmware_effect {i : Instr} (hi : i.performer = .firmware) (h : exec i s = .next t) :
    FirmwareEffect s t := by
  cases i with
  | csrr a => exact insideCallback_effect (fun _ => csrRead8_effect) h
  | csrw a v => exact insideCallback_effect (fun _ => csrWrite8_effect) h
  | csrr16 a => exact insideCallback_effect (fun _ => csrRead16_effect) h
  | csrw16 a v => exact insideCallback_effect (fun _ => csrWrite16_effect) h
  | setField f v => exact insideCallback_effect (fun _ => setFieldRegister_effect) h
  | wgm2Ctc => exact execWgm2Ctc_effect h
  | reset | step | feed | rd | wr | busRead | busWrite | statusFraming | statusParity | statusByteAvailable
  | statusRoom | timerTick | overflow | matchA | matchB | dispatch | oc2aUpdate | poll | compare | csvPlay | wavPlay
  | sinkRun | steps | runTo | feedAt => exact nomatch hi
  | _ => exact writeSelector_effect (by decide) h

/-! ### The block's sub-operations -/

theorem execOc2aUpdate_eq_next (h : execOc2aUpdate s = .next t) : t = outputUpdate s := by
  obtain ⟨-, e⟩ := insideStep_eq_next.mp h
  cases e; rfl

/-- What any sub-operation of the block can do (R160, R165 to R167, R175, R210): the events of a channel, or the output
update. -/
theorem exec_block_cases {i : Instr} (hi : i.performer = .block) (h : exec i s = .next t) :
    TimerEffect s t ∨ t = outputUpdate s := by
  cases i with
  | timerTick n => exact .inl (insideStep_effect (fun _ => timerTickOf_effect) h)
  | overflow n => exact .inl (insideStep_effect (fun _ => overflowEvent_effect) h)
  | matchA n => exact .inl (insideStep_effect (fun _ => matchAEvent_effect) h)
  | matchB n => exact .inl (insideStep_effect (fun _ => matchBEvent_effect) h)
  | dispatch src => exact .inl (insideStep_effect (fun _ => dispatchSource_effect) h)
  | oc2aUpdate => exact .inr (execOc2aUpdate_eq_next h)
  | _ => exact nomatch hi

/-! ### The host's operations -/

theorem execFeedAt_run {n : Nat} {l : Bool} (h : execFeedAt n l s = .next t) : RunEffect s t := by
  obtain ⟨-, h⟩ := betweenOperations_eq_next.mp h
  obtain ⟨u, hrun, hfeed⟩ := andThen_eq_next.mp h
  exact (runToTick_run hrun).trans (feedLevel_run hfeed)

theorem execBusWrite_run {r : BusReg} (h : execBusWrite r s = .next t) : RunEffect s t :=
  busWriteOf_run (betweenOperations_eq_next.mp h).2

theorem execCompare_run {b : Byte} (h : execCompare b s = .next t) : RunEffect s t := by
  obtain ⟨-, e⟩ := betweenOperations_eq_next.mp h
  cases e
  exact compareByte_run b s

/-- The two error rows of the status byte (R262). -/
theorem statusError_run {e : State → HostError}
    (h : (unlessStopped s fun s => .next (decoderError (e s) s)) = .next t) : RunEffect s t :=
  unlessStopped_run (fun hk => by cases hk; exact decoderError_run _ _) h

theorem execStatusFraming_run (h : execStatusFraming s = .next t) : RunEffect s t :=
  statusError_run (betweenOperations_eq_next.mp h).2

theorem execStatusParity_run (h : execStatusParity s = .next t) : RunEffect s t :=
  statusError_run (betweenOperations_eq_next.mp h).2

theorem execStatusByteAvailable_run (h : execStatusByteAvailable s = .next t) : RunEffect s t :=
  unlessStopped_run receiveByte_run (betweenOperations_eq_next.mp h).2

/-- What any operation of the host can do: `RESET` and boot (R380), or what the procedures keep (R52); only
`SINK_RUN` and its status row (R312, R313) write the sink's state. -/
theorem exec_host_cases {i : Instr} (hi : i.performer = .host) (h : exec i s = .next t) :
    (i = .reset ∧ resetAndBoot s = .next t) ∨ SinkEffect s t := by
  cases i with
  | reset => exact .inl ⟨rfl, (betweenOperations_eq_next.mp h).2⟩
  | sinkRun data => exact .inr (betweenOperations_effect (fun _ => sinkRunAll_effect) h)
  | statusRoom => exact .inr (betweenOperations_effect (fun _ => sendNext_effect) h)
  | step => exact .inr (betweenOperations_effect (fun _ => stepTick_run) h).sinkEffect
  | steps n => exact .inr (betweenOperations_effect (fun _ e => (stepTimes_effect e).run) h).sinkEffect
  | runTo n => exact .inr (betweenOperations_effect (fun _ => runToTick_run) h).sinkEffect
  | feed l => exact .inr (betweenOperations_effect (fun _ => feedLevel_run) h).sinkEffect
  | feedAt n l => exact .inr (execFeedAt_run h).sinkEffect
  | rd r => exact .inr (betweenOperations_effect (fun _ => busReadOf_run) h).sinkEffect
  | wr r v => exact .inr (betweenOperations_effect (fun _ => busWriteOf_run) h).sinkEffect
  | busRead r => exact .inr (betweenOperations_effect (fun _ => busReadOf_run) h).sinkEffect
  | busWrite r => exact .inr (execBusWrite_run h).sinkEffect
  | poll => exact .inr (betweenOperations_effect (fun _ => pollOnce_run) h).sinkEffect
  | compare b => exact .inr (execCompare_run h).sinkEffect
  | statusFraming => exact .inr (execStatusFraming_run h).sinkEffect
  | statusParity => exact .inr (execStatusParity_run h).sinkEffect
  | statusByteAvailable => exact .inr (execStatusByteAvailable_run h).sinkEffect
  | csvPlay records => exact .inr (betweenOperations_effect (fun _ => csvPlayAll_run) h).sinkEffect
  | wavPlay bytes => exact .inr (betweenOperations_effect (fun _ => wavPlayAll_run) h).sinkEffect
  | _ => exact nomatch hi

end Agents

section Run

variable {s t : State}

/-- What every operation but `RESET` keeps (R9, R20, R97): the bindings and what is under way, and the tick does not go
back. -/
structure RunContinues (s t : State) : Prop where
  bindings : BindingsKept s t
  moment : t.moment = s.moment
  tick : s.tick ≤ t.tick

theorem firmwareEffect_continues (h : FirmwareEffect s t) : RunContinues s t := by
  rw [h.same]; exact ⟨⟨rfl, rfl, rfl, rfl⟩, rfl, le_rfl⟩

theorem timerEffect_continues (h : TimerEffect s t) : RunContinues s t := by
  rw [h.same]; exact ⟨⟨rfl, rfl, rfl, rfl⟩, rfl, le_rfl⟩

theorem outputUpdate_continues (s : State) : RunContinues s (outputUpdate s) :=
  ⟨⟨rfl, rfl, rfl, rfl⟩, rfl, le_rfl⟩

theorem sinkEffect_continues (h : SinkEffect s t) : RunContinues s t :=
  have hrun := h.run
  ⟨⟨hrun.bindings.fw, hrun.bindings.fwst0, hrun.bindings.params, hrun.bindings.trace⟩, hrun.moment, hrun.tick⟩

/-- `RESET` keeps the bindings too, and returns to what was under way (R384, R386). -/
theorem resetAndBoot_keeps (h : resetAndBoot s = .next t) : BindingsKept s t ∧ t.moment = s.moment := by
  rw [(resetAndBoot_eq_next h).1]; exact ⟨⟨rfl, rfl, rfl, rfl⟩, rfl⟩

theorem exec_continues_or_reset {i : Instr} (h : exec i s = .next t) :
    RunContinues s t ∨ (i = .reset ∧ resetAndBoot s = .next t) := by
  cases hi : i.performer with
  | firmware => exact .inl (firmwareEffect_continues (exec_firmware_effect hi h))
  | block =>
    rcases exec_block_cases hi h with he | rfl
    · exact .inl (timerEffect_continues he)
    · exact .inl (outputUpdate_continues s)
  | host =>
    rcases exec_host_cases hi h with hr | he
    · exact .inr hr
    · exact .inl (sinkEffect_continues he)

/-- Settles O58: by the agent of the operation, and `RESET` apart. -/
theorem bindingsAndTime : Obligations.BindingsAndTime := by
  intro i s t h
  rcases exec_continues_or_reset h with hc | ⟨hreset, hboot⟩
  · exact ⟨hc.bindings, hc.moment, fun _ => hc.tick⟩
  · obtain ⟨hb, hm⟩ := resetAndBoot_keeps hboot
    exact ⟨hb, hm, fun hne => absurd hreset hne⟩

end Run

end Sys2Proof.Proofs
end

section
/-! PROOFS. Family 10_state: the reset state (O7, O55), what the firmware's operations may write (O59), which operations
write the output and the capture unit (O24), and the invariant over a step (O56). As for O58 an operation is taken
apart by the agent that performs it; what a step keeps is read off the effect of that agent's operations. -/

namespace Sys2Proof.Proofs

open Sys2Proof Sys2Proof.Machine Sys2Proof.Claims

/-! ### The reset state -/

/-- Settles O7: each register's reset value is 0 (R55), and so is each byte that is a view of one. -/
theorem resetState : Obligations.ResetState := by
  refine ⟨rfl, fun cell => ?_, rfl, rfl, rfl, rfl⟩
  cases cell <;> rfl

/-- Settles O55: the one open value, `CLOCK_HZ`, is positive by construction (log 9); the sink has started no run. -/
theorem resetSatisfiesInvariant : Obligations.ResetSatisfiesInvariant where
  moment := rfl
  busctl := rfl
  latch := rfl
  accept := nofun
  clock := Nat.succ_pos Config.clockHzLessOne
  filter := by decide
  samples := rfl

/-- Settles O59: the effect of any operation of the firmware. -/
theorem firmwareIsConfined : Obligations.FirmwareIsConfined := by
  intro i s t hi h
  have heffect := exec_firmware_effect hi h
  exact ⟨heffect.same, heffect.busctl⟩

section Writers

variable {s t : State} {i : Instr}

/-! ### Who leaves the output and the capture unit -/

/-- The output and the capture unit are as before. -/
structure SignalsKept (s t : State) : Prop where
  output : t.oc2a = s.oc2a
  capture : CaptureKept s t

theorem captureKept_refl (s : State) : CaptureKept s s := ⟨rfl, rfl⟩

theorem captureKept_trans {a b c : State} (h : CaptureKept a b) (k : CaptureKept b c) : CaptureKept a c :=
  ⟨k.prevLevel.trans h.prevLevel, k.lastAccept.trans h.lastAccept⟩

theorem firmwareEffect_signals (h : FirmwareEffect s t) : SignalsKept s t := by
  rw [h.same]; exact ⟨rfl, rfl, rfl⟩

theorem timerEffect_signals (h : TimerEffect s t) : SignalsKept s t := by
  rw [h.same]; exact ⟨rfl, rfl, rfl⟩

theorem pollEffect_signals (h : PollEffect s t) : SignalsKept s t := by
  rw [h.same]; exact ⟨rfl, rfl, rfl⟩

/-- `STEP` writes the output (R140), not the capture unit. -/
theorem stepEffect_capture (h : StepEffect s t) : CaptureKept s t := by
  rw [h.same]; exact ⟨rfl, rfl⟩

/-- `FEED` writes the capture unit (R190), not the output. -/
theorem feedLevel_output {l : Bool} (h : feedLevel l s = .next t) : t.oc2a = s.oc2a := by
  rw [(feedLevel_effect h).1.same]

/-! ### The bus and the procedures on it -/

/-- A write transaction writes no more than a poll may (R232). -/
theorem busWriteOf_poll {r : BusReg} {v : Byte} (h : busWriteOf r v s = .next t) : PollEffect s t := by
  obtain ⟨u, hcall, rfl⟩ := busWriteOf_eq_next h
  have hsame := (call_eq_next hcall).1
  exact ⟨by rw [hsame], by rw [hsame]; exact ⟨rfl, rfl, rfl⟩⟩

theorem execCompare_poll {b : Byte} (h : execCompare b s = .next t) : PollEffect s t := by
  obtain ⟨-, e⟩ := betweenOperations_eq_next.mp h
  cases e
  exact compareByte_poll b s

/-- The two error rows of the status byte (R262). -/
theorem statusError_poll {e : State → HostError}
    (h : (unlessStopped s fun s => .next (decoderError (e s) s)) = .next t) : PollEffect s t :=
  unlessStopped_poll (fun hk => by cases hk; exact decoderError_poll _ _) h

theorem execStatusFraming_poll (h : execStatusFraming s = .next t) : PollEffect s t :=
  statusError_poll (betweenOperations_eq_next.mp h).2

theorem execStatusParity_poll (h : execStatusParity s = .next t) : PollEffect s t :=
  statusError_poll (betweenOperations_eq_next.mp h).2

theorem execStatusByteAvailable_poll (h : execStatusByteAvailable s = .next t) : PollEffect s t :=
  unlessStopped_poll receiveByte_poll (betweenOperations_eq_next.mp h).2

theorem sendNext_signals (h : sendNext s = .next t) : SignalsKept s t := by
  rcases sendNext_eq_next h with ⟨-, rfl⟩ | ⟨-, b, u, -, hwrite, rfl⟩
  · exact ⟨rfl, captureKept_refl _⟩
  · obtain ⟨hout, hprev, hlast⟩ := pollEffect_signals (busWriteOf_poll hwrite)
    exact ⟨hout, hprev, hlast⟩

/-! ### A sink run leaves the capture unit -/

/-- `EMIT` writes the sink's state only (R322). -/
theorem emitLoop_sinkOnly : ∀ (fuel : Nat) (s : State), emitLoop fuel s = { s with snk := (emitLoop fuel s).snk }
  | 0, _ => rfl
  | fuel + 1, s => by
    unfold emitLoop
    split
    · rw [emitLoop_sinkOnly fuel]
    · rfl

theorem emitSamples_capture (s : State) : CaptureKept s (emitSamples s) := by
  rw [emitSamples, emitLoop_sinkOnly]; exact ⟨rfl, rfl⟩

/-- What a pass does with the output's level (R312): the stuck detector, the filter and the samples. -/
theorem sinkSample_capture (s : State) : CaptureKept s (emitSamples (filterLevel (trackLevel s))) :=
  captureKept_trans ⟨by simp, by simp⟩ (emitSamples_capture _)

theorem sinkLoop_capture : ∀ {fuel : Nat} {s t : State}, sinkLoop fuel s = .next t → CaptureKept s t
  | 0, s, t, h => by cases h; exact ⟨rfl, rfl⟩
  | fuel + 1, s, t, h => by
    rcases sinkLoop_succ_eq_next h with ⟨-, rfl⟩ | ⟨-, u, v, w, hread, hsend, hstep, hrest⟩
    · exact ⟨rfl, rfl⟩
    · have hu : CaptureKept s u := (pollEffect_signals (busReadOf_poll hread)).capture
      have hv : CaptureKept u v :=
        whenDo_effect captureKept_refl (fun _ _ e => (sendNext_signals e).capture) hsend
      have hw : CaptureKept v w := stepEffect_capture (stepTick_effect hstep)
      have ht : CaptureKept w t := by
        rcases hrest with ⟨-, rfl⟩ | ⟨-, hloop⟩
        · exact ⟨rfl, rfl⟩
        · exact captureKept_trans (sinkSample_capture w) (sinkLoop_capture hloop)
      exact captureKept_trans (captureKept_trans (captureKept_trans hu hv) hw) ht

theorem sinkRunAll_capture {data : List Byte} (h : sinkRunAll data s = .next t) : CaptureKept s t :=
  captureKept_trans (b := startSink data s) ⟨rfl, rfl⟩
    (captureKept_trans (emitSamples_capture _) (sinkLoop_capture h))

/-! ### The rule, by the agent of the operation -/

/-- What O24 says of one operation from `s` to `t`. -/
def WritersOnly (i : Instr) (s t : State) : Prop :=
  (mayWriteOutput i = false → t.oc2a = s.oc2a) ∧ (mayWriteCapture i = false → CaptureKept s t)

theorem SignalsKept.writersOnly (h : SignalsKept s t) : WritersOnly i s t := ⟨fun _ => h.output, fun _ => h.capture⟩

/-- Of the block's sub-operations `OC2A_UPDATE` writes the output (R210), the events of a channel do not. -/
theorem exec_block_writersOnly (hi : i.performer = .block) (h : exec i s = .next t) : WritersOnly i s t := by
  cases i with
  | oc2aUpdate => rw [execOc2aUpdate_eq_next h]; exact ⟨nofun, fun _ => ⟨rfl, rfl⟩⟩
  | timerTick n => exact (timerEffect_signals (insideStep_effect (fun _ => timerTickOf_effect) h)).writersOnly
  | overflow n => exact (timerEffect_signals (insideStep_effect (fun _ => overflowEvent_effect) h)).writersOnly
  | matchA n => exact (timerEffect_signals (insideStep_effect (fun _ => matchAEvent_effect) h)).writersOnly
  | matchB n => exact (timerEffect_signals (insideStep_effect (fun _ => matchBEvent_effect) h)).writersOnly
  | dispatch src => exact (timerEffect_signals (insideStep_effect (fun _ => dispatchSource_effect) h)).writersOnly
  | _ => exact nomatch hi

theorem exec_host_writersOnly (hi : i.performer = .host) (h : exec i s = .next t) : WritersOnly i s t := by
  cases i with
  | reset | feedAt | csvPlay | wavPlay => exact ⟨nofun, nofun⟩
  | feed l => exact ⟨fun _ => feedLevel_output (betweenOperations_eq_next.mp h).2, nofun⟩
  | step => exact ⟨nofun, fun _ => betweenOperations_effect (fun _ e => stepEffect_capture (stepTick_effect e)) h⟩
  | steps n => exact ⟨nofun, fun _ => betweenOperations_effect (fun _ e => stepEffect_capture (stepTimes_effect e)) h⟩
  | runTo n => exact ⟨nofun, fun _ => betweenOperations_effect (fun _ e => stepEffect_capture (runToTick_effect e)) h⟩
  | sinkRun data => exact ⟨nofun, fun _ => betweenOperations_effect (fun _ => sinkRunAll_capture) h⟩
  | statusRoom => exact (betweenOperations_effect (fun _ => sendNext_signals) h).writersOnly
  | rd r | busRead r =>
    exact (pollEffect_signals (betweenOperations_effect (fun _ => busReadOf_poll) h)).writersOnly
  | wr r v => exact (pollEffect_signals (betweenOperations_effect (fun _ => busWriteOf_poll) h)).writersOnly
  | busWrite r =>
    exact (pollEffect_signals (busWriteOf_poll (betweenOperations_eq_next.mp h).2)).writersOnly
  | poll => exact (pollEffect_signals (betweenOperations_effect (fun _ => pollOnce_poll) h)).writersOnly
  | compare b => exact (pollEffect_signals (execCompare_poll h)).writersOnly
  | statusFraming => exact (pollEffect_signals (execStatusFraming_poll h)).writersOnly
  | statusParity => exact (pollEffect_signals (execStatusParity_poll h)).writersOnly
  | statusByteAvailable => exact (pollEffect_signals (execStatusByteAvailable_poll h)).writersOnly
  | _ => exact nomatch hi

/-- Settles O24: by the agent of the operation. -/
theorem outputAndCaptureWriters : Obligations.OutputAndCaptureWriters := by
  intro i s t h
  cases hi : i.performer with
  | firmware => exact (firmwareEffect_signals (exec_firmware_effect hi h)).writersOnly
  | block => exact exec_block_writersOnly hi h
  | host => exact exec_host_writersOnly hi h

end Writers

section InvariantKept

variable {s t : State} {i : Instr}

/-! ### The invariant, by the agent of the operation -/

/-- The invariant does not read the trace. -/
theorem invariant_withTrace (h : Invariant s) (rest : List Code) : Invariant { s with trace := rest } :=
  ⟨h.moment, h.busctl, h.latch, h.accept, h.clock, h.filter, h.samples⟩

theorem exec_block_moment (hi : i.performer = .block) (h : exec i s = .next t) : s.moment = .step := by
  cases i with
  | timerTick | overflow | matchA | matchB | dispatch => exact (insideStep_eq_next.mp h).1
  | oc2aUpdate => exact (insideStep_eq_next.mp (show execOc2aUpdate s = .next t from h)).1
  | _ => exact nomatch hi

/-- The firmware writes none of what the invariant reads. -/
theorem invariant_of_firmwareEffect (hinv : Invariant s) (h : FirmwareEffect s t) : Invariant t := by
  have hbusctl := h.busctl
  rw [h.same]
  exact ⟨hinv.moment, hbusctl ▸ hinv.busctl, hinv.latch, hinv.accept, hinv.clock, hinv.filter, hinv.samples⟩

/-- An operation of the host that continues the run: the invariant's points on the block are those of `RunEffect`, the
points on the sink those of `SinkOk`. -/
theorem invariant_of_sinkEffect (hinv : Invariant s) (h : SinkEffect s t) : Invariant t where
  moment := h.run.moment.trans hinv.moment
  busctl := h.run.pins hinv.busctl
  latch := h.run.latch hinv.latch
  accept := h.run.accept hinv.accept
  clock := by
    have hparams : t.params = s.params := h.run.bindings.params
    rw [hparams]; exact hinv.clock
  filter := (h.sink ⟨hinv.filter, hinv.samples⟩).1
  samples := (h.sink ⟨hinv.filter, hinv.samples⟩).2

/-- After `RESET` the block's part holds by the reset values (R55): no acceptance, latch 0, and `BUSCTL`, which
`fw.setup` cannot write, 0. The clock and the sink are not touched (R384). -/
theorem invariant_of_reset (hinv : Invariant s) (h : resetAndBoot s = .next t) : Invariant t := by
  obtain ⟨hsame, hbusctl⟩ := resetAndBoot_eq_next h
  rw [hsame]
  exact ⟨hinv.moment, by simp [hbusctl], rfl, nofun, hinv.clock, hinv.filter, hinv.samples⟩

theorem exec_keeps_invariant (hinv : Invariant s) (h : exec i s = .next t) : Invariant t := by
  cases hi : i.performer with
  | firmware => exact invariant_of_firmwareEffect hinv (exec_firmware_effect hi h)
  | block => exact absurd ((exec_block_moment hi h).symm.trans hinv.moment) (by decide)
  | host =>
    rcases exec_host_cases hi h with ⟨-, hboot⟩ | heffect
    · exact invariant_of_reset hinv hboot
    · exact invariant_of_sinkEffect hinv heffect

/-- What one step of the machine can do: nothing with an empty trace, else the next operation, taken off the trace. -/
theorem step_eq_next (h : step s = .next t) :
    (s.trace = [] ∧ t = s) ∨
    ∃ code rest i, s.trace = code :: rest ∧ decode code = .ok i ∧ exec i { s with trace := rest } = .next t := by
  cases htrace : s.trace with
  | nil =>
    simp only [step, fetch, htrace] at h
    cases h
    exact .inl ⟨rfl, rfl⟩
  | cons code rest =>
    simp only [step, fetch, htrace] at h
    cases hdecode : decode code with
    | error r => rw [hdecode] at h; cases h
    | ok i => rw [hdecode] at h; exact .inr ⟨code, rest, i, rfl, hdecode, h⟩

/-- Settles O56: an operation of the trace is performed between two operations of the host, so it is one of the host or
it is refused. -/
theorem stepKeepsInvariant : Obligations.StepKeepsInvariant := by
  intro s t hinv h
  rcases step_eq_next h with ⟨-, rfl⟩ | ⟨code, rest, i, -, -, hexec⟩
  · exact hinv
  · exact exec_keeps_invariant (invariant_withTrace hinv rest) hexec

end InvariantKept

end Sys2Proof.Proofs
end

section
/-! PROOFS. Family 20_memory: one step of the machine (O5), and the firmware's accesses to the CSR space, a byte (O32,
O33) or a 16-bit CSR (O34) at a time. The two maps from addresses are read backwards once; an access is then the read
or write of the cell, or of the 16-bit CSR, whose address it names. -/

namespace Sys2Proof.Proofs

open Sys2Proof Sys2Proof.Machine

section OneStep

variable {s : State} {code : Code} {rest : List Code} {i : Instr}

/-! ### One step of the machine -/

theorem step_of_ok (htrace : s.trace = code :: rest) (hdecode : decode code = .ok i) :
    step s = exec i { s with trace := rest } := by
  simp [step, fetch, htrace, hdecode]

theorem step_of_error {r : Reject} (htrace : s.trace = code :: rest) (hdecode : decode code = .error r) :
    step s = .refused (.illFormedWord r) := by
  simp [step, fetch, htrace, hdecode]

theorem step_of_nil (htrace : s.trace = []) : step s = .next s := by
  simp [step, fetch, htrace]

theorem decode_word_of_decodeTableWord {nbits w : Nat} (h : decodeTableWord nbits w = some i) :
    decode (.word nbits w) = .ok i := by
  unfold decodeTableWord at h
  cases hdecode : decode (.word nbits w) with
  | error r => rw [hdecode] at h; cases h
  | ok j => rw [hdecode] at h; cases h; rfl

/-- The word placed is taken off again; what stays is the moment at which its operation is performed. -/
theorem step_withFetchWord (s : State) {nbits w : Nat} (h : decodeTableWord nbits w = some i) :
    step (s.withFetchWord nbits w) = exec i { s with moment := momentFor (some i) } := by
  rw [step_of_ok (withFetchWord_trace s nbits w) (decode_word_of_decodeTableWord h), State.withFetchWord, h]

/-- Settles O5: the three answers of a fetch, and a fetch of the word placed. -/
theorem stepRunsTheDecodedOperation : Obligations.StepRunsTheDecodedOperation :=
  ⟨fun _ _ _ _ => step_of_ok, fun _ _ _ _ => step_of_error, fun _ => step_of_nil, fun s _ _ _ => step_withFetchWord s⟩

end OneStep

section ByteAccess

variable {s : State} {c : Callback} {cell : CsrCell} {a v : Byte}

/-! ### Bytes of the CSR space -/

/-- The map of R81 read backwards at an address it maps: the cell found there has that address. -/
theorem address_of_csrAt (h : csrAt a = some cell) : cell.address = a := by
  unfold csrAt at h
  split at h
  case h_30 => cases h
  all_goals
    next haddress => cases h; exact BitVec.eq_of_toNat_eq haddress.symm

theorem csrAt_eq_none (h : ∀ cell : CsrCell, cell.address ≠ a) : csrAt a = none := by
  cases hcell : csrAt a with
  | none => rfl
  | some cell => exact absurd (address_of_csrAt hcell) (h cell)

/-- Every byte after a write of one (R85). -/
theorem cellRead_cellWrite (r : Csrs) (cell : CsrCell) (v : Byte) (d : CsrCell) :
    cellRead (cellWrite r cell v) d = if d = cell then v else cellRead r d := by
  split
  next h => rw [h, cellRead_cellWrite_same]
  next h => exact cellRead_cellWrite_ne h r v

theorem exec_csrr_address (hs : s.moment = .callback c) (cell : CsrCell) :
    exec (.csrr cell.address) s =
      .next { s with fwst := { s.fwst with lastRead := (cellRead s.csr cell).setWidth 16 } } :=
  insideCallback_eq_next.mpr ⟨⟨c, hs⟩, csrRead8_eq_next.mpr ⟨cell, csrAt_address cell, rfl⟩⟩

theorem exec_csrw_address (hs : s.moment = .callback c) (hcell : cell ≠ .busctl) (v : Byte) :
    exec (.csrw cell.address v) s = .next { s with csr := cellWrite s.csr cell v } :=
  insideCallback_eq_next.mpr ⟨⟨c, hs⟩, csrWrite8_eq_next.mpr ⟨cell, csrAt_address cell, hcell, rfl⟩⟩

theorem exec_csrr_unmapped (hs : s.moment = .callback c) (ha : ∀ cell : CsrCell, cell.address ≠ a) :
    exec (.csrr a) s = .refused (.unmappedCsr a) :=
  (insideCallback_callback hs _).trans (by rw [csrRead8, csrAt_eq_none ha])

theorem exec_csrw_unmapped (hs : s.moment = .callback c) (ha : ∀ cell : CsrCell, cell.address ≠ a) :
    exec (.csrw a v) s = .refused (.unmappedCsr a) :=
  (insideCallback_callback hs _).trans (by rw [csrWrite8, csrAt_eq_none ha])

theorem exec_csrw_busctl (hs : s.moment = .callback c) : exec (.csrw 0xE0 v) s = .refused .busctlReadOnly :=
  insideCallback_callback hs _

/-- Settles O32: each row of the table pairs a cell with its own address. -/
theorem csrrOperation : Obligations.CsrrOperation := by
  intro c s hs
  refine ⟨fun p hp => ?_, fun a => exec_csrr_unmapped hs⟩
  have haddress : p.1 = p.2.address := by revert p; decide
  rw [haddress]
  exact exec_csrr_address hs p.2

/-- Settles O33: the byte stored is the one a read of the same address then returns. -/
theorem csrwOperation : Obligations.CsrwOperation := by
  intro c v s hs
  refine ⟨fun cell hcell => ?_, exec_csrw_busctl hs, fun a => exec_csrw_unmapped hs⟩
  have hread := exec_csrr_address (s := { s with csr := cellWrite s.csr cell v }) hs cell
  rw [cellRead_cellWrite_same] at hread
  exact ⟨_, _, exec_csrw_address hs hcell v, rfl, cellRead_cellWrite s.csr cell v, hread, rfl⟩

end ByteAccess

section WordAccess

variable {s : State} {c : Callback} {a : Byte} {v : Word16} {r : Csr16}

/-! ### 16-bit CSRs -/

/-- The cell of the low byte of a 16-bit CSR (R86). -/
def lowCell : Csr16 → CsrCell
  | .tcnt1 => .tcnt1Low | .icr1 => .icr1Low | .ocr1a => .ocr1aLow | .ocr1b => .ocr1bLow

/-- The cell of its high byte, at the address after (R86). -/
def highCell : Csr16 → CsrCell
  | .tcnt1 => .tcnt1High | .icr1 => .icr1High | .ocr1a => .ocr1aHigh | .ocr1b => .ocr1bHigh

theorem lowByte_eq_setWidth (v : Word16) : lowByte v = v.setWidth 8 := by
  rw [lowByte, BitVec.setWidth_eq_extractLsb' (by decide)]

theorem highByte_eq_setWidth (v : Word16) : highByte v = (v >>> 8).setWidth 8 := by
  rw [highByte, ← BitVec.setWidth_ushiftRight_eq_extractLsb]

/-- The high byte stands at the higher address (R84, R86). -/
theorem read16_eq_append (x : Csrs) (r : Csr16) : read16 x r = cellRead x (highCell r) ++ cellRead x (lowCell r) := by
  cases r <;> exact (highByte_append_lowByte _).symm

/-- Every byte after a write of a 16-bit CSR (R85, R88). -/
theorem cellRead_write16 (x : Csrs) (r : Csr16) (v : Word16) (d : CsrCell) :
    cellRead (write16 x r v) d =
      if d = lowCell r then lowByte v else if d = highCell r then highByte v else cellRead x d := by
  cases r <;> cases d <;> rfl

@[simp] theorem csr16At_address (r : Csr16) : csr16At r.address = some r := by cases r <;> rfl

theorem address_of_csr16At (h : csr16At a = some r) : r.address = a := by
  unfold csr16At at h
  split at h
  case h_5 => cases h
  all_goals
    next haddress => cases h; exact BitVec.eq_of_toNat_eq haddress.symm

theorem csr16At_eq_none (h : ∀ r : Csr16, r.address ≠ a) : csr16At a = none := by
  cases hr : csr16At a with
  | none => rfl
  | some r => exact absurd (address_of_csr16At hr) (h r)

theorem exec_csrr16_address (hs : s.moment = .callback c) (r : Csr16) :
    exec (.csrr16 r.address) s = .next { s with fwst := { s.fwst with lastRead := read16 s.csr r } } :=
  insideCallback_eq_next.mpr ⟨⟨c, hs⟩, csrRead16_eq_next.mpr ⟨r, csr16At_address r, rfl⟩⟩

theorem exec_csrw16_address (hs : s.moment = .callback c) (r : Csr16) (v : Word16) :
    exec (.csrw16 r.address v) s = .next { s with csr := write16 s.csr r v } :=
  insideCallback_eq_next.mpr ⟨⟨c, hs⟩, csrWrite16_eq_next.mpr ⟨r, csr16At_address r, rfl⟩⟩

theorem exec_csrr16_refused (hs : s.moment = .callback c) (ha : ∀ r : Csr16, r.address ≠ a) :
    exec (.csrr16 a) s = .refused (.notSixteenBit a) :=
  (insideCallback_callback hs _).trans (by rw [csrRead16, csr16At_eq_none ha])

theorem exec_csrw16_refused (hs : s.moment = .callback c) (ha : ∀ r : Csr16, r.address ≠ a) :
    exec (.csrw16 a v) s = .refused (.notSixteenBit a) :=
  (insideCallback_callback hs _).trans (by rw [csrWrite16, csr16At_eq_none ha])

/-- Settles O34: each row of the table is a 16-bit CSR with its address and its two cells. -/
theorem wordAccess : Obligations.WordAccess := by
  intro c v s hs
  refine ⟨fun p hp => ?_, fun a h84 h86 h88 h8A => ?_⟩
  · obtain ⟨r, rfl⟩ : ∃ r : Csr16, p = (r.address, lowCell r, highCell r) := by
      simp only [List.mem_cons, List.not_mem_nil, or_false] at hp
      obtain rfl | rfl | rfl | rfl := hp
      exacts [⟨.tcnt1, rfl⟩, ⟨.icr1, rfl⟩, ⟨.ocr1a, rfl⟩, ⟨.ocr1b, rfl⟩]
    constructor
    · have hread := exec_csrr16_address (s := { s with csr := write16 s.csr r v }) hs r
      rw [read16_write16_same] at hread
      refine ⟨_, _, exec_csrw16_address hs r v, rfl, fun d => ?_, hread, rfl⟩
      rw [cellRead_write16, lowByte_eq_setWidth, highByte_eq_setWidth]
    · rw [exec_csrr16_address hs r, read16_eq_append]
  · have ha : ∀ r : Csr16, r.address ≠ a := by
      rintro (_ | _ | _ | _)
      exacts [h84.symm, h86.symm, h88.symm, h8A.symm]
    exact ⟨exec_csrr16_refused hs ha, exec_csrw16_refused hs ha⟩

end WordAccess

end Sys2Proof.Proofs
end

section
/-! PROOFS. Family 30_encoding: decoding and encoding (O1 to O4), the value of a sample (O49), the header of a sink
run's file (O53), the operations that write one field of a register (O35 to O40), and the operations made of others: the
repetitions of `STEP` (O15), the pin rows (O31) and the status rows (O45). -/

namespace Sys2Proof.Proofs

open Sys2Proof Sys2Proof.Machine Sys2Proof.Claims Sys2Proof.Laws

section CommandWords

variable {w : Word32} {i : Instr}

/-! ### Decoding what was encoded -/

/-- Settles O2: a row with operand bits has its own lemma in Laws/PerInstr.lean; the code of any other row evaluates. -/
theorem decodeReadsBackEveryOperation : Obligations.DecodeReadsBackEveryOperation := by
  intro i
  cases i with
  | feed l => exact EncodeDecode.feed l
  | rd r => exact EncodeDecode.rd r
  | wr r v => exact EncodeDecode.wr r v
  | csrr a => exact EncodeDecode.csrr a
  | csrw a v => exact EncodeDecode.csrw a v
  | csrr16 a => exact EncodeDecode.csrr16 a
  | csrw16 a v => exact EncodeDecode.csrw16 a v
  | busRead r => exact EncodeDecode.busRead r
  | busWrite r => exact EncodeDecode.busWrite r
  | _ => rfl

/-- Settles O1: each word and each selector is read by evaluation. -/
theorem commandWordsDecode : Obligations.CommandWordsDecode :=
  ⟨rfl, rfl, rfl, rfl, rfl, rfl, rfl, rfl, rfl, rfl, rfl, rfl⟩

/-! ### Encoding what was decoded -/

/-- A command word is its four fields in order (R123); with `z = 0` it is the word of the other three. -/
theorem eq_cmd32_of_fields {op : BitVec 4} {a : Byte} {d : Word16} (hz : w.extractLsb' 24 4 = 0)
    (hop : w.extractLsb' 28 4 = op) (ha : w.extractLsb' 16 8 = a) (hd : w.extractLsb' 0 16 = d) :
    w = cmd32 op a d := by
  subst hop ha hd
  apply BitVec.eq_of_getLsbD_eq
  intro k hk
  rw [getLsbD_cmd32]
  split_ifs with hd ha hz'
  · simp [hd]
  · simp [show k - 16 < 8 by omega, show 16 + (k - 16) = k by omega]
  · have hbit : (w.extractLsb' 24 4).getLsbD (k - 24) = false := by simp [hz]
    simpa [show k - 24 < 4 by omega, show 24 + (k - 24) = k by omega] using hbit
  · simp [show k - 28 < 4 by omega, show 28 + (k - 28) = k by omega]

/-- The word of an operation is read off the fields of the word decoded. -/
theorem encode_eq_word_of_fields {op : BitVec 4} {a : Byte} {d : Word16}
    (hi : encode i = .word 32 (cmd32 op a d).toNat) (hz : w.extractLsb' 24 4 = 0)
    (hop : (w.extractLsb' 28 4).toNat = op.toNat) (ha : w.extractLsb' 16 8 = a) (hd : w.extractLsb' 0 16 = d) :
    encode i = .word 32 w.toNat := by
  rw [hi, eq_cmd32_of_fields hz (BitVec.eq_of_toNat_eq hop) ha hd]

theorem eq_zero_iff_toNat_eq_zero {n : Nat} {x : BitVec n} : x = 0 ↔ x.toNat = 0 := by
  rw [BitVec.toNat_eq]; rfl

theorem boolBits_getLsbD {d : Word16} (h : d.toNat < 2) : boolBits (d.getLsbD 0) = d := by
  obtain rfl | rfl : d = 0 ∨ d = 1 := by bv_omega
  all_goals rfl

theorem busRegBits_busRegOf {a : Byte} (h : a.toNat < 2) : busRegBits (busRegOf (a.getLsbD 0)) = a := by
  obtain rfl | rfl : a = 0 ∨ a = 1 := by bv_omega
  all_goals rfl

/-- The byte operand is all of `d` where the rest of `d` is 0 (R123). -/
theorem setWidth_byte_of_lt (w : Word32) (h : (w.extractLsb' 0 16).toNat < 256) :
    (w.extractLsb' 0 8).setWidth 16 = w.extractLsb' 0 16 := by
  apply BitVec.eq_of_toNat_eq
  simp only [BitVec.extractLsb'_toNat, BitVec.toNat_setWidth, Nat.shiftRight_zero] at h ⊢
  omega

/-- An operation whose operand bits are checked (R130 (d)) is read exactly if they pass. -/
theorem checked_eq_ok {c : Prop} [Decidable c] {j : Instr} {r : Reject} :
    (if c then .ok j else .error r : Except Reject Instr) = .ok i ↔ c ∧ j = i := by
  split <;> simp [*]

theorem checked_eq_error {c : Prop} [Decidable c] {j : Instr} {r : Reject} :
    (∃ r', (if c then .ok j else .error r : Except Reject Instr) = .error r') ↔ ¬ c := by
  split <;> simp [*]

/-- A word that is read as an operation is that operation's word: the conditions on its operand bits (R130 (d)) leave
no other. -/
theorem encode_of_decodeCmd32 (h : decodeCmd32 w = .ok i) : encode i = .word 32 w.toNat := by
  unfold decodeCmd32 at h
  dsimp only at h
  split at h
  case isTrue => cases h
  case isFalse hz =>
    replace hz : w.extractLsb' 24 4 = 0 := eq_zero_iff_toNat_eq_zero.mpr (not_not.mp hz)
    split at h
    case h_1 hop | h_2 hop =>
      obtain ⟨⟨ha, hd⟩, rfl⟩ := checked_eq_ok.mp h
      exact encode_eq_word_of_fields rfl hz hop (eq_zero_iff_toNat_eq_zero.mpr ha)
        (eq_zero_iff_toNat_eq_zero.mpr hd)
    case h_3 hop =>
      obtain ⟨⟨ha, hd⟩, rfl⟩ := checked_eq_ok.mp h
      exact encode_eq_word_of_fields rfl hz hop (eq_zero_iff_toNat_eq_zero.mpr ha) (boolBits_getLsbD hd).symm
    case h_4 hop =>
      obtain ⟨⟨ha, hd⟩, rfl⟩ := checked_eq_ok.mp h
      exact encode_eq_word_of_fields rfl hz hop (busRegBits_busRegOf ha).symm (eq_zero_iff_toNat_eq_zero.mpr hd)
    case h_5 hop =>
      obtain ⟨⟨ha, hd⟩, rfl⟩ := checked_eq_ok.mp h
      exact encode_eq_word_of_fields rfl hz hop (busRegBits_busRegOf ha).symm (setWidth_byte_of_lt w hd).symm
    case h_6 hop | h_8 hop =>
      obtain ⟨hd, rfl⟩ := checked_eq_ok.mp h
      exact encode_eq_word_of_fields rfl hz hop rfl (eq_zero_iff_toNat_eq_zero.mpr hd)
    case h_7 hop =>
      obtain ⟨hd, rfl⟩ := checked_eq_ok.mp h
      exact encode_eq_word_of_fields rfl hz hop rfl (setWidth_byte_of_lt w hd).symm
    case h_9 hop =>
      cases h
      exact encode_eq_word_of_fields rfl hz hop rfl rfl
    case h_10 => cases h

/-- Settles O3: what is read is what was encoded, and what was encoded is read (O2). -/
theorem commandWordsHaveOneReading : Obligations.CommandWordsHaveOneReading := by
  intro w i
  constructor
  · intro h
    exact encode_of_decodeCmd32 ((decode_word32 w).symm.trans h)
  · intro h
    rw [← h]
    exact decodeReadsBackEveryOperation i

/-! ### The words rejected -/

theorem toNat_extractLsb'_eq_mod {n : Nat} (x : BitVec n) (lo len : Nat) :
    (x.extractLsb' lo len).toNat = x.toNat / 2 ^ lo % 2 ^ len := by
  rw [BitVec.extractLsb'_toNat, Nat.shiftRight_eq_div_pow]

/-- All bits of `a` and `d` (`op` 0 and 1), as the decoder checks them. -/
theorem bits_a_d_eq_zero_iff (w : Word32) :
    w.extractLsb' 0 24 = 0 ↔ (w.extractLsb' 16 8).toNat = 0 ∧ (w.extractLsb' 0 16).toNat = 0 := by
  rw [eq_zero_iff_toNat_eq_zero]; simp only [toNat_extractLsb'_eq_mod]; omega
/-- All bits of `a` and `d` but the level (`op` 2). -/
theorem bits_above_level_eq_zero_iff (w : Word32) :
    w.extractLsb' 1 23 = 0 ↔ (w.extractLsb' 16 8).toNat = 0 ∧ (w.extractLsb' 0 16).toNat < 2 := by
  rw [eq_zero_iff_toNat_eq_zero]; simp only [toNat_extractLsb'_eq_mod]; omega
/-- The bits of `a` but the register index (`op` 3 and 4). -/
theorem bits_above_index_eq_zero_iff (w : Word32) :
    w.extractLsb' 17 7 = 0 ↔ (w.extractLsb' 16 8).toNat < 2 := by
  rw [eq_zero_iff_toNat_eq_zero]; simp only [toNat_extractLsb'_eq_mod]; omega
/-- The bits of `d` above a byte operand (`op` 4 and 6). -/
theorem bits_above_byte_eq_zero_iff (w : Word32) :
    w.extractLsb' 8 8 = 0 ↔ (w.extractLsb' 0 16).toNat < 256 := by
  rw [eq_zero_iff_toNat_eq_zero]; simp only [toNat_extractLsb'_eq_mod]; omega

/-- Settles O4: with `z = 0`, what the decoder checks of `a` and `d` for an `op` is what R123 says of its bits; `op` 8
has no bit to check, and 9 to 15 are reserved. -/
theorem reservedCommandWordsRejected : Obligations.ReservedCommandWordsRejected := by
  intro w
  simp only [decode_word32, decodeCmd32, ne_eq, bits_a_d_eq_zero_iff, bits_above_level_eq_zero_iff,
    bits_above_index_eq_zero_iff, bits_above_byte_eq_zero_iff]
  simp only [eq_zero_iff_toNat_eq_zero]
  by_cases hz : (w.extractLsb' 24 4).toNat = 0
  · generalize (w.extractLsb' 28 4).toNat = op
    simp only [hz, not_true_eq_false, if_false]
    split
    case h_9 => simp
    case h_10 =>
      have hreserved : 9 ≤ op := by
        by_contra hlt
        interval_cases op <;> contradiction
      simp [hreserved]
    all_goals
      rw [checked_eq_error]
      simp [-not_and, not_and_or]
  · rw [if_pos hz]
    exact iff_of_true ⟨_, rfl⟩ (.inr (.inl hz))

end CommandWords

section Samples

/-! ### The value of a sample -/

/-- A number of a sample's bytes in two's complement (R121). -/
theorem toInt_ofNat_of_lt {n x : Nat} (h : x < 2 ^ n) :
    (BitVec.ofNat n x).toInt = x - (if 2 * x < 2 ^ n then 0 else 2 ^ n : Int) := by
  rw [BitVec.toInt_eq_toNat_cond, BitVec.toNat_ofNat, Nat.mod_eq_of_lt h]
  split <;> simp

theorem toNat_sampleByte {v : Int} (hlow : -128 ≤ v) (hhigh : v ≤ 127) : ((sampleByte v).toNat : Int) = v + 128 := by
  rw [sampleByte, BitVec.toNat_ofInt]
  omega

/-- Settles O49: the bytes of a sample spell a number, which is offset or read in two's complement; further bytes of the
frame are cut off. -/
theorem sampleDecoding : Obligations.SampleDecoding := by
  refine ⟨fun b rest => ?_, fun b₀ b₁ rest => ?_, fun b₀ b₁ b₂ b₃ rest => ?_, fun v => toNat_sampleByte⟩
  · simp [sampleValue, leNat]
  · have h₀ := b₀.isLt
    have h₁ := b₁.isLt
    simp only [sampleValue, List.take, leNat]
    rw [toInt_ofNat_of_lt (by omega)]
    split_ifs <;> omega
  · have h₀ := b₀.isLt
    have h₁ := b₁.isLt
    have h₂ := b₂.isLt
    have h₃ := b₃.isLt
    simp only [sampleValue, List.take, leNat]
    rw [toInt_ofNat_of_lt (by omega)]
    split_ifs <;> omega

/-! ### The header of a sink run's file -/

/-- Bytes written low first are read back (R87). -/
theorem leNat_leBytes : ∀ (n : Nat) {v : Nat}, v < 256 ^ n → leNat (leBytes n v) = v
  | 0, v, h => by simp at h; simp [leBytes, leNat, h]
  | n + 1, v, h => by
    have hrest : v / 256 < 256 ^ n := Nat.div_lt_of_lt_mul (by rwa [Nat.pow_succ'] at h)
    rw [leBytes, leNat, leNat_leBytes n hrest, BitVec.toNat_ofNat]
    omega

theorem leNat_sizeField {v : Nat} (h : v < 2 ^ 32) : leNat (sizeField v) = v := by
  rw [sizeField, if_pos h, leNat_leBytes 4 h]

section Header

variable (n : Nat) (samples : List Byte)

/-- The markers of the header at their offsets (R120). -/
theorem outputHeader_marks :
    slice (outputHeader n ++ samples) 0 4 = riffMark ∧ slice (outputHeader n ++ samples) 8 4 = waveMark ∧
    slice (outputHeader n ++ samples) 12 4 = fmtMark ∧ slice (outputHeader n ++ samples) 36 4 = dataMark := by
  simp [slice, outputHeader, sizeField, leBytes, riffMark, waveMark, fmtMark, dataMark]

/-- The sizes of the header at their offsets, whatever a size too large leaves there (log 17). -/
theorem outputHeader_sizes :
    slice (outputHeader n ++ samples) 4 4 = sizeField (36 + n) ∧
    slice (outputHeader n ++ samples) 40 4 = sizeField n := by
  simp [slice, outputHeader, sizeField, leBytes, riffMark, waveMark, fmtMark, dataMark]

/-- The numbers of the header that do not depend on the number of samples, at their offsets (R324). -/
theorem outputHeader_numbers :
    slice (outputHeader n ++ samples) 20 2 = leBytes 2 1 ∧ slice (outputHeader n ++ samples) 22 2 = leBytes 2 1 ∧
    slice (outputHeader n ++ samples) 24 4 = leBytes 4 48000 ∧ slice (outputHeader n ++ samples) 32 2 = leBytes 2 1 ∧
    slice (outputHeader n ++ samples) 34 2 = leBytes 2 8 := by
  simp [slice, outputHeader, sizeField, leBytes, riffMark, waveMark, fmtMark, dataMark, Config.outRate]

/-- The same numbers as the source adapter reads them. -/
theorem outputHeader_format :
    wavFormatCode (outputHeader n ++ samples) = 1 ∧ wavChannels (outputHeader n ++ samples) = 1 ∧
    wavSampleRate (outputHeader n ++ samples) = 48000 ∧ wavBlockAlign (outputHeader n ++ samples) = 1 ∧
    wavBits (outputHeader n ++ samples) = 8 := by
  obtain ⟨hcode, hchannels, hrate, halign, hbits⟩ := outputHeader_numbers n samples
  rw [wavFormatCode, hcode, wavChannels, hchannels, wavSampleRate, hrate, wavBlockAlign, halign, wavBits, hbits]
  exact ⟨leNat_leBytes 2 (by decide), leNat_leBytes 2 (by decide), leNat_leBytes 4 (by decide),
    leNat_leBytes 2 (by decide), leNat_leBytes 2 (by decide)⟩

theorem outputHeader_accepted : wavHeaderOk (outputHeader n ++ samples) = true := by
  obtain ⟨hriff, hwave, hfmt, hdata⟩ := outputHeader_marks n samples
  obtain ⟨hcode, hchannels, hrate, halign, hbits⟩ := outputHeader_format n samples
  simp [wavHeaderOk, hriff, hwave, hfmt, hdata, hcode, hchannels, hrate, halign, hbits]

end Header

/-- However the loop of a sink run ends, the file is the header for the samples written, then the samples (R324). -/
theorem sinkLoop_file : ∀ {fuel : Nat} {s t : State}, sinkLoop fuel s = .next t →
    t.snk.file = outputHeader t.snk.n ++ t.snk.samples
  | 0, _, _, h => by cases h; rfl
  | fuel + 1, s, t, h => by
    rcases sinkLoop_succ_eq_next h with ⟨-, rfl⟩ | ⟨-, u, v, w, -, -, -, ⟨-, rfl⟩ | ⟨-, hrest⟩⟩
    · rfl
    · rfl
    · exact sinkLoop_file hrest

/-- Settles O53: the fields of the header are read at the offsets they were written at. -/
theorem sinkHeaderIsAccepted : Obligations.SinkHeaderIsAccepted := by
  intro data s t h
  rw [sinkLoop_file (betweenOperations_eq_next.mp h).2]
  obtain ⟨-, hchannels, hrate, -, hbits⟩ := outputHeader_format t.snk.n t.snk.samples
  obtain ⟨hoverall, hdata⟩ := outputHeader_sizes t.snk.n t.snk.samples
  exact ⟨outputHeader_accepted _ _, hchannels, hbits, hrate,
    fun hn => by rw [wavDataSize, hdata, leNat_sizeField hn],
    fun hn => by rw [hoverall, leNat_sizeField hn]⟩

end Samples

section FieldWrites

variable {s : State} {c : Callback} {f : CsrField} {v : Byte}

/-! ### `SET`, and the rows that are a value of a field -/

/-- A write of one field, seen from the whole state (R245): a value too wide is cut to the field. -/
theorem onlyFieldWritten_fieldWrite (f : CsrField) (v : Byte) (s : State) :
    OnlyFieldWritten f (v &&& fieldMask 0 f.pos.width) s { s with csr := fieldWrite s.csr f v } where
  others := rfl
  field := by
    rw [fieldRead, fieldWrite, cellRead_cellWrite_same, extractField_replaceField v _ (CsrField_fits f)]
  bits := cellRead_fieldWrite_outside s.csr f v
  bytes _ hcell := cellRead_fieldWrite_ne hcell s.csr v

/-- A value that fits a field is not cut. -/
theorem and_fieldMask_of_lt (hv : v.toNat < 2 ^ f.pos.width) : v &&& fieldMask 0 f.pos.width = v := by
  rw [← (onlyFieldWritten_fieldWrite f v State.reset).field]
  exact fieldRead_fieldWrite_same _ f hv

theorem pow_width_le (f : CsrField) : 2 ^ f.pos.width ≤ 2 ^ 8 :=
  Nat.pow_le_pow_right (by decide) (by have := CsrField_fits f; omega)

/-- `SET` of a value that fits (R132). -/
theorem toNat_setValue {n : Nat} (hn : n < 2 ^ f.pos.width) : (setValue f n).toNat = n := by
  rw [setValue, if_pos hn, BitVec.toNat_ofNat, Nat.mod_eq_of_lt (hn.trans_le (pow_width_le f))]

theorem setFieldRegister_busctl (n : Nat) (s : State) (hf : f.pos.cell = .busctl) :
    setFieldRegister f n s = .refused .busctlReadOnly := by
  simp [setFieldRegister, csrRead8, csrWrite8, hf]

/-- Settles O35: after the `CSRR` the field is written and nothing else; a value that fits is written whole. -/
theorem setFieldOperation : Obligations.SetFieldOperation := by
  intro c f n s hs
  refine ⟨fun hf => ?_, fun hf => (insideCallback_callback hs _).trans (setFieldRegister_busctl n s hf)⟩
  have hset : exec (.setField f n) s = .next _ :=
    insideCallback_eq_next.mpr ⟨⟨c, hs⟩, setFieldRegister_eq_next.mpr ⟨hf, rfl⟩⟩
  refine ⟨_, _, _, exec_csrr_address hs f.pos.cell, hset, onlyFieldWritten_fieldWrite f (setValue f n) _,
    fun hn => ?_, fun g hg => fieldRead_fieldWrite_ne hg s.csr _⟩
  have hvalue := toNat_setValue hn
  rw [and_fieldMask_of_lt (by rwa [hvalue]), hvalue]

/-- A value that fits is what the field then holds. -/
theorem onlyFieldWritten_of_lt (hv : v.toNat < 2 ^ f.pos.width) (s : State) :
    OnlyFieldWritten f v s { s with csr := fieldWrite s.csr f v } := by
  have honly := onlyFieldWritten_fieldWrite f v s
  rwa [and_fieldMask_of_lt hv] at honly

theorem writeSelector_inCallback (hs : s.moment = .callback c) (f : CsrField) (v : Byte) :
    writeSelector f v s = .next { s with csr := fieldWrite s.csr f v } := insideCallback_callback hs _

/-- A row of the table that is a value of a field: inside a callback it writes that field and nothing else. -/
theorem writeSelector_completes (hs : s.moment = .callback c) (hv : v.toNat < 2 ^ f.pos.width) :
    ∃ t, writeSelector f v s = .next t ∧ OnlyFieldWritten f v s t :=
  ⟨_, writeSelector_inCallback hs f v, onlyFieldWritten_of_lt hv s⟩

/-- A prescaler row, `f` the select field of channel `n`: the divisor is the table's for the code. -/
theorem writeSelector_divisor {n : Channel} {table : Byte → Nat} (hdiv : ∀ r, divisor r n = table (fieldRead r f))
    (hs : s.moment = .callback c) (hv : v.toNat < 2 ^ f.pos.width) :
    ∃ t, writeSelector f v s = .next t ∧ OnlyFieldWritten f v s t ∧ divisor t.csr n = table v := by
  obtain ⟨t, ht, honly⟩ := writeSelector_completes hs hv
  exact ⟨t, ht, honly, by rw [hdiv, honly.field]⟩

/-- Settles O36: each row writes its code, of which R112 gives the divisor. -/
theorem prescalerSelectsOfTimers0And1 : Obligations.PrescalerSelectsOfTimers0And1 := by
  intro c s hs
  refine ⟨fun p hp => ?_, fun p hp => ?_⟩
  · fin_cases hp
    all_goals exact writeSelector_divisor (n := .t0) (table := div01) (fun _ => rfl) hs (by decide)
  · fin_cases hp
    all_goals exact writeSelector_divisor (n := .t1) (table := div01) (fun _ => rfl) hs (by decide)

/-- Settles O37: as O36, with Timer2's own table (R113). -/
theorem prescalerSelectsOfTimer2 : Obligations.PrescalerSelectsOfTimer2 := by
  intro c s hs p hp
  fin_cases hp
  all_goals exact writeSelector_divisor (n := .t2) (table := div2) (fun _ => rfl) hs (by decide)

/-- Settles O39: each row is the write of one bit. -/
theorem captureSelectsAndForcedCompare : Obligations.CaptureSelectsAndForcedCompare := by
  intro c s hs p hp
  fin_cases hp
  all_goals exact writeSelector_completes hs (by decide)

/-! ### The output mode and the waveform mode -/

/-- `OC2A_UPDATE` inside a `STEP` (R210). -/
theorem execOc2aUpdate_inStep (hs : s.moment = .step) : execOc2aUpdate s = .next (outputUpdate s) :=
  insideStep_step hs _

/-- An update with the latch set makes of the level what the mode says (R210, R212). -/
theorem outputUpdate_latched_oc2a (s : State) :
    (outputUpdate { s with moment := .step, oc2aMatch := true }).oc2a = outputLevel (fieldRead s.csr .com2a) s.oc2a :=
  rfl

/-- A row of `COM2A`, and an update with the latch set after it. -/
theorem writeSelector_com2a (hs : s.moment = .callback c) (hv : v.toNat < 2 ^ CsrField.com2a.pos.width) :
    ∃ t u, writeSelector .com2a v s = .next t ∧ OnlyFieldWritten .com2a v s t ∧
      exec .oc2aUpdate { t with moment := .step, oc2aMatch := true } = .next u ∧
      u.oc2a = outputLevel v s.oc2a := by
  obtain ⟨t, ht, honly⟩ := writeSelector_completes hs hv
  have hkept : t.oc2a = s.oc2a := by rw [honly.others]
  refine ⟨t, _, ht, honly, execOc2aUpdate_inStep (s := { t with moment := .step, oc2aMatch := true }) rfl, ?_⟩
  rw [outputUpdate_latched_oc2a, honly.field, hkept]

/-- `WGM2 = 0b010` as a write of two bytes: bit 3 of one, bits 1 and 0 of the other (R115). -/
theorem fieldWrite_wgm2 (r : Csrs) : fieldWrite (fieldWrite r .wgm2High 0) .wgm2Low 2 =
    { r with tccr2a := (r.tccr2a &&& 0xFC) ||| 0x02, tccr2b := r.tccr2b &&& 0xF7 } := by
  have hlow : ∀ x : Byte, replaceField 0 2 2 x = (x &&& 0xFC) ||| 0x02 := by decide
  have hhigh : ∀ x : Byte, replaceField 3 1 0 x = x &&& 0xF7 := by decide
  rw [← hlow, ← hhigh]
  rfl

theorem wgm2_fieldWrite (r : Csrs) : wgm2 (fieldWrite (fieldWrite r .wgm2High 0) .wgm2Low 2) = 0b010 := by
  have hlow : ∀ x : Byte, ((x &&& 0xFC) ||| 0x02).extractLsb' 0 2 = 2 := by decide
  have hhigh : ∀ x : Byte, (x &&& 0xF7).extractLsb' 3 1 = 0 := by decide
  rw [fieldWrite_wgm2, wgm2, hlow, hhigh]
  rfl

theorem execWgm2Ctc_inCallback (hs : s.moment = .callback c) :
    execWgm2Ctc s = .next { s with csr := fieldWrite (fieldWrite s.csr .wgm2High 0) .wgm2Low 2 } :=
  insideCallback_callback hs _

/-- Settles O38: the mode a row of `COM2A` writes is what the update reads; `WGM2` is written in its two parts. -/
theorem outputAndWaveformModes : Obligations.OutputAndWaveformModes := by
  intro c s hs
  refine ⟨fun p hp => ?_, _, execWgm2Ctc_inCallback hs, wgm2_fieldWrite s.csr, by rw [fieldWrite_wgm2]⟩
  obtain ⟨hrow, hfits, htable⟩ : exec p.1 s = writeSelector .com2a p.2.1 s ∧
      p.2.1.toNat < 2 ^ CsrField.com2a.pos.width ∧
      ∀ level, outputLevel p.2.1 level = if level then p.2.2.2 else p.2.2.1 := by
    fin_cases hp
    all_goals exact ⟨rfl, by decide, by decide⟩
  rw [hrow, ← htable]
  exact writeSelector_com2a hs hfits

/-! ### The enables and the flags -/

theorem enable_width (src : TimerSource) : (enableField src).pos.width = 1 := by
  obtain ⟨n, e⟩ := src; cases n <;> cases e <;> rfl

/-- Setting an enable bit is no dispatch (R177): the source is enabled, its flag as before, and nothing is called. -/
theorem writeSelector_enable (hs : s.moment = .callback c) (src : TimerSource) :
    ∃ t, writeSelector (enableField src) 1 s = .next t ∧ OnlyFieldWritten (enableField src) 1 s t ∧
      enabled t.csr src = true ∧ flagged t.csr src = flagged s.csr src ∧ t.calls = s.calls := by
  have honly := onlyFieldWritten_of_lt (f := enableField src) (v := 1) (by rw [enable_width]; decide) s
  refine ⟨_, writeSelector_inCallback hs _ _, honly, by rw [enabled, honly.field]; rfl, ?_, rfl⟩
  rw [flagged, fieldRead_fieldWrite_ne (enableField_ne src src).symm, flagged]

/-- Setting a flag is no dispatch either (R176, R177). -/
theorem writeSelector_flag (hs : s.moment = .callback c) (src : TimerSource) :
    ∃ t, writeSelector (flagField src) 1 s = .next t ∧ OnlyFieldWritten (flagField src) 1 s t ∧
      flagged t.csr src = true ∧ enabled t.csr src = enabled s.csr src ∧ t.calls = s.calls :=
  ⟨_, writeSelector_inCallback hs _ _, onlyFieldWritten_of_lt (by rw [flag_width]; decide) s,
    flagged_set_same s.csr src, enabled_set s.csr src src, rfl⟩

/-- Settles O40: each row of the table is the write of the enable, or of the flag, of its source. -/
theorem enableAndFlagRows : Obligations.EnableAndFlagRows := by
  intro c s hs
  refine ⟨fun p hp => ?_, fun p hp => ?_⟩
  · have hrow : exec p.1 s = writeSelector (enableField p.2) 1 s := by fin_cases hp <;> rfl
    rw [hrow]
    exact writeSelector_enable hs p.2
  · have hrow : exec p.1 s = writeSelector (flagField p.2) 1 s := by fin_cases hp <;> rfl
    rw [hrow]
    exact writeSelector_flag hs p.2

end FieldWrites

section Composites

variable {s : State}

/-! ### Operations that are made of others -/

theorem execFeedAt_between {m : Nat} {l : Bool} (hs : s.moment = .between) :
    execFeedAt m l s = andThen (runToTick m s) (feedLevel l) := betweenOperations_between hs _

/-- Settles O15: the repetitions are performed where a `STEP` is, each `STEP` leaving what was under way. -/
theorem repeatedSteps : Obligations.RepeatedSteps := by
  intro s hs hlegal
  refine ⟨betweenOperations_between hs _, fun n => ?_, fun m => ?_, fun m l => ?_⟩
  · obtain ⟨u, hu⟩ := stepTick_total hlegal
    have hrun := stepTick_run hu
    obtain ⟨t, ht⟩ := stepTimes_total (n := n) (hrun.legal hlegal)
    exact ⟨u, t, betweenOperations_eq_next.mpr ⟨hs, hu⟩,
      betweenOperations_eq_next.mpr ⟨hrun.moment.trans hs, ht⟩,
      betweenOperations_eq_next.mpr ⟨hs, andThen_eq_next.mpr ⟨u, hu, ht⟩⟩⟩
  · obtain ⟨t, ht⟩ := runToTick_total (n := m) hlegal
    exact ⟨t, betweenOperations_eq_next.mpr ⟨hs, ht⟩, betweenOperations_eq_next.mpr ⟨hs, ht⟩, runToTick_tick ht⟩
  · obtain ⟨u, hu⟩ := runToTick_total (n := m) hlegal
    have hrun := runToTick_run hu
    obtain ⟨t, ht⟩ := feedLevel_total (l := l) (hrun.legal hlegal)
    exact ⟨u, t, betweenOperations_eq_next.mpr ⟨hs, hu⟩,
      betweenOperations_eq_next.mpr ⟨hrun.moment.trans hs, ht⟩,
      (execFeedAt_between hs).trans (andThen_eq_next.mpr ⟨u, hu, ht⟩)⟩

/-- Settles O31: a pin row has the same body as its transaction (log 4). -/
theorem pinRowsAreTransactions : Obligations.PinRowsAreTransactions := by
  intro r s hs hlegal
  obtain ⟨t, ht⟩ := busReadOf_total (r := r) hlegal
  obtain ⟨u, hu⟩ := busWriteOf_total (r := r) (v := s.csr.busdata) hlegal
  exact ⟨⟨t, betweenOperations_eq_next.mpr ⟨hs, ht⟩, betweenOperations_eq_next.mpr ⟨hs, ht⟩⟩,
    ⟨u, betweenOperations_eq_next.mpr ⟨hs, hu⟩, betweenOperations_eq_next.mpr ⟨hs, hu⟩⟩⟩

/-! ### The status rows -/

theorem unlessStopped_of_stopped (h : s.dec.stopped = true) (k : State → Result) : unlessStopped s k = .next s := by
  simp [unlessStopped, h]

theorem unlessStopped_of_running (h : s.dec.stopped = false) (k : State → Result) : unlessStopped s k = k s := by
  simp [unlessStopped, h]

/-- An error of a running decoder (R264, R268). -/
theorem decoderError_of_running (h : s.dec.stopped = false) (e : HostError) :
    decoderError e s = afterErrors [e] (!s.dec.keepGoing) s := by
  simp [decoderError, recordError, afterErrors, h]

theorem execCompare_between (hs : s.moment = .between) (b : Byte) : execCompare b s = .next (compareByte b s) :=
  betweenOperations_between hs _

/-- What a running decoder receives: a read of the data register, the byte appended, and `COMPARE` of it (R262). -/
theorem receiveByte_operations (hs : s.moment = .between) (hlegal : s.fw.legal = true) :
    ∃ w x, exec (.rd .data) s = .next w ∧
      exec (.compare w.hostResult)
        { w with dec := { w.dec with received := w.dec.received ++ [w.hostResult] } } = .next x ∧
      receiveByte s = .next x := by
  obtain ⟨w, hw⟩ := busReadOf_total (r := .data) hlegal
  have hbetween : w.moment = .between := (busReadOf_run hw).moment.trans hs
  exact ⟨w, _, betweenOperations_eq_next.mpr ⟨hs, hw⟩, execCompare_between (by exact hbetween) _,
    andThen_eq_next.mpr ⟨w, hw, rfl⟩⟩

/-- The row "room for a byte" with the leader not over or no byte left (R313). -/
theorem sendNext_idle (h : s.tick < s.snk.leaderEnd ∨ s.snk.data.length ≤ s.snk.pos) : sendNext s = .next s := by
  unfold sendNext
  rcases h with hleader | hsent
  · rw [if_neg (by omega)]
  · rw [List.getElem?_eq_none hsent]
    exact ite_self _

/-- The row "room for a byte" with a byte to send: the write does not touch the sink, the tick or the clock (R314). -/
theorem sendNext_sends {b : Byte} (hlegal : s.fw.legal = true) (hleader : s.snk.leaderEnd ≤ s.tick)
    (hb : s.snk.data[s.snk.pos]? = some b) :
    ∃ u, busWriteOf .data b s = .next u ∧
      sendNext s = .next { u with
        snk := { s.snk with pos := s.snk.pos + 1, endTime := s.tick + s.params.clockHz } } := by
  obtain ⟨u, hu⟩ := busWriteOf_total (r := .data) (v := b) hlegal
  have hrun := busWriteOf_run hu
  have htick : u.tick = s.tick := (busWriteOf_effect hu).1.tick
  refine ⟨u, hu, ?_⟩
  rw [sendNext, if_pos hleader, hb]
  simp only [hu, andThen_next, hrun.snk, htick, hrun.bindings.params]

/-- Settles O45: each row is the body of the line it stands for (log 5). -/
theorem statusRows : Obligations.StatusRows := by
  intro s hs hlegal
  refine ⟨fun hstopped => ?_, fun hrunning => ?_, fun hidle => ?_, fun hleader b hb => ?_⟩
  · have hskip (k : State → Result) : (betweenOperations s fun u => unlessStopped u k) = .next s :=
      (betweenOperations_between hs _).trans (unlessStopped_of_stopped hstopped k)
    exact ⟨hskip _, hskip _, hskip _⟩
  · have hperform (k : State → Result) : (betweenOperations s fun u => unlessStopped u k) = k s :=
      (betweenOperations_between hs _).trans (unlessStopped_of_running hrunning k)
    rw [← decoderError_of_running hrunning, ← decoderError_of_running hrunning]
    obtain ⟨w, x, hread, hcompare, hreceive⟩ := receiveByte_operations hs hlegal
    exact ⟨hperform _, hperform _, w, x, hread, hcompare, (hperform receiveByte).trans hreceive⟩
  · exact (betweenOperations_between hs _).trans (sendNext_idle hidle)
  · obtain ⟨u, hwrite, hsend⟩ := sendNext_sends hlegal hleader hb
    exact ⟨u, betweenOperations_eq_next.mpr ⟨hs, hwrite⟩, (betweenOperations_between hs _).trans hsend⟩

end Composites

end Sys2Proof.Proofs
end

section
/-! PROOFS. Family 40_clockdomain_step: what a `STEP` is made of (O10, O11), the rate of the counters (O13), the one
output update of a tick (O23), and that nothing is refused with a legal firmware (O57). A completed `STEP` is taken
apart once, into the turns of the channels, the hook and the update; each statement reads off the part it needs. -/

namespace Sys2Proof.Proofs

open Sys2Proof Sys2Proof.Machine Sys2Proof.Claims

section Step

variable {s t : State} {n : Channel}

/-! ### What a `STEP` is made of -/

/-- With a `STEP` under way a channel's turn is the sub-operation, where the channel is due (R140, R142). -/
theorem channelTurn_operation (hs : s.moment = .step) (h : channelTurn n s = .next t) : ChannelTurn n s t := by
  unfold ChannelTurn PerformedIf
  rcases whenDo_eq_next.mp h with ⟨hdue, htick⟩ | ⟨hdue, rfl⟩
  · rw [if_pos hdue]; exact insideStep_eq_next.mpr ⟨hs, htick⟩
  · rw [if_neg (by simp [hdue])]

/-- The states a `STEP` from `s` goes through (R140): `u₀`, `u₁`, `u₂` after the turns of the channels, `v` after the
hook. -/
structure StepParts (s u₀ u₁ u₂ v : State) : Prop where
  turn0 : channelTurn .t0 { s with moment := .step, tick := s.tick + 1 } = .next u₀
  turn1 : channelTurn .t1 u₀ = .next u₁
  turn2 : channelTurn .t2 u₁ = .next u₂
  hook : call .loop u₂ = .next v

theorem stepTick_stepParts (h : stepTick s = .next t) :
    ∃ u₀ u₁ u₂ v, StepParts s u₀ u₁ u₂ v ∧ t = { outputUpdate v with moment := s.moment } := by
  obtain ⟨u₀, u₁, u₂, v, h0, h1, h2, h3, ht⟩ := stepTick_parts h
  exact ⟨u₀, u₁, u₂, v, ⟨h0, h1, h2, h3⟩, ht⟩

namespace StepParts

variable {u₀ u₁ u₂ v : State}

theorem effect0 (p : StepParts s u₀ u₁ u₂ v) : TimerEffect { s with moment := .step, tick := s.tick + 1 } u₀ :=
  channelTurn_effect p.turn0

theorem effect1 (p : StepParts s u₀ u₁ u₂ v) : TimerEffect { s with moment := .step, tick := s.tick + 1 } u₁ :=
  p.effect0.trans (channelTurn_effect p.turn1)

theorem effect2 (p : StepParts s u₀ u₁ u₂ v) : TimerEffect { s with moment := .step, tick := s.tick + 1 } u₂ :=
  p.effect1.trans (channelTurn_effect p.turn2)

theorem operation0 (p : StepParts s u₀ u₁ u₂ v) :
    ChannelTurn .t0 { s with moment := .step, tick := s.tick + 1 } u₀ := channelTurn_operation rfl p.turn0

theorem operation1 (p : StepParts s u₀ u₁ u₂ v) : ChannelTurn .t1 u₀ u₁ :=
  channelTurn_operation p.effect0.moment p.turn1

theorem operation2 (p : StepParts s u₀ u₁ u₂ v) : ChannelTurn .t2 u₁ u₂ :=
  channelTurn_operation p.effect1.moment p.turn2

theorem update (p : StepParts s u₀ u₁ u₂ v) : exec .oc2aUpdate v = .next (outputUpdate v) :=
  execOc2aUpdate_inStep ((call_moment p.hook).trans p.effect2.moment)

/-- Neither the channels nor the hook write the output (R50). -/
theorem output (p : StepParts s u₀ u₁ u₂ v) : v.oc2a = s.oc2a := by
  rw [(call_eq_next p.hook).1, p.effect2.same]

end StepParts

/-- Neither the host procedures nor the byte last read are written by a `STEP`. -/
theorem stepEffect_host (h : StepEffect s t) : ProceduresKept s t ∧ t.hostResult = s.hostResult := by
  rw [h.same]; exact ⟨⟨rfl, rfl, rfl, rfl, rfl, rfl⟩, rfl⟩

theorem outputUpdate_foc2a (s : State) : fieldRead (outputUpdate s).csr .foc2a = 0 :=
  fieldRead_fieldWrite_same _ _ (by decide)

theorem outputUpdate_com2a (s : State) : fieldRead (outputUpdate s).csr .com2a = fieldRead s.csr .com2a :=
  fieldRead_fieldWrite_ne (by decide) _ _

/-- In the mode "no change" an update leaves the level (R212). -/
theorem outputUpdate_noChange (h : fieldRead s.csr .com2a = 0) : (outputUpdate s).oc2a = s.oc2a := by
  rw [outputUpdate, h]; exact ite_self _

/-- Settles O10: the parts of the `STEP` are the operations named, and its effect is the frame. -/
theorem stepOperation : Obligations.StepOperation := by
  intro s hs hlegal
  obtain ⟨t, ht⟩ := stepTick_total hlegal
  obtain ⟨u₀, u₁, u₂, v, p, hparts⟩ := stepTick_stepParts ht
  have heffect := stepTick_effect ht
  obtain ⟨hprocedures, hresult⟩ := stepEffect_host heffect
  have hmode : fieldRead t.csr .com2a = 0 → t.oc2a = s.oc2a := by
    rw [hparts]
    exact fun h => (outputUpdate_noChange ((outputUpdate_com2a v).symm.trans h)).trans p.output
  refine ⟨u₀, u₁, u₂, v, outputUpdate v, t, betweenOperations_eq_next.mpr ⟨hs, ht⟩, p.operation0, p.operation1,
    p.operation2, p.hook, p.update, hs ▸ hparts, stepTick_tick ht, ?_, ?_, heffect.busctl, heffect.moment.trans hs,
    hmode, heffect.run.bindings, stepEffect_capture heffect, hprocedures, hresult⟩
  · rw [hparts]; exact outputUpdate_oc2aMatch v
  · rw [hparts]; exact outputUpdate_foc2a v

/-- Settles O11: the channels call timer handlers only, the one call after them is the hook's, and the update calls
nothing. -/
theorem hookRunsOncePerTick : Obligations.HookRunsOncePerTick := by
  refine ⟨fun s hs hlegal => ?_, fun s hskip => call_skip hskip⟩
  obtain ⟨t, ht⟩ := stepTick_total hlegal
  obtain ⟨u₀, u₁, u₂, v, p, hparts⟩ := stepTick_stepParts ht
  obtain ⟨cs, hcalls, htimers⟩ := p.effect2.calls
  have hhook : v.calls = u₂.calls ++ [⟨.loop, u₂.tick⟩] := by rw [(call_eq_next p.hook).1]
  refine ⟨t, cs, betweenOperations_eq_next.mpr ⟨hs, ht⟩, ?_, htimers⟩
  rw [hparts]
  exact hhook.trans (by rw [hcalls, p.effect2.tick])

end Step

section Rate

variable {s t : State} {n : Channel}

/-! ### The rate of the counters -/

/-- The divisors of the two tables are 0 or powers of two (R146). -/
theorem divisor_eq_zero_or_two_pow (c : Csrs) (n : Channel) : divisor c n = 0 ∨ ∃ j, divisor c n = 2 ^ j := by
  have h01 : ∀ x : Byte, div01 x = 0 ∨ div01 x ∈ (List.range 11).map (2 ^ ·) := by decide
  have h2 : ∀ x : Byte, div2 x = 0 ∨ div2 x ∈ (List.range 11).map (2 ^ ·) := by decide
  have hmem {d : Nat} : d = 0 ∨ d ∈ (List.range 11).map (2 ^ ·) → d = 0 ∨ ∃ j, d = 2 ^ j :=
    Or.imp_right fun h => (List.mem_map.mp h).imp fun _ hj => hj.2.symm
  cases n with
  | t0 | t1 => exact hmem (h01 _)
  | t2 => exact hmem (h2 _)

/-- The bitmask test is divisibility by the divisor (R146, R148). -/
theorem due_divisor_iff (c : Csrs) (n : Channel) (tick : Nat) :
    due (divisor c n) tick = true ↔ 0 < divisor c n ∧ divisor c n ∣ tick := by
  rcases divisor_eq_zero_or_two_pow c n with h | ⟨j, h⟩
  · simp [due, h]
  · simp [due, h, Nat.and_two_pow_sub_one_eq_mod, Nat.dvd_iff_mod_eq_zero]

/-- The multiples of the divisor up to a tick: one more on a tick that is due. -/
theorem succ_div_divisor (c : Csrs) (n : Channel) (tick : Nat) :
    (tick + 1) / divisor c n = tick / divisor c n + if due (divisor c n) (tick + 1) = true then 1 else 0 := by
  have hiff : due (divisor c n) (tick + 1) = true ↔ divisor c n ∣ tick + 1 :=
    (due_divisor_iff c n _).trans (and_iff_right_of_imp fun h => Nat.pos_of_dvd_of_pos h tick.succ_pos)
  simp only [Nat.succ_div, hiff]

theorem counter_lt (c : Csrs) (n : Channel) : counter c n < channelModulus n := by
  cases n <;> exact BitVec.isLt _

/-- Out of the clearing mode a counter advances by one on a due tick, modulo its width (R148, R160). -/
theorem countOf_eq_mod {c : Csrs} (hn : n = .t2 → wgm2 c ≠ Config.wgm2Ctc) (tick : Nat) :
    countOf c n tick = (counter c n + if due (divisor c n) tick = true then 1 else 0) % channelModulus n := by
  unfold countOf
  split
  · exact if_neg fun h => hn h.1 h.2.2
  · exact (Nat.mod_eq_of_lt (counter_lt c n)).symm

theorem countOf_lt (c : Csrs) (n : Channel) (tick : Nat) : countOf c n tick < channelModulus n := by
  have hpos : 0 < channelModulus n := (Nat.zero_le _).trans_lt (counter_lt c n)
  unfold countOf
  dsimp only
  split
  · split
    · exact hpos
    · exact Nat.mod_lt _ hpos
  · exact counter_lt c n

theorem counter_countedCsrs (c : Csrs) (n : Channel) (tick : Nat) :
    counter (countedCsrs c tick) n = countOf c n tick := by
  cases n <;> exact Nat.mod_eq_of_lt (countOf_lt c _ tick)

theorem divisor_countedCsrs (c : Csrs) (n : Channel) (tick : Nat) :
    divisor (countedCsrs c tick) n = divisor c n := by
  cases n <;> rfl

/-! `OC2A_UPDATE` clears `FOC2A`, which is bit 7 of Timer2's control register (R111, R210). -/

theorem counter_clear_foc2a (c : Csrs) (n : Channel) : counter (fieldWrite c .foc2a 0) n = counter c n := by
  cases n <;> rfl

theorem divisor_clear_foc2a (c : Csrs) (n : Channel) : divisor (fieldWrite c .foc2a 0) n = divisor c n := by
  cases n with
  | t0 | t1 => rfl
  | t2 => exact congrArg div2 (fieldRead_fieldWrite_ne (by decide) c 0)

theorem wgm2_clear_foc2a (c : Csrs) : wgm2 (fieldWrite c .foc2a 0) = wgm2 c := by
  have hbit : ∀ x : Byte, (replaceField 7 1 0 x).extractLsb' 3 1 = x.extractLsb' 3 1 := by decide
  exact congrArg (· ++ c.tccr2a.extractLsb' 0 2) (hbit c.tccr2b)

/-- What a `STEP` does to a channel when the firmware writes no register (R148). -/
structure Counted (n : Channel) (s t : State) : Prop where
  divisor : divisor t.csr n = divisor s.csr n
  wgm2 : wgm2 t.csr = wgm2 s.csr
  counter : counter t.csr n = countOf s.csr n (s.tick + 1)

theorem stepTick_counted (hp : s.fw.passive = true) (h : stepTick s = .next t) (n : Channel) : Counted n s t := by
  obtain ⟨⟨c, hcounted, hcsr, -⟩, -⟩ := stepTick_passive hp h
  constructor
  · rw [hcsr, divisor_clear_foc2a, hcounted.divisor_eq, divisor_countedCsrs]
  · rw [hcsr, wgm2_clear_foc2a, hcounted.wgm2_eq]; rfl
  · rw [hcsr, counter_clear_foc2a, hcounted.counter_eq, counter_countedCsrs]

/-- Over any number of `STEP`s a counter advances by the multiples of its divisor in the ticks passed. -/
theorem stepTimes_counter : ∀ {k : Nat} {s t : State}, s.fw.passive = true →
    (n = .t2 → wgm2 s.csr ≠ Config.wgm2Ctc) → stepTimes k s = .next t →
    divisor t.csr n = divisor s.csr n ∧
    counter t.csr n = (counter s.csr n + ((s.tick + k) / divisor s.csr n - s.tick / divisor s.csr n))
      % channelModulus n
  | 0, s, t, _, _, h => by
    cases h
    exact ⟨rfl, by simp [Nat.mod_eq_of_lt (counter_lt s.csr n)]⟩
  | k + 1, s, t, hp, hn, h => by
    obtain ⟨u, hu, ht⟩ := andThen_eq_next.mp h
    have hstep := stepTick_counted hp hu n
    obtain ⟨hdivisor, hcounter⟩ :=
      stepTimes_counter ((stepTick_effect hu).passive hp) (by rwa [hstep.wgm2]) ht
    refine ⟨hdivisor.trans hstep.divisor, ?_⟩
    have hlater : (s.tick + 1) / divisor s.csr n ≤ (s.tick + 1 + k) / divisor s.csr n :=
      Nat.div_le_div_right (Nat.le_add_right _ _)
    have hfirst := succ_div_divisor s.csr n s.tick
    rw [hcounter, hstep.divisor, hstep.counter, countOf_eq_mod hn, stepTick_tick hu, Nat.mod_add_mod,
      show s.tick + (k + 1) = s.tick + 1 + k by omega]
    congr 1
    omega

theorem stepTimes_total_passive (k : Nat) (hp : s.fw.passive = true) : ∃ t, stepTimes k s = .next t := by
  obtain ⟨t, ht, -⟩ := iterate_total (P := fun s => s.fw.passive = true) (fun s hs =>
    (stepTick_total_passive hs).imp fun _ hu => ⟨hu, (stepTick_effect hu).passive hs⟩) k s hp
  exact ⟨t, ht⟩

/-- Settles O13: by induction on the number of `STEP`s, each counting on the ticks the divisor divides. -/
theorem countingRate : Obligations.CountingRate := by
  refine ⟨fun k s hs hp => ?_, due_divisor_iff⟩
  obtain ⟨t, ht⟩ := stepTimes_total_passive k hp
  exact ⟨t, betweenOperations_eq_next.mpr ⟨hs, ht⟩, stepTimes_tick ht, fun n hn => stepTimes_counter hp hn ht⟩

end Rate

section Update

variable {s t : State} {n : Channel}

/-! ### One output update per tick -/

theorem whenDo_latch {b : Bool} {f : State → Result} (hf : ∀ a c, f a = .next c → c.oc2aMatch = a.oc2aMatch)
    (h : whenDo b f s = .next t) : t.oc2aMatch = s.oc2aMatch :=
  whenDo_effect (R := fun a c => c.oc2aMatch = a.oc2aMatch) (fun _ => rfl) hf h

/-- A tick of a channel sets the latch on a match of Timer2, whatever the handlers do (R171). -/
theorem timerTickOf_latch (h : timerTickOf n s = .next t) :
    t.oc2aMatch = (s.oc2aMatch || (decide (n = .t2) && eventOccurs s ⟨n, .compA⟩)) := by
  obtain ⟨u, h1, h⟩ := andThen_eq_next.mp h
  obtain ⟨v, h2, h3⟩ := andThen_eq_next.mp h
  dsimp only at h1 h2 h3
  have hu : u.oc2aMatch = s.oc2aMatch := (whenDo_latch (fun _ _ => overflowEvent_oc2aMatch) h1 :)
  have ht : t.oc2aMatch = v.oc2aMatch := whenDo_latch (fun _ _ => matchBEvent_oc2aMatch) h3
  have hcompare (k : Nat) : compareA (setCounter s.csr n k) n = compareA s.csr n := by cases n <;> rfl
  have hevent : ((counter s.csr n + 1) % channelModulus n == compareA s.csr n) = eventOccurs s ⟨n, .compA⟩ := rfl
  rw [hcompare, hevent] at h2
  rw [ht, ← hu]
  rcases whenDo_eq_next.mp h2 with ⟨hmatch, ha⟩ | ⟨hmatch, rfl⟩
  · rw [matchAEvent_oc2aMatch ha, hmatch, Bool.and_true]
  · rw [hmatch, Bool.and_false, Bool.or_false]

theorem channelTurn_latch (h : channelTurn n s = .next t) :
    t.oc2aMatch =
      (s.oc2aMatch || (decide (n = .t2) && (due (divisor s.csr n) s.tick && eventOccurs s ⟨n, .compA⟩))) := by
  rcases whenDo_eq_next.mp h with ⟨hdue, htick⟩ | ⟨hdue, rfl⟩
  · rw [timerTickOf_latch htick, hdue, Bool.true_and]
  · rw [hdue, Bool.false_and, Bool.and_false, Bool.or_false]

/-- The latch that the update of a `STEP` finds: as before the tick, or set by Timer2's match on it. -/
theorem StepParts.latch {u₀ u₁ u₂ v : State} (p : StepParts s u₀ u₁ u₂ v) :
    v.oc2aMatch = (s.oc2aMatch || due (divisor u₁.csr .t2) (s.tick + 1) && eventOccurs u₁ ⟨.t2, .compA⟩) := by
  have hhook : v.oc2aMatch = u₂.oc2aMatch := by rw [(call_eq_next p.hook).1]
  have h0 : u₀.oc2aMatch = s.oc2aMatch := by rw [channelTurn_latch p.turn0]; simp
  have h1 : u₁.oc2aMatch = s.oc2aMatch := by rw [channelTurn_latch p.turn1, h0]; simp
  have htick : u₁.tick = s.tick + 1 := p.effect1.tick
  rw [hhook, channelTurn_latch p.turn2, h1, htick]
  simp

/-- The level a `STEP` leaves: one update of the level before it (R210). -/
theorem StepParts.level {u₀ u₁ u₂ v : State} (p : StepParts s u₀ u₁ u₂ v) :
    (outputUpdate v).oc2a =
      if v.oc2aMatch = true ∨ fieldRead v.csr .foc2a = 1 then outputLevel (fieldRead v.csr .com2a) s.oc2a
      else s.oc2a := by
  simp only [outputUpdate, p.output, Bool.or_eq_true, beq_iff_eq]

/-- The level after a `STEP` in which the firmware writes no register. -/
theorem stepTick_level (hp : s.fw.passive = true) (h : stepTick s = .next t) :
    t.oc2a = if (s.oc2aMatch = true ∨ (due (divisor s.csr .t2) (s.tick + 1) = true ∧
          (s.csr.tcnt2.toNat + 1) % 256 = s.csr.ocr2a.toNat)) ∨ fieldRead s.csr .foc2a = 1
        then outputLevel (fieldRead s.csr .com2a) s.oc2a else s.oc2a := by
  rw [(stepTick_passive hp h).2]
  simp only [Bool.or_eq_true, decide_eq_true_eq, beq_iff_eq]
  rfl

/-! A hook that stores a byte in `TCCR2B` (V56). -/

/-- The handlers of a firmware are not the hook. -/
theorem timersPassive_of_loop_skip {fw : Firmware} (h : ({ fw with loop := .skip } : Firmware).passive = true) :
    TimersPassive fw := fun ⟨n, e⟩ => by
  have hstub := Firmware_passive_timers h ⟨n, e⟩
  cases n <;> cases e <;> exact hstub

theorem call_store_tccr2b {w : Nat} (hloop : s.fw.loop = .csrw 0xB1 (.lit w)) (h : call .loop s = .next t) :
    t.csr = { s.csr with tccr2b := BitVec.ofNat 8 w } := by
  obtain ⟨u, hrun, hreturn⟩ := andThen_eq_next.mp h
  rw [show stubOf s.fw .loop = .csrw 0xB1 (.lit w) from hloop] at hrun
  cases hrun
  cases hreturn
  rfl

theorem foc2a_of_bit7 {c : Csrs} (h : c.tccr2b.toNat / 128 % 2 = 1) : fieldRead c .foc2a = 1 := by
  have hbit : ∀ x : Byte, x.toNat / 128 % 2 = 1 → extractField 7 1 x = 1 := by decide
  exact hbit _ h

theorem clear_foc2a_toNat (c : Csrs) : (fieldWrite c .foc2a 0).tccr2b.toNat = c.tccr2b.toNat % 128 := by
  have hbit : ∀ x : Byte, (replaceField 7 1 0 x).toNat = x.toNat % 128 := by decide
  exact hbit _

/-- The hook's forced compare makes one update, match or not, by the mode as it stands (R213 to R215). -/
theorem stepTick_forced {w : Nat} (hw : w < 256) (hbit : w / 128 % 2 = 1) (htimers : TimersPassive s.fw)
    (hloop : s.fw.loop = .csrw 0xB1 (.lit w)) (h : stepTick s = .next t) :
    t.oc2a = outputLevel (fieldRead s.csr .com2a) s.oc2a ∧ t.csr.tccr2b.toNat = w % 128 := by
  obtain ⟨u₀, u₁, u₂, v, p, hparts⟩ := stepTick_stepParts h
  have hcsr := call_store_tccr2b (by rw [p.effect2.fw]; exact hloop) p.hook
  have hbyte : v.csr.tccr2b.toNat = w := by rw [hcsr]; exact Nat.mod_eq_of_lt hw
  have hforced : fieldRead v.csr .foc2a = 1 := foc2a_of_bit7 (by rwa [hbyte])
  have hmode : fieldRead v.csr .com2a = fieldRead s.csr .com2a := by
    rw [hcsr]
    exact (channelTurns_passive htimers p.turn0 p.turn1 p.turn2).1.com2a_eq
  rw [hparts]
  refine ⟨?_, (clear_foc2a_toNat v.csr).trans (by rw [hbyte])⟩
  rw [← hmode]
  exact p.level.trans (if_pos (.inr hforced))

/-- Settles O23: a `STEP` ends in one `OC2A_UPDATE`, by the latch of the tick and by the registers as the hook leaves
them. -/
theorem oneUpdatePerTick : Obligations.OneUpdatePerTick := by
  refine ⟨fun s hs hp hdue hmatch _ => ?_, fun s hs hlegal => ?_, fun w s hw hs hp hloop hbit => ?_,
    fun s hs hp hlatch hfoc hno => ?_⟩
  · obtain ⟨t, ht⟩ := stepTick_total_passive hp
    have hlevel := (stepTick_level hp ht).trans (if_pos (.inl (.inr ⟨hdue, hmatch⟩)))
    exact ⟨t, betweenOperations_eq_next.mpr ⟨hs, ht⟩, hlevel, fun htoggle => by rw [hlevel, htoggle]; rfl⟩
  · obtain ⟨t, ht⟩ := stepTick_total hlegal
    obtain ⟨u₀, u₁, u₂, v, p, hparts⟩ := stepTick_stepParts ht
    refine ⟨u₀, u₁, u₂, v, t, p.operation0, p.operation1, p.operation2, p.hook,
      betweenOperations_eq_next.mpr ⟨hs, ht⟩, ?_⟩
    dsimp only
    rw [hparts, ← p.latch]
    exact p.level
  · have htimers := timersPassive_of_loop_skip hp
    obtain ⟨t, ht⟩ := stepTick_total_timers htimers (by rw [hloop]; rfl)
    exact ⟨t, betweenOperations_eq_next.mpr ⟨hs, ht⟩, stepTick_forced hw hbit htimers hloop ht⟩
  · obtain ⟨t, ht⟩ := stepTick_total_passive hp
    refine ⟨t, betweenOperations_eq_next.mpr ⟨hs, ht⟩, (stepTick_level hp ht).trans (if_neg ?_)⟩
    rcases hno with hnot | hnot <;> simp [hlatch, hfoc, hnot]

end Update

section Completion

variable {s : State} {k : State → Result} {i : Instr}

/-! ### With a legal firmware nothing is refused -/

theorem betweenOperations_total (hs : s.moment = .between) (hk : ∃ t, k s = .next t) :
    ∃ t, betweenOperations s k = .next t := by
  rwa [betweenOperations_between hs]

theorem insideStep_total (hs : s.moment = .step) (hk : ∃ t, k s = .next t) : ∃ t, insideStep s k = .next t := by
  rwa [insideStep_step hs]

/-- Every sub-operation of the block completes inside a `STEP` (R8, log 6). -/
theorem exec_block_total (hi : i.performer = .block) (hs : s.moment = .step) (hlegal : s.fw.legal = true) :
    ∃ t, exec i s = .next t := by
  cases i with
  | timerTick n => exact insideStep_total hs (timerTickOf_total hlegal)
  | overflow n => exact insideStep_total hs (overflowEvent_total hlegal)
  | matchA n => exact insideStep_total hs (matchAEvent_total hlegal)
  | matchB n => exact insideStep_total hs (matchBEvent_total hlegal)
  | dispatch src => exact insideStep_total hs (dispatchSource_total hlegal)
  | oc2aUpdate => exact ⟨_, execOc2aUpdate_inStep hs⟩
  | _ => exact nomatch hi

theorem execFeedAt_total {m : Nat} {l : Bool} (hs : s.moment = .between) (hlegal : s.fw.legal = true) :
    ∃ t, execFeedAt m l s = .next t := by
  obtain ⟨u, hu⟩ := runToTick_total (n := m) hlegal
  rw [execFeedAt_between hs]
  exact andThen_total hu (feedLevel_total ((runToTick_run hu).legal hlegal))

/-- The rows of the status byte that do nothing once the decoder has stopped (R262, log 5). -/
theorem statusRow_total (hs : s.moment = .between) (hk : ∃ t, k s = .next t) :
    ∃ t, (betweenOperations s fun u => unlessStopped u k) = .next t :=
  betweenOperations_total hs (unlessStopped_total hk)

/-- Every well-formed operation of the host completes between two operations (R150, R362); the one whose operands
matter is `CSV_PLAY`, with a record before its origin (R285). -/
theorem exec_host_total (hi : i.performer = .host) (hwf : i.wellFormed = true) (hs : s.moment = .between)
    (hlegal : s.fw.legal = true) : ∃ t, exec i s = .next t := by
  cases i with
  | csvPlay records => exact betweenOperations_total hs (csvPlayAll_total hlegal hwf)
  | wavPlay bytes => exact betweenOperations_total hs (wavPlayAll_total hlegal)
  | sinkRun data => exact betweenOperations_total hs (sinkRunAll_total hlegal)
  | reset => exact betweenOperations_total hs (resetAndBoot_total hlegal)
  | step => exact betweenOperations_total hs (stepTick_total hlegal)
  | steps n => exact betweenOperations_total hs (stepTimes_total hlegal)
  | runTo n => exact betweenOperations_total hs (runToTick_total hlegal)
  | feed l => exact betweenOperations_total hs (feedLevel_total hlegal)
  | feedAt n l => exact execFeedAt_total hs hlegal
  | rd r | busRead r => exact betweenOperations_total hs (busReadOf_total hlegal)
  | wr r v => exact betweenOperations_total hs (busWriteOf_total hlegal)
  | busWrite r => exact betweenOperations_total hs (busWriteOf_total hlegal)
  | poll => exact betweenOperations_total hs (pollOnce_total hlegal)
  | compare b => exact ⟨_, execCompare_between hs b⟩
  | statusFraming | statusParity => exact statusRow_total hs ⟨_, rfl⟩
  | statusByteAvailable => exact statusRow_total hs (receiveByte_total hlegal)
  | statusRoom => exact betweenOperations_total hs (sendNext_total hlegal)
  | _ => exact nomatch hi

/-- Settles O57: by the agent of the operation, each at its own moment. -/
theorem legalFirmwareCompletes : Obligations.LegalFirmwareCompletes := by
  rintro i s hwf (⟨hi, hs⟩ | ⟨hi, hs⟩) hlegal
  · exact exec_host_total hi hwf hs hlegal
  · exact exec_block_total hi hs hlegal

end Completion

end Sys2Proof.Proofs
end

section
/-! PROOFS. Family 41_timer_channel: the events of a channel and `DISPATCH` (O18, O19, O20), a `TIMER_TICK` (O16, O17),
and `STEP`s seen from the channels: stopped (O12), with a flag that nothing dispatches (O21), in the clearing mode
(O14). The nine events are one operation with the source as its parameter, a `DISPATCH` on the state that the event
raises, and a tick is a list of them; what a list of events leaves is shown once, by induction on the list. -/

namespace Sys2Proof.Proofs

open Sys2Proof Sys2Proof.Machine Sys2Proof.Claims

section Registers

/-! ### Registers that a counter or a flag does not share -/

theorem fieldRead_congr {c d : Csrs} {f : CsrField} (h : cellRead c f.pos.cell = cellRead d f.pos.cell) :
    fieldRead c f = fieldRead d f := congrArg (extractField f.pos.lo f.pos.width) h

/-- A flag stands in its channel's flag register (R111). -/
theorem flagField_cell (src : TimerSource) : (flagField src).pos.cell = flagCell src.channel := by
  obtain ⟨n, e⟩ := src
  cases n <;> cases e <;> rfl

theorem flagCell_notMem_counterCells (n m : Channel) : flagCell n ∉ counterCells m := by
  cases n <;> cases m <;> decide

theorem enableField_cell_notMem_counterCells (src : TimerSource) (m : Channel) :
    (enableField src).pos.cell ∉ counterCells m := by
  obtain ⟨n, e⟩ := src
  cases n <;> cases e <;> cases m <;> decide

theorem enableField_cell_ne_flagCell (src : TimerSource) (m : Channel) :
    (enableField src).pos.cell ≠ flagCell m := by
  obtain ⟨n, e⟩ := src
  cases n <;> cases e <;> cases m <;> decide

/-- A counter is a byte, or the two bytes of a 16-bit CSR: setting it leaves every other byte. -/
theorem cellRead_setCounter {cell : CsrCell} {n : Channel} (h : cell ∉ counterCells n) (c : Csrs) (k : Nat) :
    cellRead (setCounter c n k) cell = cellRead c cell := by
  cases n with
  | t0 | t2 => exact cellRead_cellWrite_ne (List.ne_of_not_mem_cons h) c _
  | t1 =>
    obtain ⟨hlow, hhigh⟩ := List.ne_and_not_mem_of_not_mem_cons h
    exact (cellRead_write16 c .tcnt1 _ cell).trans
      ((if_neg hlow).trans (if_neg (List.ne_of_not_mem_cons hhigh)))

theorem flagged_setCounter (c : Csrs) (n : Channel) (k : Nat) (src : TimerSource) :
    flagged (setCounter c n k) src = flagged c src := by
  have hcell : (flagField src).pos.cell ∉ counterCells n := by
    rw [flagField_cell]; exact flagCell_notMem_counterCells _ n
  rw [flagged, flagged, fieldRead_congr (cellRead_setCounter hcell c k)]

theorem enabled_setCounter (c : Csrs) (n : Channel) (k : Nat) (src : TimerSource) :
    enabled (setCounter c n k) src = enabled c src := by
  rw [enabled, enabled, fieldRead_congr (cellRead_setCounter (enableField_cell_notMem_counterCells src n) c k)]

/-- A flag register's bits 7 to 3 are no timer flag (R111). -/
theorem fieldWrite_flag_reserved (c : Csrs) (src : TimerSource) (v : Byte) :
    cellRead (fieldWrite c (flagField src) v) (flagCell src.channel) &&& 0xF8 =
      cellRead c (flagCell src.channel) &&& 0xF8 := by
  have houtside := cellRead_fieldWrite_outside c (flagField src) v
  rw [flagField_cell] at houtside
  have hmask : 0xF8 = ~~~ fieldMask (flagField src).pos.lo (flagField src).pos.width &&& 0xF8 := by
    obtain ⟨n, e⟩ := src
    cases n <;> cases e <;> decide
  rw [hmask, ← BitVec.and_assoc, houtside, BitVec.and_assoc]

end Registers

section Events

variable {s t : State} {src : TimerSource} {n : Channel}

/-! ### `DISPATCH` -/

/-- The call that `DISPATCH` makes, if it makes one (R175). -/
def dispatchCalls (s : State) (src : TimerSource) : List Call :=
  if enabled s.csr src then [⟨.timer src, s.tick⟩] else []

/-- What `DISPATCH` writes, enabled or not. -/
theorem dispatchSource_same (h : dispatchSource src s = .next t) :
    t = { s with csr := t.csr, fwst := t.fwst, calls := s.calls ++ dispatchCalls s src } := by
  unfold dispatchCalls
  rcases dispatchSource_eq_next.mp h with ⟨he, u, hu, rfl⟩ | ⟨he, rfl⟩
  · rw [if_pos he, (call_eq_next hu).1]
  · simp [he]

theorem dispatchSource_of_disabled (he : enabled s.csr src = false) : dispatchSource src s = .next s :=
  dispatchSource_eq_next.mpr (.inr ⟨he, rfl⟩)

/-- The flag after `DISPATCH`: cleared, or as it was. -/
theorem dispatchSource_flagged (h : dispatchSource src s = .next t) :
    flagged t.csr src = if enabled s.csr src then false else flagged s.csr src := by
  rcases dispatchSource_eq_next.mp h with ⟨he, u, -, rfl⟩ | ⟨he, rfl⟩
  · rw [if_pos he]; exact flagged_clear_same u.csr src
  · simp [he]

/-- The registers after a `DISPATCH` whose handler, if it is called, writes none. -/
theorem dispatchSource_quiet (hp : enabled s.csr src = true → (stubOf s.fw (.timer src)).passive = true)
    (h : dispatchSource src s = .next t) :
    t.csr = if enabled s.csr src then clearFlag s.csr src else s.csr := by
  cases he : enabled s.csr src with
  | true => rw [dispatchSource_passive (hp he) h, he]
  | false => rw [dispatchSource_of_disabled he] at h; cases h; rfl

/-- Settles O19: of the state the handler leaves, `DISPATCH` writes the flag. -/
theorem dispatchOperation : Obligations.DispatchOperation := by
  intro src s hs hlegal
  have hexec : exec (.dispatch src) s = dispatchSource src s := insideStep_step hs _
  rw [hexec]
  refine ⟨dispatchSource_of_disabled, fun he => ?_⟩
  obtain ⟨u, hu⟩ := call_total (stubOf_legal hlegal (.timer src))
  refine ⟨u, _, hu, dispatchSource_eq_next.mpr (.inl ⟨he, u, hu, rfl⟩),
    onlyFieldWritten_of_lt (by rw [flag_width]; decide) u, ?_⟩
  rw [(call_eq_next hu).1]

/-! ### An event is a `DISPATCH` on the state it raises -/

/-- The registers as the handler of an event finds them: the flag set, and for a match A of Timer2 in its clearing mode
the counter cleared (R165 to R167, R172). -/
def raisedCsrs (c : Csrs) (src : TimerSource) : Csrs :=
  if src = ⟨.t2, .compA⟩ ∧ wgm2 c = Config.wgm2Ctc then setCounter (setFlag c src) .t2 0 else setFlag c src

/-- The state as the handler of an event finds it: besides the registers, Timer2's latch (R171). -/
def raised (src : TimerSource) (s : State) : State :=
  { s with oc2aMatch := s.oc2aMatch || decide (src = ⟨.t2, .compA⟩), csr := raisedCsrs s.csr src }

/-- The event of a source, of which `OVERFLOW n`, `MATCH n, A` and `MATCH n, B` are the three cases. -/
def timerEvent (src : TimerSource) (s : State) : Result := dispatchSource src (raised src s)

theorem overflowEvent_eq_timerEvent (n : Channel) : overflowEvent n = timerEvent ⟨n, .ovf⟩ := by
  funext s
  simp [overflowEvent, timerEvent, raised, raisedCsrs]

theorem matchBEvent_eq_timerEvent (n : Channel) : matchBEvent n = timerEvent ⟨n, .compB⟩ := by
  funext s
  simp [matchBEvent, timerEvent, raised, raisedCsrs]

theorem matchAEvent_eq_timerEvent (n : Channel) : matchAEvent n = timerEvent ⟨n, .compA⟩ := by
  funext s
  by_cases hn : n = .t2
  · subst hn
    have hmode : wgm2 (setFlag s.csr ⟨.t2, .compA⟩) = wgm2 s.csr := rfl
    simp [matchAEvent, timerEvent, raised, raisedCsrs, matchTimer2, hmode]
  · simp [matchAEvent, timerEvent, raised, raisedCsrs, hn]

theorem exec_eventOperation (hs : s.moment = .step) (src : TimerSource) :
    exec (eventOperation src) s = timerEvent src s := by
  obtain ⟨n, e⟩ := src
  cases e with
  | ovf => exact (insideStep_step hs _).trans (congrFun (overflowEvent_eq_timerEvent n) s)
  | compA => exact (insideStep_step hs _).trans (congrFun (matchAEvent_eq_timerEvent n) s)
  | compB => exact (insideStep_step hs _).trans (congrFun (matchBEvent_eq_timerEvent n) s)

/-! ### The registers after an event -/

theorem flagged_raisedCsrs (c : Csrs) (src b : TimerSource) :
    flagged (raisedCsrs c src) b = (decide (b = src) || flagged c b) := by
  have hset : flagged (setFlag c src) b = (decide (b = src) || flagged c b) := by
    by_cases hb : b = src
    · subst hb; simp [flagged_set_same]
    · simp [hb, flagged_set_ne]
  unfold raisedCsrs
  split
  · rw [flagged_setCounter, hset]
  · exact hset

theorem enabled_raisedCsrs (c : Csrs) (src b : TimerSource) : enabled (raisedCsrs c src) b = enabled c b := by
  unfold raisedCsrs
  split
  · rw [enabled_setCounter, enabled_set]
  · rw [enabled_set]

/-- An event neither sets nor clears an enable bit. -/
theorem enabled_raised (src : TimerSource) (s : State) (b : TimerSource) :
    enabled (raised src s).csr b = enabled s.csr b := enabled_raisedCsrs s.csr src b

/-- The handler of an event finds its flag set (R178). -/
theorem flagged_raised (src : TimerSource) (s : State) : flagged (raised src s).csr src = true :=
  (flagged_raisedCsrs s.csr src src).trans (by simp)

theorem cellRead_raisedCsrs {cell : CsrCell} (hflag : cell ≠ flagCell src.channel)
    (hcount : src = ⟨.t2, .compA⟩ → cell ≠ .tcnt2) (c : Csrs) :
    cellRead (raisedCsrs c src) cell = cellRead c cell := by
  have hset : cellRead (setFlag c src) cell = cellRead c cell :=
    cellRead_fieldWrite_ne (by rwa [flagField_cell]) c 1
  unfold raisedCsrs
  split
  next h => rw [cellRead_setCounter (mt List.mem_singleton.mp (hcount h.1)), hset]
  next => exact hset

theorem tcnt2_raisedCsrs (c : Csrs) (src : TimerSource) : (raisedCsrs c src).tcnt2 =
    if src = ⟨.t2, .compA⟩ ∧ wgm2 c = Config.wgm2Ctc then 0 else c.tcnt2 := by
  unfold raisedCsrs
  split
  · rfl
  · exact setFlag_tcnt2 c src

theorem raisedCsrs_reserved (c : Csrs) (src : TimerSource) :
    cellRead (raisedCsrs c src) (flagCell src.channel) &&& 0xF8 = cellRead c (flagCell src.channel) &&& 0xF8 := by
  unfold raisedCsrs
  split
  · rw [cellRead_setCounter (flagCell_notMem_counterCells _ _)]; exact fieldWrite_flag_reserved c src 1
  · exact fieldWrite_flag_reserved c src 1

/-- What an event does to the registers if its handler, where it is called, writes none. -/
structure QuietEvent (src : TimerSource) (c d : Csrs) : Prop where
  flags : ∀ b, flagged d b = if b = src then !enabled c src else flagged c b
  enables : ∀ b, enabled d b = enabled c b
  cells : ∀ cell, cell ≠ flagCell src.channel → (src = ⟨.t2, .compA⟩ → cell ≠ .tcnt2) →
    cellRead d cell = cellRead c cell
  tcnt2 : d.tcnt2 = if src = ⟨.t2, .compA⟩ ∧ wgm2 c = Config.wgm2Ctc then 0 else c.tcnt2
  reserved : cellRead d (flagCell src.channel) &&& 0xF8 = cellRead c (flagCell src.channel) &&& 0xF8

theorem quietEvent_raisedCsrs {c : Csrs} (he : enabled c src = false) : QuietEvent src c (raisedCsrs c src) where
  flags b := by
    rw [flagged_raisedCsrs, he]
    by_cases hb : b = src <;> simp [hb]
  enables := enabled_raisedCsrs c src
  cells _ hflag hcount := cellRead_raisedCsrs hflag hcount c
  tcnt2 := tcnt2_raisedCsrs c src
  reserved := raisedCsrs_reserved c src

theorem quietEvent_clearFlag {c : Csrs} (he : enabled c src = true) :
    QuietEvent src c (clearFlag (raisedCsrs c src) src) where
  flags b := by
    by_cases hb : b = src
    · subst hb; rw [flagged_clear_same, if_pos rfl, he]; rfl
    · rw [flagged_clear_ne _ hb, flagged_raisedCsrs]; simp [hb]
  enables b := by
    rw [← enabled_raisedCsrs c src b, enabled, clearFlag, fieldRead_fieldWrite_ne (enableField_ne b src), enabled]
  cells cell hflag hcount := by
    rw [clearFlag, cellRead_fieldWrite_ne (by rwa [flagField_cell]), cellRead_raisedCsrs hflag hcount]
  tcnt2 := (clearFlag_tcnt2 _ src).trans (tcnt2_raisedCsrs c src)
  reserved := (fieldWrite_flag_reserved _ src 0).trans (raisedCsrs_reserved c src)

theorem timerEvent_quiet (hp : enabled s.csr src = true → (stubOf s.fw (.timer src)).passive = true)
    (h : timerEvent src s = .next t) : QuietEvent src s.csr t.csr := by
  rw [dispatchSource_quiet (by rwa [enabled_raised]) h, enabled_raised]
  split
  next he => exact quietEvent_clearFlag he
  next he => exact quietEvent_raisedCsrs (by simpa using he)

/-- What an event writes, whatever its handler does. -/
theorem timerEvent_same (h : timerEvent src s = .next t) :
    t = { s with
      csr := t.csr, fwst := t.fwst, calls := s.calls ++ dispatchCalls s src
      oc2aMatch := s.oc2aMatch || decide (src = ⟨.t2, .compA⟩) } := by
  have hcalls : dispatchCalls (raised src s) src = dispatchCalls s src := by
    unfold dispatchCalls
    rw [enabled_raised]
    rfl
  have hsame := dispatchSource_same h
  rwa [hcalls] at hsame

theorem timerEvent_flagged (h : timerEvent src s = .next t) : flagged t.csr src = !enabled s.csr src := by
  rw [dispatchSource_flagged h, flagged_raised, enabled_raised]
  cases enabled s.csr src <;> rfl

theorem timerEvent_of_disabled (he : enabled s.csr src = false) : timerEvent src s = .next (raised src s) :=
  dispatchSource_of_disabled ((enabled_raised src s src).trans he)

theorem raised_busctl (src : TimerSource) (s : State) : (raised src s).csr.busctl = s.csr.busctl := by
  show (raisedCsrs s.csr src).busctl = s.csr.busctl
  unfold raisedCsrs
  split <;> simp

theorem timerEvent_busctl (h : timerEvent src s = .next t) : t.csr.busctl = s.csr.busctl :=
  (dispatchSource_effect h).busctl.trans (raised_busctl src s)

/-- Settles O18: the nine events are one, a `DISPATCH` on the state raised. -/
theorem eventSetsFlagAndDispatches : Obligations.EventSetsFlagAndDispatches := by
  intro src s hs hlegal
  obtain ⟨t, ht⟩ : ∃ t, timerEvent src s = .next t := dispatchSource_total hlegal
  have hdispatch : exec (.dispatch src) (raised src s) = .next t := insideStep_eq_next.mpr ⟨hs, ht⟩
  have hsame := timerEvent_same ht
  refine ⟨t, (exec_eventOperation hs src).trans ht, hdispatch, timerEvent_flagged ht, ?_, by rw [hsame],
    fun hquiet => ?_, fun he => ?_, by rw [hsame], by rw [hsame], by rw [hsame]; exact hs, timerEvent_busctl ht, ?_⟩
  · rw [hsame, dispatchCalls]
    cases enabled s.csr src <;> simp
  · have hevent := timerEvent_quiet (fun he => hquiet.resolve_left (by simp [he])) ht
    refine ⟨hevent.cells, fun e he => ?_, hevent.tcnt2⟩
    exact (hevent.flags _).trans (if_neg fun h => he (congrArg TimerSource.event h))
  · rw [timerEvent_of_disabled he] at ht
    cases ht
    rfl
  · rw [hsame]; exact ⟨⟨rfl, rfl, rfl, rfl⟩, ⟨rfl, rfl⟩, ⟨rfl, rfl, rfl, rfl, rfl, rfl⟩, rfl⟩

/-! ### A handler that reads a register -/

/-- An event whose handler reads one byte: the handler finds it as the event raised it. -/
theorem timerEvent_csrr {cell : CsrCell} (he : enabled s.csr src = true)
    (hstub : stubOf s.fw (.timer src) = .csrr cell.address) :
    ∃ t, timerEvent src s = .next t ∧ t.fwst.lastRead = (cellRead (raised src s).csr cell).setWidth 16 := by
  have hrun : runStub (stubOf (raised src s).fw (.timer src)) = csrRead8 cell.address :=
    (congrArg runStub hstub :)
  have hread := (csrRead8_eq_next (s := enterCallback (.timer src) (raised src s))).mpr
    ⟨cell, csrAt_address cell, rfl⟩
  have hcall : call (.timer src) (raised src s) = .next _ := andThen_eq_next.mpr ⟨_, hrun ▸ hread, rfl⟩
  exact ⟨_, dispatchSource_eq_next.mpr (.inl ⟨(enabled_raised src s src).trans he, _, hcall, rfl⟩), rfl⟩

/-- A flag read through its register is the flag. -/
theorem extractField_flag (c : Csrs) (src : TimerSource) (h : flagged c src = true) :
    extractField (flagField src).pos.lo 1 (((cellRead c (flagField src).pos.cell).setWidth 16).setWidth 8) = 1 := by
  have hfield : fieldRead c (flagField src) = 1 := by simpa [flagged] using h
  rw [fieldRead, flag_width] at hfield
  rw [BitVec.setWidth_setWidth_of_le _ (by decide), BitVec.setWidth_eq]
  exact hfield

/-- Settles O20: what the handler reads is the register as the event raised it; `0xB2` is the address of `TCNT2`. -/
theorem handlerSeesItsEvent : Obligations.HandlerSeesItsEvent := by
  refine ⟨fun src s hs he hstub => ?_, fun s hs he hmode hstub => ?_⟩
  · obtain ⟨t, ht, hread⟩ := timerEvent_csrr he hstub
    refine ⟨t, (exec_eventOperation hs src).trans ht, ?_, by rw [timerEvent_flagged ht, he]; rfl⟩
    rw [hread]
    exact extractField_flag _ src (flagged_raised src s)
  · obtain ⟨t, ht, hread⟩ := timerEvent_csrr (src := ⟨.t2, .compA⟩) (cell := .tcnt2) he hstub
    refine ⟨t, (exec_eventOperation hs ⟨.t2, .compA⟩).trans ht, ?_⟩
    have hcleared : (raised ⟨.t2, .compA⟩ s).csr.tcnt2 = 0 := (tcnt2_raisedCsrs s.csr _).trans (if_pos ⟨rfl, hmode⟩)
    rw [hread, cellRead, hcleared]
    rfl

end Events

section Tick

variable {s t : State} {n : Channel} {occurs : Event → Bool} {es : List Event} {c d : Csrs}

/-! ### A `TIMER_TICK` is the count, then a list of events -/

/-- The state after the count of a tick (R160). -/
def counted (n : Channel) (s : State) : State :=
  { s with csr := setCounter s.csr n ((counter s.csr n + 1) % channelModulus n) }

/-- The events of a channel in the order of a list, each if it occurs (R163). -/
def raiseEvents (n : Channel) (occurs : Event → Bool) : List Event → State → Result
  | [], s => .next s
  | e :: es, s => andThen (whenDo (occurs e) (timerEvent ⟨n, e⟩) s) (raiseEvents n occurs es)

theorem counter_eq_last_iff (c : Csrs) (n : Channel) :
    (counter c n == channelModulus n - 1) = (counter c n + 1 == channelModulus n) := by
  have hlt := counter_lt c n
  rw [Bool.eq_iff_iff, beq_iff_eq, beq_iff_eq]
  omega

/-- The conditions are one snapshot of the state before the tick: the count writes no compare register (R162). -/
theorem timerTickOf_eq_raiseEvents (n : Channel) (s : State) :
    timerTickOf n s =
      raiseEvents n (fun e => eventOccurs s ⟨n, e⟩) [.ovf, .compA, .compB] (counted n s) := by
  have hA (k : Nat) : compareA (setCounter s.csr n k) n = compareA s.csr n := by cases n <;> rfl
  have hB (k : Nat) : compareB (setCounter s.csr n k) n = compareB s.csr n := by cases n <;> rfl
  have hlast (o : Result) : andThen o (fun s => .next s) = o := by cases o <;> rfl
  simp only [timerTickOf, raiseEvents, hA, hB, hlast, counter_eq_last_iff, overflowEvent_eq_timerEvent,
    matchAEvent_eq_timerEvent, matchBEvent_eq_timerEvent]
  rfl

/-- An event of a tick, as the sub-operation inside the `STEP`. -/
theorem performedIf_timerEvent {src : TimerSource} {b : Bool} (hs : s.moment = .step)
    (h : whenDo b (timerEvent src) s = .next t) : PerformedIf b (eventOperation src) s t ∧ t.moment = .step := by
  unfold PerformedIf
  rcases whenDo_eq_next.mp h with ⟨rfl, h⟩ | ⟨rfl, rfl⟩
  · exact ⟨(exec_eventOperation hs src).trans h, by rw [timerEvent_same h]; exact hs⟩
  · exact ⟨rfl, hs⟩

/-- Whatever the handlers do, each event calls its handler at most once, in the order of the list (R163). -/
theorem raiseEvents_calls (h : raiseEvents n occurs es s = .next t) :
    ∃ cs, t.calls = s.calls ++ cs ∧ cs.Sublist (es.map fun e => ⟨.timer ⟨n, e⟩, s.tick⟩) := by
  induction es generalizing s with
  | nil => cases h; exact ⟨[], by simp, .slnil⟩
  | cons e es ih =>
    obtain ⟨u, hu, hrest⟩ := andThen_eq_next.mp h
    obtain ⟨cs, hcalls, hsub⟩ := ih hrest
    rcases whenDo_eq_next.mp hu with ⟨-, hevent⟩ | ⟨-, rfl⟩
    · rw [timerEvent_same hevent] at hcalls hsub
      refine ⟨dispatchCalls s ⟨n, e⟩ ++ cs, by rw [hcalls, List.append_assoc], ?_⟩
      unfold dispatchCalls
      split
      · exact hsub.cons_cons _
      · exact hsub.cons _
    · exact ⟨cs, hcalls, hsub.cons _⟩

/-! ### Events whose handlers write no register -/

/-- What the events of a list do to the registers if the handlers called write none. -/
structure QuietEvents (n : Channel) (occurs : Event → Bool) (es : List Event) (c d : Csrs) : Prop where
  flags : ∀ e, flagged d ⟨n, e⟩ =
    if e ∈ es ∧ occurs e = true then !enabled c ⟨n, e⟩ else flagged c ⟨n, e⟩
  cells : ∀ cell, cell ≠ flagCell n → (n = .t2 → cell ≠ .tcnt2) → cellRead d cell = cellRead c cell
  tcnt2 : d.tcnt2 =
    if n = .t2 ∧ (.compA ∈ es ∧ occurs .compA = true) ∧ wgm2 c = Config.wgm2Ctc then 0 else c.tcnt2
  reserved : cellRead d (flagCell n) &&& 0xF8 = cellRead c (flagCell n) &&& 0xF8

theorem QuietEvents.nil (n : Channel) (occurs : Event → Bool) (c : Csrs) : QuietEvents n occurs [] c c where
  flags _ := by simp
  cells _ _ _ := rfl
  tcnt2 := by simp
  reserved := rfl

theorem QuietEvents.cons_of_not {e : Event} (he : occurs e = false) (h : QuietEvents n occurs es c d) :
    QuietEvents n occurs (e :: es) c d where
  flags f := by
    have hmem : (f ∈ e :: es ∧ occurs f = true) ↔ (f ∈ es ∧ occurs f = true) := by
      by_cases hf : f = e <;> simp [hf, he]
    simp only [h.flags f, hmem]
  cells := h.cells
  tcnt2 := by
    have hmem : (.compA ∈ e :: es ∧ occurs .compA = true) ↔ (.compA ∈ es ∧ occurs .compA = true) := by
      by_cases hf : .compA = e <;> simp [hf, he]
    simp only [h.tcnt2, hmem]
  reserved := h.reserved

theorem QuietEvent.wgm2_eq {src : TimerSource} (h : QuietEvent src c d) : wgm2 d = wgm2 c := by
  have hne (m : Channel) : flagCell m ≠ .tccr2a ∧ flagCell m ≠ .tccr2b := by cases m <;> decide
  have ha : d.tccr2a = c.tccr2a := h.cells .tccr2a (hne _).1.symm (by simp)
  have hb : d.tccr2b = c.tccr2b := h.cells .tccr2b (hne _).2.symm (by simp)
  rw [wgm2, wgm2, ha, hb]

theorem QuietEvents.cons {e : Event} {b : Csrs} (he : occurs e = true) (h : QuietEvent ⟨n, e⟩ c b)
    (hs : QuietEvents n occurs es b d) : QuietEvents n occurs (e :: es) c d where
  flags f := by
    rw [hs.flags, h.flags, h.enables]
    by_cases hf : f = e
    · subst hf; simp [he]
    · simp [hf]
  cells cell hflag hcount :=
    (hs.cells cell hflag hcount).trans (h.cells cell hflag fun hsrc => hcount (congrArg TimerSource.channel hsrc))
  tcnt2 := by
    rw [hs.tcnt2, h.tcnt2, h.wgm2_eq]
    by_cases hA : e = .compA
    · subst hA
      by_cases hn : n = .t2 <;> by_cases hmode : wgm2 c = Config.wgm2Ctc <;> simp [hn, hmode, he]
    · simp [hA, Ne.symm hA]
  reserved := hs.reserved.trans h.reserved

/-- The counters are the bytes of the space that hold them (R81, R86). -/
theorem QuietEvents.counter (h : QuietEvents n occurs es c d) : counter d n =
    if n = .t2 ∧ (.compA ∈ es ∧ occurs .compA = true) ∧ wgm2 c = Config.wgm2Ctc then 0 else counter c n := by
  cases n with
  | t0 => exact congrArg BitVec.toNat (h.cells .tcnt0 (by decide) (by decide))
  | t1 =>
    have hword : read16 d .tcnt1 = read16 c .tcnt1 := by
      rw [read16_eq_append, read16_eq_append, h.cells (highCell .tcnt1) (by decide) (by decide),
        h.cells (lowCell .tcnt1) (by decide) (by decide)]
    exact congrArg BitVec.toNat hword
  | t2 => exact (congrArg BitVec.toNat h.tcnt2).trans (apply_ite BitVec.toNat _ _ _)

/-- The events of a list whose handlers, where they are called, write no register: the registers, and the calls. -/
theorem raiseEvents_quiet
    (hp : ∀ e, enabled s.csr ⟨n, e⟩ = true → (stubOf s.fw (.timer ⟨n, e⟩)).passive = true)
    (h : raiseEvents n occurs es s = .next t) :
    QuietEvents n occurs es s.csr t.csr ∧
      t.calls = s.calls ++ (es.filter fun e => occurs e && enabled s.csr ⟨n, e⟩).map
        fun e => ⟨.timer ⟨n, e⟩, s.tick⟩ := by
  induction es generalizing s with
  | nil => cases h; exact ⟨.nil n occurs _, by simp⟩
  | cons e es ih =>
    obtain ⟨u, hu, hrest⟩ := andThen_eq_next.mp h
    rcases whenDo_eq_next.mp hu with ⟨he, hevent⟩ | ⟨he, rfl⟩
    · have hquiet := timerEvent_quiet (hp e) hevent
      have hsame := timerEvent_same hevent
      have hfw : u.fw = s.fw := by rw [hsame]
      have htick : u.tick = s.tick := by rw [hsame]
      have hcall : u.calls = s.calls ++ dispatchCalls s ⟨n, e⟩ := by rw [hsame]
      obtain ⟨hevents, hcalls⟩ := ih (by simpa only [hquiet.enables, hfw] using hp) hrest
      refine ⟨hevents.cons he hquiet, ?_⟩
      simp only [hcalls, hcall, hquiet.enables, htick, dispatchCalls]
      cases hen : enabled s.csr ⟨n, e⟩ <;> simp [he, hen]
    · obtain ⟨hevents, hcalls⟩ := ih hp hrest
      exact ⟨hevents.cons_of_not he, by rw [hcalls]; simp [he]⟩

/-- Events of which none is enabled complete with any firmware, and write registers and the latch only. -/
theorem raiseEvents_of_disabled (occurs : Event → Bool) (es : List Event)
    (he : ∀ e, enabled s.csr ⟨n, e⟩ = false) :
    ∃ t, raiseEvents n occurs es s = .next t ∧ t = { s with csr := t.csr, oc2aMatch := t.oc2aMatch } := by
  induction es generalizing s with
  | nil => exact ⟨s, rfl, rfl⟩
  | cons e es ih =>
    cases hocc : occurs e with
    | true =>
      obtain ⟨t, ht, hsame⟩ := ih (s := raised ⟨n, e⟩ s) fun f => (enabled_raised _ s _).trans (he f)
      refine ⟨t, ?_, hsame⟩
      rw [raiseEvents, hocc, whenDo_true, timerEvent_of_disabled (he e), andThen_next, ht]
    | false =>
      obtain ⟨t, ht, hsame⟩ := ih he
      exact ⟨t, by rw [raiseEvents, hocc, whenDo_false, andThen_next, ht], hsame⟩

theorem enabled_counted (n : Channel) (s : State) (src : TimerSource) :
    enabled (counted n s).csr src = enabled s.csr src := enabled_setCounter _ _ _ _

theorem flagged_counted (n : Channel) (s : State) (src : TimerSource) :
    flagged (counted n s).csr src = flagged s.csr src := flagged_setCounter _ _ _ _

theorem counter_counted (n : Channel) (s : State) :
    counter (counted n s).csr n = (counter s.csr n + 1) % channelModulus n := by
  cases n <;> exact Nat.mod_mod _ _

theorem wgm2_counted (n : Channel) (s : State) : wgm2 (counted n s).csr = wgm2 s.csr := by
  cases n <;> rfl

theorem tcnt2_mem_counterCells : n = .t2 → .tcnt2 ∈ counterCells n := by rintro rfl; decide

/-- Settles O16: the events of the tick, none of them dispatched, on the registers as counted. -/
theorem timerTickUndispatched : Obligations.TimerTickUndispatched := by
  intro n s hs he
  have hdisabled (e : Event) : enabled (counted n s).csr ⟨n, e⟩ = false := (enabled_counted n s _).trans (he e)
  obtain ⟨t, ht, hsame⟩ := raiseEvents_of_disabled (fun e => eventOccurs s ⟨n, e⟩) [.ovf, .compA, .compB] hdisabled
  have htick : timerTickOf n s = .next t := (timerTickOf_eq_raiseEvents n s).trans ht
  obtain ⟨hquiet, -⟩ := raiseEvents_quiet (fun e h => absurd h (by simp [hdisabled e])) ht
  have hflag (e : Event) (hmem : e ∈ [Event.ovf, .compA, .compB]) :
      flagged t.csr ⟨n, e⟩ = (flagged s.csr ⟨n, e⟩ || eventOccurs s ⟨n, e⟩) := by
    rw [hquiet.flags, hdisabled, flagged_counted]
    cases eventOccurs s ⟨n, e⟩ <;> simp [hmem]
  refine ⟨t, insideStep_eq_next.mpr ⟨hs, htick⟩, ?_, hflag .ovf (by simp), hflag .compA (by simp),
    hflag .compB (by simp), ?_, hquiet.reserved.trans ?_, fun cell hcell hcount => ?_, hsame⟩
  · rw [hquiet.counter, wgm2_counted, counter_counted]
    simp [eventOccurs]
  · rw [timerTickOf_latch htick, Bool.decide_and]
    rfl
  · exact congrArg (· &&& 0xF8) (cellRead_setCounter (flagCell_notMem_counterCells n n) _ _)
  · exact (hquiet.cells cell hcell fun hn h => hcount (h ▸ tcnt2_mem_counterCells hn)).trans
      (cellRead_setCounter hcount _ _)

/-- Settles O17: the tick taken apart into its three events; with handlers that write no register it is the list of
events. -/
theorem timerTickOperation : Obligations.TimerTickOperation := by
  intro n s hs hlegal
  obtain ⟨t, htick⟩ := timerTickOf_total (n := n) hlegal
  have hevents := (timerTickOf_eq_raiseEvents n s).symm.trans htick
  obtain ⟨u, hu, hrest⟩ := andThen_eq_next.mp hevents
  obtain ⟨v, hv, hrest⟩ := andThen_eq_next.mp hrest
  obtain ⟨w, hw, hlast⟩ := andThen_eq_next.mp hrest
  cases hlast
  obtain ⟨hovf, hu⟩ := performedIf_timerEvent (s := counted n s) hs hu
  obtain ⟨hcompA, hv⟩ := performedIf_timerEvent hu hv
  obtain ⟨hcompB, ht⟩ := performedIf_timerEvent hv hw
  obtain ⟨cs, hcalls, hsub⟩ := raiseEvents_calls hevents
  have heffect := timerTickOf_effect htick
  refine ⟨u, v, t, cs, insideStep_eq_next.mpr ⟨hs, htick⟩, hovf, hcompA, hcompB, hcalls, hsub, fun hp => ?_,
    timerTickOf_latch htick, heffect.tick, by rw [heffect.same], ht, heffect.busctl, ?_⟩
  · obtain ⟨hquiet, hexact⟩ := raiseEvents_quiet (s := counted n s)
      (fun e he => hp e ((enabled_counted n s ⟨n, e⟩).symm.trans he)) hevents
    refine ⟨?_, fun e => ?_⟩
    · rw [List.append_cancel_left (hcalls.symm.trans hexact)]
      simp only [enabled_counted]
      rfl
    · have hmem : e ∈ [Event.ovf, .compA, .compB] := by cases e <;> simp
      rw [hquiet.flags, enabled_counted, flagged_counted]
      simp only [hmem, true_and]
  · rw [heffect.same]; exact ⟨⟨rfl, rfl, rfl, rfl⟩, ⟨rfl, rfl⟩, ⟨rfl, rfl, rfl, rfl, rfl, rfl⟩, rfl⟩

end Tick

section Steps

variable {s t : State} {n : Channel}

/-! ### `STEP`s with every channel stopped -/

theorem channelTurn_stopped (h : channelTurn n s = .next t) (hstop : divisor s.csr n = 0) : t = s := by
  rw [channelTurn, hstop] at h
  cases h
  rfl

/-- A `STEP` with every channel stopped is the hook, one tick later, and the update (R140, R177). -/
theorem stepTick_stopped (hstop : ∀ n, divisor s.csr n = 0) (h : stepTick s = .next t) :
    ∃ v, call .loop { s with moment := .step, tick := s.tick + 1 } = .next v ∧
      t = { outputUpdate v with moment := s.moment } := by
  obtain ⟨u₀, u₁, u₂, v, p, ht⟩ := stepTick_stepParts h
  obtain rfl := channelTurn_stopped p.turn0 (hstop .t0)
  obtain rfl := channelTurn_stopped p.turn1 (hstop .t1)
  obtain rfl := channelTurn_stopped p.turn2 (hstop .t2)
  exact ⟨v, p.hook, ht⟩

/-- With no request pending an update changes nothing (R210, R216). -/
theorem outputUpdate_idle (hlatch : s.oc2aMatch = false) (hforced : fieldRead s.csr .foc2a = 0) :
    outputUpdate s = s := by
  have hcsr : fieldWrite s.csr .foc2a 0 = s.csr := by rw [← hforced]; exact fieldWrite_fieldRead s.csr .foc2a
  have hlevel : (outputUpdate s).oc2a = s.oc2a := by simp [outputUpdate, hlatch, hforced]
  calc outputUpdate s
    _ = { s with oc2aMatch := false, csr := fieldWrite s.csr .foc2a 0, oc2a := (outputUpdate s).oc2a } := rfl
    _ = s := by rw [hcsr, hlevel, ← hlatch]

/-- Settles O12: what is left of the `STEP` is the hook, and an update that has nothing to do. -/
theorem stoppedTimersCallNothing : Obligations.StoppedTimersCallNothing := by
  intro s hs hlegal hstop
  obtain ⟨t, ht⟩ := stepTick_total hlegal
  obtain ⟨v, hhook, hparts⟩ := stepTick_stopped hstop ht
  have hv := (call_eq_next hhook).1
  refine ⟨t, betweenOperations_eq_next.mpr ⟨hs, ht⟩, ?_, fun hp hlatch hforced => ?_⟩
  · rw [hparts]
    exact congrArg State.calls hv
  · have hcsr : v.csr = s.csr := (call_passive_csr hhook hp :)
    rw [outputUpdate_idle (by rw [hv]; exact hlatch) (by rwa [hcsr])] at hparts
    rw [hparts, hv, hcsr]

/-! ### A flag that nothing dispatches -/

/-- A source with its flag set and its enable bit 0, and a firmware that writes no register. -/
structure Pending (src : TimerSource) (s : State) : Prop where
  passive : s.fw.passive = true
  disabled : enabled s.csr src = false
  flagged : flagged s.csr src = true

theorem enabled_countedCsrs (c : Csrs) (tick : Nat) (src : TimerSource) :
    enabled (countedCsrs c tick) src = enabled c src := by
  rw [countedCsrs, enabled_setCounter, enabled_setCounter, enabled_setCounter]

/-- A flag or an enable of a timer is not `FOC2A`. -/
theorem foc2a_ne (src : TimerSource) : enableField src ≠ .foc2a ∧ flagField src ≠ .foc2a := by
  obtain ⟨n, e⟩ := src
  cases n <;> cases e <;> decide

/-- A `STEP` leaves a flag that nothing dispatches (R176). -/
theorem stepTick_pending {src : TimerSource} (hpending : Pending src s) (h : stepTick s = .next t) : Pending src t := by
  obtain ⟨hpassive, hdisabled, hflagged⟩ := hpending
  obtain ⟨⟨c, hcounted, hcsr, hsticky⟩, -⟩ := stepTick_passive hpassive h
  refine ⟨(stepTick_effect h).passive hpassive, ?_, ?_⟩
  · rw [hcsr, enabled, fieldRead_fieldWrite_ne (foc2a_ne src).1]
    exact (hcounted.enabled_eq src).trans ((enabled_countedCsrs s.csr _ src).trans hdisabled)
  · rw [hcsr, flagged, fieldRead_fieldWrite_ne (foc2a_ne src).2]
    exact hsticky src hdisabled hflagged

/-- Settles O21: each `STEP` completes and leaves the flag pending. -/
theorem stickyFlags : Obligations.StickyFlags := by
  intro k s src hs hpassive hdisabled hflagged
  obtain ⟨t, ht, hpending⟩ := iterate_total (P := Pending src)
    (fun u hu => (stepTick_total_passive hu.passive).imp fun _ h => ⟨h, stepTick_pending hu h⟩)
    k s ⟨hpassive, hdisabled, hflagged⟩
  exact ⟨t, betweenOperations_eq_next.mpr ⟨hs, ht⟩, hpending.flagged⟩

/-! ### Timer2 in its clearing mode -/

/-- The period of the clearing mode: `OCR2A` counts, or all 256 where `OCR2A` is 0 (R173). -/
def ctcPeriod (c : Csrs) : Nat := if c.ocr2a = 0 then 256 else c.ocr2a.toNat

/-- Timer2 clears on a match, which toggles the output; no request is pending, and the firmware writes no register. -/
structure SquareWave (s : State) : Prop where
  passive : s.fw.passive = true
  mode : wgm2 s.csr = Config.wgm2Ctc
  toggle : fieldRead s.csr .com2a = 1
  unforced : fieldRead s.csr .foc2a = 0
  latch : s.oc2aMatch = false
  inPeriod : s.csr.tcnt2.toNat < ctcPeriod s.csr

/-- Inside the period a count matches exactly at its end (R161, R173). -/
theorem match_iff_period_end {c : Csrs} (h : c.tcnt2.toNat < ctcPeriod c) :
    (c.tcnt2.toNat + 1) % 256 = c.ocr2a.toNat ↔ c.tcnt2.toNat + 1 = ctcPeriod c := by
  have hcompare := c.ocr2a.isLt
  unfold ctcPeriod at h ⊢
  split at h
  next hzero =>
    rw [if_pos hzero, hzero]
    have h0 : (0 : Byte).toNat = 0 := rfl
    omega
  next hzero => rw [if_neg hzero]; omega

theorem ctcPeriod_le (c : Csrs) : ctcPeriod c ≤ 256 := by
  unfold ctcPeriod
  split
  · exact le_rfl
  · exact c.ocr2a.isLt.le

/-- What a tick counts on Timer2: 1 where it is due. -/
def dueCount (c : Csrs) (tick : Nat) : Nat := if due (divisor c .t2) tick = true then 1 else 0

/-- In its clearing mode Timer2 counts modulo its period (R172, R173). -/
theorem countOf_clearing {c : Csrs} (hmode : wgm2 c = Config.wgm2Ctc) (hin : c.tcnt2.toNat < ctcPeriod c)
    (tick : Nat) : countOf c .t2 tick = (c.tcnt2.toNat + dueCount c tick) % ctcPeriod c := by
  have hend := match_iff_period_end hin
  have hle := ctcPeriod_le c
  unfold countOf dueCount
  split
  next =>
    show (if Channel.t2 = .t2 ∧ (c.tcnt2.toNat + 1) % 256 = c.ocr2a.toNat ∧ wgm2 c = Config.wgm2Ctc then 0
      else (c.tcnt2.toNat + 1) % 256) = _
    by_cases hlast : c.tcnt2.toNat + 1 = ctcPeriod c
    · rw [if_pos ⟨rfl, hend.mpr hlast, hmode⟩, hlast, Nat.mod_self]
    · rw [if_neg fun h => hlast (hend.mp h.2.1), Nat.mod_eq_of_lt (by omega), Nat.mod_eq_of_lt (by omega)]
  next => exact (Nat.mod_eq_of_lt hin).symm

/-- A count comes round where it is due at the end of the period. -/
theorem comesRound_iff {c : Csrs} (hin : c.tcnt2.toNat < ctcPeriod c) (tick : Nat) :
    (c.tcnt2.toNat + dueCount c tick) / ctcPeriod c % 2 = 1 ↔
      due (divisor c .t2) tick = true ∧ (c.tcnt2.toNat + 1) % 256 = c.ocr2a.toNat := by
  rw [match_iff_period_end hin]
  unfold dueCount
  split
  next hdue =>
    by_cases hlast : c.tcnt2.toNat + 1 = ctcPeriod c
    · simp [hdue, hlast, Nat.div_self (Nat.zero_lt_of_lt hin)]
    · simp [hlast, Nat.div_eq_of_lt (show c.tcnt2.toNat + 1 < ctcPeriod c by omega)]
  next hdue => simp [hdue, Nat.div_eq_of_lt hin]

/-- A `STEP` of the square wave: the counter goes round in its period, and the output turns where it comes round. -/
theorem stepTick_turns (hw : SquareWave s) (h : stepTick s = .next t) :
    t.csr.tcnt2.toNat = (s.csr.tcnt2.toNat + dueCount s.csr (s.tick + 1)) % ctcPeriod s.csr ∧
    t.oc2a = (s.oc2a ^^ decide ((s.csr.tcnt2.toNat + dueCount s.csr (s.tick + 1)) / ctcPeriod s.csr % 2 = 1)) := by
  constructor
  · exact (stepTick_counted hw.passive h .t2).counter.trans (countOf_clearing hw.mode hw.inPeriod _)
  · rw [stepTick_level hw.passive h, hw.toggle, hw.latch, hw.unforced]
    by_cases hturns : due (divisor s.csr .t2) (s.tick + 1) = true ∧ (s.csr.tcnt2.toNat + 1) % 256 = s.csr.ocr2a.toNat
    · simp [comesRound_iff hw.inPeriod, hturns, outputLevel]
    · simp [comesRound_iff hw.inPeriod, hturns]

/-- The square wave goes on, with the same period and divisor. -/
theorem stepTick_squareWave (hw : SquareWave s) (h : stepTick s = .next t) :
    SquareWave t ∧ ctcPeriod t.csr = ctcPeriod s.csr ∧ divisor t.csr .t2 = divisor s.csr .t2 := by
  obtain ⟨⟨c, hcounted, hcsr, -⟩, -⟩ := stepTick_passive hw.passive h
  have hsteps := stepTick_counted hw.passive h .t2
  have hperiod : ctcPeriod t.csr = ctcPeriod s.csr := by
    rw [hcsr, hcounted.same]; rfl
  have hcom : fieldRead t.csr .com2a = fieldRead s.csr .com2a := by
    rw [hcsr, fieldRead_fieldWrite_ne (by decide), hcounted.com2a_eq]; rfl
  refine ⟨⟨(stepTick_effect h).passive hw.passive, hsteps.wgm2.trans hw.mode, hcom.trans hw.toggle, ?_,
    (stepTick_effect h).latch hw.latch, ?_⟩, hperiod, hsteps.divisor⟩
  · rw [hcsr]; exact fieldRead_fieldWrite_same c .foc2a (by decide)
  · rw [(stepTick_turns hw h).1, hperiod]
    exact Nat.mod_lt _ (Nat.zero_lt_of_lt hw.inPeriod)

/-- Coming round `x` times and then `y` times is coming round `x + y` times. -/
theorem xor_odd_add (b : Bool) (x y : Nat) :
    ((b ^^ decide (x % 2 = 1)) ^^ decide (y % 2 = 1)) = (b ^^ decide ((x + y) % 2 = 1)) := by
  have hodd : decide ((x + y) % 2 = 1) = (decide (x % 2 = 1) ^^ decide (y % 2 = 1)) := by
    rcases Nat.mod_two_eq_zero_or_one x with hx | hx <;> rcases Nat.mod_two_eq_zero_or_one y with hy | hy <;>
      simp [Nat.add_mod, hx, hy]
  rw [hodd, Bool.xor_assoc]

/-- The counter and the output over any number of `STEP`s: both follow from the counts since the start. -/
theorem stepTimes_squareWave : ∀ {k : Nat} {s t : State}, SquareWave s → stepTimes k s = .next t →
    let counts := s.csr.tcnt2.toNat + ((s.tick + k) / divisor s.csr .t2 - s.tick / divisor s.csr .t2)
    t.csr.tcnt2.toNat = counts % ctcPeriod s.csr ∧
      t.oc2a = (s.oc2a ^^ decide (counts / ctcPeriod s.csr % 2 = 1))
  | 0, s, t, hw, h => by
    cases h
    simp [Nat.mod_eq_of_lt hw.inPeriod, Nat.div_eq_of_lt hw.inPeriod]
  | k + 1, s, t, hw, h => by
    obtain ⟨u, hu, ht⟩ := andThen_eq_next.mp h
    obtain ⟨hwave, hperiod, hdivisor⟩ := stepTick_squareWave hw hu
    obtain ⟨hcount, hlevel⟩ := stepTick_turns hw hu
    obtain ⟨hcounts, hlevels⟩ := stepTimes_squareWave hwave ht
    rw [hperiod, hdivisor, stepTick_tick hu, hcount] at hcounts hlevels
    have hpos : 0 < ctcPeriod s.csr := Nat.zero_lt_of_lt hw.inPeriod
    have hlater : (s.tick + 1) / divisor s.csr .t2 ≤ (s.tick + 1 + k) / divisor s.csr .t2 :=
      Nat.div_le_div_right (Nat.le_add_right _ _)
    have hfirst : (s.tick + 1) / divisor s.csr .t2 = s.tick / divisor s.csr .t2 + dueCount s.csr (s.tick + 1) :=
      succ_div_divisor s.csr .t2 s.tick
    have htotal : s.csr.tcnt2.toNat + ((s.tick + (k + 1)) / divisor s.csr .t2 - s.tick / divisor s.csr .t2) =
        s.csr.tcnt2.toNat + dueCount s.csr (s.tick + 1) +
          ((s.tick + 1 + k) / divisor s.csr .t2 - (s.tick + 1) / divisor s.csr .t2) := by
      rw [show s.tick + (k + 1) = s.tick + 1 + k by omega]
      omega
    dsimp only
    rw [htotal, hcounts, hlevels, hlevel, xor_odd_add]
    generalize s.csr.tcnt2.toNat + dueCount s.csr (s.tick + 1) = first
    generalize (s.tick + 1 + k) / divisor s.csr .t2 - (s.tick + 1) / divisor s.csr .t2 = later
    have hdiv : first / ctcPeriod s.csr + (first % ctcPeriod s.csr + later) / ctcPeriod s.csr =
        (first + later) / ctcPeriod s.csr := by
      rw [← Nat.mul_add_div hpos, ← Nat.add_assoc, Nat.div_add_mod]
    exact ⟨Nat.mod_add_mod _ _ _, by rw [hdiv]⟩

/-- Settles O14: by induction on the number of `STEP`s, each counting modulo the period. -/
theorem ctcSquareWave : Obligations.CtcSquareWave := by
  intro k s hs hp hmode htoggle hunforced hlatch N d counted hin
  obtain ⟨t, ht⟩ := stepTimes_total_passive k hp
  exact ⟨t, betweenOperations_eq_next.mpr ⟨hs, ht⟩,
    stepTimes_squareWave ⟨hp, hmode, htoggle, hunforced, hlatch, hin⟩ ht⟩

end Steps

end Sys2Proof.Proofs
end

section
/-! PROOFS. Family 42_input_capture: `FEED` (O25, O26) and its latch (O27). `FEED` is said once in each of its cases:
not a new level, rejected, accepted on the unselected edge, accepted on the selected edge. The noise test and the edge
are stated by the bits that choose them. -/

namespace Sys2Proof.Proofs

open Sys2Proof Sys2Proof.Machine Sys2Proof.Claims

section Capture

variable {s t u : State} {l : Bool}

/-! ### The noise test and the edge -/

/-- A field of one bit is 0 or 1. -/
theorem fieldRead_eq_zero_or_one {f : CsrField} (hf : f.pos.width = 1) (c : Csrs) :
    fieldRead c f = 0 ∨ fieldRead c f = 1 := by
  have hbit (b : Bool) : (BitVec.ofBool b).setWidth 8 = 0 ∨ (BitVec.ofBool b).setWidth 8 = (1 : Byte) := by
    cases b <;> decide
  rw [fieldRead, hf, extractField, show fieldMask 0 1 = 1#8 from rfl, BitVec.and_one_eq_setWidth_ofBool_getLsbD]
  exact hbit _

/-- Accepted: the canceler is off, or nothing was accepted yet, or the last acceptance is 20 ticks back (R192). -/
theorem transitionAccepted_iff : transitionAccepted s = true ↔
    fieldRead s.csr .icnc1 = 0 ∨ s.lastAccept = none ∨ ∃ a, s.lastAccept = some a ∧ a + 20 ≤ s.tick := by
  unfold transitionAccepted
  cases s.lastAccept with
  | none => simp
  | some a =>
    have hwindow : Config.noiseWindow ≤ s.tick - a ↔ a + 20 ≤ s.tick := by rw [Config.noiseWindow]; omega
    simp [hwindow]

/-- Rejected: the canceler is on and the last acceptance is less than 20 ticks back (R192). -/
theorem transitionAccepted_eq_false_iff : transitionAccepted s = false ↔
    fieldRead s.csr .icnc1 = 1 ∧ ∃ a, s.lastAccept = some a ∧ s.tick < a + 20 := by
  rw [← Bool.not_eq_true, transitionAccepted_iff]
  rcases fieldRead_eq_zero_or_one (f := .icnc1) rfl s.csr with hoff | hon
  · simp [hoff]
  · cases s.lastAccept <;> simp [hon]

/-- A transition goes to its level from the other one, so the level tells the edge (R194). -/
theorem polaritySelected_iff (hl : l ≠ s.prevLevel) : polaritySelected l s = true ↔
    (fieldRead s.csr .ices1 = 1 ∧ l = true) ∨ (fieldRead s.csr .ices1 = 0 ∧ l = false) := by
  have hrising : (!s.prevLevel && l) = l := by rw [Bool.eq_not_of_ne hl.symm]; cases l <;> rfl
  unfold polaritySelected
  rw [hrising]
  rcases fieldRead_eq_zero_or_one (f := .ices1) rfl s.csr with hfall | hrise
  · simp [hfall]
  · simp [hrise]

/-! ### `FEED`, case by case -/

/-- The state the capture handler finds: `ICR1` has taken `TCNT1` (R193). -/
def latched (s : State) : State := { s with csr := { s.csr with icr1 := s.csr.tcnt1 } }

theorem exec_feed_between (hs : s.moment = .between) (l : Bool) : exec (.feed l) s = feedLevel l s :=
  betweenOperations_between hs _

theorem feedLevel_same (s : State) : feedLevel s.prevLevel s = .next s := if_neg fun h => h.1 rfl

theorem feedLevel_rejected (h : transitionAccepted s = false) : feedLevel l s = .next s :=
  if_neg fun hc => absurd hc.2 (by simp [h])

/-- An accepted transition: the latch, the handler on the selected edge, then the level and the tick (R190). -/
theorem feedLevel_accepted (hl : l ≠ s.prevLevel) (ha : transitionAccepted s = true) : feedLevel l s =
    andThen (whenDo (polaritySelected l s) (call .capture) (latched s)) fun u =>
      .next { u with prevLevel := l, lastAccept := some u.tick } := if_pos ⟨hl, ha⟩

theorem feedLevel_unselected (hl : l ≠ s.prevLevel) (ha : transitionAccepted s = true)
    (hp : polaritySelected l s = false) :
    feedLevel l s = .next { latched s with prevLevel := l, lastAccept := some s.tick } := by
  rw [feedLevel_accepted hl ha, hp, whenDo_false]; rfl

theorem feedLevel_selected (hl : l ≠ s.prevLevel) (ha : transitionAccepted s = true)
    (hp : polaritySelected l s = true) (hu : call .capture (latched s) = .next u) :
    feedLevel l s = .next { u with prevLevel := l, lastAccept := some s.tick } := by
  have htick : u.tick = s.tick := by rw [(call_eq_next hu).1]; rfl
  rw [feedLevel_accepted hl ha, hp, whenDo_true, hu, andThen_next, htick]

/-- What any `FEED` that completes leaves: the state itself, or a new level accepted now (R191). -/
theorem feedLevel_unchanged_or_accepted (h : feedLevel l s = .next t) :
    t = s ∨ (l ≠ s.prevLevel ∧ t.prevLevel = l ∧ t.lastAccept = some s.tick) := by
  rcases feedLevel_eq_next h with ⟨-, rfl⟩ | ⟨hl, -, u, rfl, -⟩
  · exact .inl rfl
  · exact .inr ⟨hl, rfl, congrArg some (feedLevel_effect h).1.tick⟩

/-- `FEED` calls the capture handler at most, and at most once (R190). -/
theorem feedLevel_calls (h : feedLevel l s = .next t) :
    t.calls = s.calls ∨ t.calls = s.calls ++ [⟨.capture, s.tick⟩] := by
  rcases feedLevel_eq_next h with ⟨-, rfl⟩ | ⟨-, -, u, rfl, ⟨-, hu⟩ | ⟨-, rfl⟩⟩
  · exact .inl rfl
  · exact .inr (congrArg State.calls (call_eq_next hu).1)
  · exact .inl rfl

/-- Settles O25: the same level fails the first test of `FEED`; every other `FEED` is one of its cases. -/
theorem feedOfTheSameLevel : Obligations.FeedOfTheSameLevel := by
  refine ⟨fun s hs => (exec_feed_between hs _).trans (feedLevel_same s), fun l s t h => ?_⟩
  have hfeed : feedLevel l s = .next t := (betweenOperations_eq_next.mp h).2
  exact ⟨(feedLevel_effect hfeed).1.tick, feedLevel_calls hfeed, feedLevel_unchanged_or_accepted hfeed⟩

/-- Settles O26: a new level is rejected, accepted on the unselected edge, or accepted on the selected edge, each told
by its bits. -/
theorem feedNoiseTest : Obligations.FeedNoiseTest := by
  intro l s hs hlegal hl latchedState rejected selected
  have haccepted (h : ¬ rejected) : transitionAccepted s = true :=
    eq_true_of_ne_false (mt transitionAccepted_eq_false_iff.mp h)
  have hselected : polaritySelected l s = true ↔ selected := polaritySelected_iff hl
  rw [exec_feed_between hs]
  refine ⟨fun hr => feedLevel_rejected (transitionAccepted_eq_false_iff.mpr hr), fun hr hp => ?_, fun hr hp => ?_⟩
  · exact feedLevel_unselected hl (haccepted hr) (Bool.eq_false_iff.mpr (mt hselected.mp hp))
  · obtain ⟨u, hu⟩ := call_total (s := latched s) (stubOf_legal hlegal .capture)
    exact ⟨u, hu, feedLevel_selected hl (haccepted hr) (hselected.mpr hp) hu⟩

/-! ### The latch -/

/-- With a handler that writes no register the latch is all that happens to the registers (R193). -/
theorem feedLevel_passive_csr (hl : l ≠ s.prevLevel) (ha : transitionAccepted s = true)
    (hp : s.fw.t1Capt.passive = true) :
    ∃ t, feedLevel l s = .next t ∧ t.csr = { s.csr with icr1 := s.csr.tcnt1 } := by
  cases hedge : polaritySelected l s with
  | false => exact ⟨_, feedLevel_unselected hl ha hedge, rfl⟩
  | true =>
    obtain ⟨u, hu⟩ := call_total (c := .capture) (s := latched s) (FwStmt_passive_legal hp)
    exact ⟨_, feedLevel_selected hl ha hedge hu, call_passive_csr hu hp⟩

/-- A callback that reads one 16-bit register has its value as the last read. -/
theorem call_csrr16 {c : Callback} {a : Byte} {r : Csr16} (hstub : stubOf s.fw c = .csrr16 a)
    (ha : csr16At a = some r) : ∃ t, call c s = .next t ∧ t.fwst.lastRead = read16 s.csr r := by
  have hrun : runStub (stubOf s.fw c) = csrRead16 a := (congrArg runStub hstub :)
  have hread := (csrRead16_eq_next (s := enterCallback c s)).mpr ⟨r, ha, rfl⟩
  exact ⟨_, andThen_eq_next.mpr ⟨_, hrun ▸ hread, rfl⟩, rfl⟩

/-- Settles O27; `0x86` is the address of `ICR1`. -/
theorem captureLatch : Obligations.CaptureLatch := by
  intro l s hs hl hnoise
  have ha : transitionAccepted s = true := transitionAccepted_iff.mpr hnoise
  rw [exec_feed_between hs]
  refine ⟨feedLevel_passive_csr hl ha, fun hstub hselected => ?_⟩
  obtain ⟨u, hu, hread⟩ := call_csrr16 (s := latched s) (c := .capture) (r := .icr1) hstub rfl
  exact ⟨_, feedLevel_selected hl ha ((polaritySelected_iff hl).mpr hselected) hu, hread⟩

end Capture

end Sys2Proof.Proofs
end

section
/-! PROOFS. Family 43_compare_output: `OC2A_UPDATE` (O22). The CSRs and the level it leaves are stated once each, from
the field write that uses the request up and from the output-mode table. -/

namespace Sys2Proof.Proofs

open Sys2Proof Sys2Proof.Machine Sys2Proof.Claims

section Output

/-- A field replaced by 0 is cleared. -/
theorem replaceField_zero (lo width : Nat) (x : Byte) : replaceField lo width 0 x = x &&& ~~~ fieldMask lo width := by
  simp [replaceField]

/-- `FOC2A` is bit 7 of `TCCR2B`: using it up keeps the other bits and every other register (R210, R217). -/
theorem fieldWrite_foc2a_zero (c : Csrs) : fieldWrite c .foc2a 0 = { c with tccr2b := c.tccr2b &&& 0x7F } :=
  congrArg (fun x => { c with tccr2b := x }) (replaceField_zero 7 1 c.tccr2b)

/-- The output-mode table row by row (R212). -/
theorem outputLevel_eq_ite (mode : Byte) (level : Bool) :
    outputLevel mode level =
      if mode = 0 then level else if mode = 1 then !level else if mode = 2 then false else true := by
  have hrow (k : Byte) : mode = k ↔ mode.toNat = k.toNat := BitVec.toNat_inj.symm
  rw [outputLevel]
  split
  case h_1 hmode => obtain rfl := (hrow 0).mpr hmode; rfl
  case h_2 hmode => obtain rfl := (hrow 1).mpr hmode; rfl
  case h_3 hmode => obtain rfl := (hrow 2).mpr hmode; rfl
  case h_4 h0 h1 h2 => rw [if_neg (mt (hrow 0).mp h0), if_neg (mt (hrow 1).mp h1), if_neg (mt (hrow 2).mp h2)]

/-- The level an update leaves: the mode is applied on a match or a forced compare only (R210 to R213). -/
theorem outputUpdate_oc2a (s : State) :
    (outputUpdate s).oc2a =
      if s.oc2aMatch = true ∨ fieldRead s.csr .foc2a = 1 then outputLevel (fieldRead s.csr .com2a) s.oc2a
      else s.oc2a := by
  simp only [outputUpdate, Bool.or_eq_true, beq_iff_eq]

/-- An update writes the latch, the CSRs and the level, and nothing else (R210). -/
theorem outputUpdate_eq (s : State) :
    outputUpdate s =
      { s with csr := fieldWrite s.csr .foc2a 0, oc2aMatch := false, oc2a := (outputUpdate s).oc2a } :=
  rfl

/-- Settles O22: inside a `STEP` the update completes, and the three parts it writes are the ones above. -/
theorem outputUpdateTable : Obligations.OutputUpdateTable := by
  intro s hs
  rw [← outputLevel_eq_ite, ← outputUpdate_oc2a, ← fieldWrite_foc2a_zero, ← outputUpdate_eq]
  exact execOc2aUpdate_inStep hs

end Output

end Sys2Proof.Proofs
end

section
/-! PROOFS. Family 44_csr_bus: the transactions of the bus (O28, O29, O30). `RD` and `WR` are said once each as a call
of the bus handler on the state whose pins show the transaction; what a call made there leaves is said once for both. -/

namespace Sys2Proof.Proofs

open Sys2Proof Sys2Proof.Machine

section Bus

variable {s u : State} {c : Callback} {r : BusReg} {v : Byte}

/-! ### The command words -/

/-- The fields of a command word, as a number (R123). -/
theorem cmd32_toNat (op : BitVec 4) (a : Byte) (d : Word16) :
    (cmd32 op a d).toNat = (op.toNat <<< 28 ||| a.toNat <<< 16) ||| d.toNat := by
  simp only [cmd32, BitVec.toNat_append, BitVec.toNat_ofNat, Nat.zero_mod, Nat.or_zero, Nat.shiftLeft_or_distrib,
    ← Nat.shiftLeft_add]

/-- The register index where a command word carries it. -/
theorem busRegBits_toNat_shiftLeft (r : BusReg) :
    (busRegBits r).toNat <<< 16 = if r = .data then 0x10000 else 0 := by
  cases r <;> rfl

theorem encode_rd (r : BusReg) : encode (.rd r) = .word 32 (0x30000000 ||| (if r = .data then 0x10000 else 0)) := by
  rw [encode, cmd32_toNat, busRegBits_toNat_shiftLeft]
  exact congrArg (Code.word 32) (Nat.or_zero _)

theorem encode_wr (r : BusReg) (v : Byte) :
    encode (.wr r v) = .word 32 (0x40000000 ||| (if r = .data then 0x10000 else 0) ||| v.toNat) := by
  rw [encode, cmd32_toNat, busRegBits_toNat_shiftLeft, BitVec.toNat_setWidth_of_le (by decide)]; rfl

/-! ### The pins -/

/-- `BUSCTL` in a transaction with register `r`: the bits kept, the strobe set, the address bit (R118). -/
def drivenPins (kept strobe : Byte) (r : BusReg) (b : Byte) : Byte :=
  (b &&& kept) ||| strobe ||| (if r = .data then 1 else 0)

/-- The state in which the read-side handler is called: the other strobe is kept (R231). -/
def readDriven (r : BusReg) (s : State) : State :=
  { s with csr := { s.csr with busctl := drivenPins 0xFC 0x02 r s.csr.busctl } }

/-- The state in which the write-side handler is called: the byte stands on the data lines (R232). -/
def writeDriven (r : BusReg) (v : Byte) (s : State) : State :=
  { s with csr := { s.csr with busdata := v, busctl := drivenPins 0xFA 0x04 r s.csr.busctl } }

theorem replaceField_readPins (b : Byte) (r : BusReg) :
    replaceField 1 1 1 (replaceField 0 1 (busRegBits r) b) = drivenPins 0xFC 0x02 r b := by
  revert b; cases r <;> decide

theorem replaceField_writePins (b : Byte) (r : BusReg) :
    replaceField 2 1 1 (replaceField 0 1 (busRegBits r) b) = drivenPins 0xFA 0x04 r b := by
  revert b; cases r <;> decide

theorem fieldWrite_readPins (c : Csrs) (r : BusReg) :
    fieldWrite (fieldWrite c .addr (busRegBits r)) .rds 1 =
      { c with busctl := drivenPins 0xFC 0x02 r c.busctl } :=
  congrArg (fun x => { c with busctl := x }) (replaceField_readPins c.busctl r)

theorem fieldWrite_writePins (c : Csrs) (r : BusReg) :
    fieldWrite (fieldWrite c .addr (busRegBits r)) .wrs 1 =
      { c with busctl := drivenPins 0xFA 0x04 r c.busctl } :=
  congrArg (fun x => { c with busctl := x }) (replaceField_writePins c.busctl r)

/-- The release of the read strobe (R233). -/
theorem fieldWrite_rds_zero (c : Csrs) : fieldWrite c .rds 0 = { c with busctl := c.busctl &&& 0xFD } :=
  congrArg (fun x => { c with busctl := x }) (replaceField_zero 1 1 c.busctl)

/-- The release of the write strobe (R233). -/
theorem fieldWrite_wrs_zero (c : Csrs) : fieldWrite c .wrs 0 = { c with busctl := c.busctl &&& 0xFB } :=
  congrArg (fun x => { c with busctl := x }) (replaceField_zero 2 1 c.busctl)

/-- With the strobes released before, the pins show the transaction alone: every bit of `BUSCTL` but the address bit
was 0, and the address bit is not kept. -/
theorem drivenPins_of_released {kept strobe b : Byte} (hb : b &&& 0xFE = 0) (hkept : 0xFE &&& kept = kept) :
    drivenPins kept strobe r b = strobe ||| (if r = .data then 1 else 0) := by
  have hnone : b &&& kept = 0 := by
    rw [← hkept, ← BitVec.and_assoc, hb]
    exact BitVec.zero_and
  rw [drivenPins, hnone]
  exact congrArg (· ||| _) BitVec.zero_or

/-! ### The transactions -/

/-- `RD` where its handler completes (R231, R233). -/
theorem exec_rd_of_call (hs : s.moment = .between) (hu : call .pcRead (readDriven r s) = .next u) :
    exec (.rd r) s =
      .next { u with hostResult := u.csr.busdata, csr := { u.csr with busctl := u.csr.busctl &&& 0xFD } } := by
  rw [← fieldWrite_rds_zero]
  rw [readDriven, ← fieldWrite_readPins] at hu
  exact betweenOperations_eq_next.mpr ⟨hs, andThen_eq_next.mpr ⟨u, hu, rfl⟩⟩

/-- `WR` where its handler completes (R232, R233). -/
theorem exec_wr_of_call (hs : s.moment = .between) (hu : call .pcWrite (writeDriven r v s) = .next u) :
    exec (.wr r v) s = .next { u with csr := { u.csr with busctl := u.csr.busctl &&& 0xFB } } := by
  rw [← fieldWrite_wrs_zero]
  rw [writeDriven, ← fieldWrite_writePins { s.csr with busdata := v }] at hu
  exact betweenOperations_eq_next.mpr ⟨hs, andThen_eq_next.mpr ⟨u, hu, rfl⟩⟩

/-- What a call made inside an operation of the host leaves, whatever the operation wrote to the registers before. -/
structure CallFrame (c : Callback) (s u : State) : Prop where
  tick : u.tick = s.tick
  calls : u.calls = s.calls ++ [⟨c, s.tick⟩]
  output : u.oc2a = s.oc2a
  latch : u.oc2aMatch = s.oc2aMatch
  bindings : BindingsKept s u
  capture : CaptureKept s u
  procedures : ProceduresKept s u
  hostResult : u.hostResult = s.hostResult

theorem callFrame_of_call {csr : Csrs} (h : call c { s with csr := csr } = .next u) : CallFrame c s u := by
  rw [(call_eq_next h).1]
  exact ⟨rfl, rfl, rfl, rfl, ⟨rfl, rfl, rfl, rfl⟩, ⟨rfl, rfl⟩, ⟨rfl, rfl, rfl, rfl, rfl, rfl⟩, rfl⟩

/-- Settles O28: the handler of a legal firmware completes, and the strobe it was called under is still set then. -/
theorem readTransaction : Obligations.ReadTransaction := by
  intro r s hs hlegal
  obtain ⟨u, hu⟩ := call_total (s := readDriven r s) (stubOf_legal hlegal .pcRead)
  obtain ⟨htick, hcalls, houtput, hlatch, hbindings, hcapture, hprocedures, -⟩ := callFrame_of_call hu
  exact ⟨encode_rd r, u, hu, exec_rd_of_call hs hu, htick, hcalls, houtput, hlatch, (call_eq_next hu).2, hbindings,
    hcapture, hprocedures⟩

/-- Settles O29, as O28; a write leaves the host's last byte too. -/
theorem writeTransaction : Obligations.WriteTransaction := by
  intro r v s hs hlegal
  obtain ⟨u, hu⟩ := call_total (s := writeDriven r v s) (stubOf_legal hlegal .pcWrite)
  obtain ⟨htick, hcalls, houtput, hlatch, hbindings, hcapture, hprocedures, hresult⟩ := callFrame_of_call hu
  exact ⟨encode_wr r v, u, hu, exec_wr_of_call hs hu, htick, hcalls, houtput, hlatch, (call_eq_next hu).2, hbindings,
    hcapture, hprocedures, hresult⟩

/-! ### Handlers that write no register -/

/-- A read that no handler answers returns the byte on the data lines and leaves it there (R234). -/
theorem exec_rd_passive (hs : s.moment = .between) (hp : s.fw.pcRead.passive = true) (r : BusReg) :
    ∃ t, exec (.rd r) s = .next t ∧ t.hostResult = s.csr.busdata ∧ t.csr.busdata = s.csr.busdata := by
  obtain ⟨u, hu⟩ := call_total (c := .pcRead) (s := readDriven r s) (FwStmt_passive_legal hp)
  have hcsr : u.csr = (readDriven r s).csr := call_passive_csr hu hp
  have hdata : u.csr.busdata = s.csr.busdata := by rw [hcsr]; rfl
  exact ⟨_, exec_rd_of_call hs hu, hdata, hdata⟩

/-- After a write whose handler writes no register the byte stands on the data lines; the next operation finds the
firmware and the moment as before. -/
theorem exec_wr_passive (hs : s.moment = .between) (hp : s.fw.pcWrite.passive = true) (r : BusReg) (v : Byte) :
    ∃ t, exec (.wr r v) s = .next t ∧ t.csr.busdata = v ∧ t.fw = s.fw ∧ t.moment = .between := by
  obtain ⟨u, hu⟩ := call_total (c := .pcWrite) (s := writeDriven r v s) (FwStmt_passive_legal hp)
  have hcsr : u.csr = (writeDriven r v s).csr := call_passive_csr hu hp
  exact ⟨_, exec_wr_of_call hs hu, by rw [hcsr]; rfl, (callFrame_of_call hu).bindings.fw,
    (call_moment hu).trans hs⟩

/-! ### Handlers that read the pins -/

/-- A callback that reads one byte has its value as the last read. -/
theorem call_csrr {cell : CsrCell} (hstub : stubOf s.fw c = .csrr cell.address) :
    ∃ t, call c s = .next t ∧ t.fwst.lastRead = (cellRead s.csr cell).setWidth 16 := by
  have hrun : runStub (stubOf s.fw c) = csrRead8 cell.address := (congrArg runStub hstub :)
  have hread := (csrRead8_eq_next (s := enterCallback c s)).mpr ⟨cell, csrAt_address cell, rfl⟩
  exact ⟨_, andThen_eq_next.mpr ⟨_, hrun ▸ hread, rfl⟩, rfl⟩

/-- Settles O30; `0xE0` is the address of `BUSCTL`. -/
theorem staleByteAndPins : Obligations.StaleByteAndPins := by
  refine ⟨fun r q v s hs hread hwrite => ?_, fun r s hs hb hstub => ?_, fun r v s hs hb hstub => ?_⟩
  · obtain ⟨u, hu, hdata, hfw, hmoment⟩ := exec_wr_passive hs hwrite r v
    obtain ⟨t, ht, hresult, hkept⟩ := exec_rd_passive hmoment (hfw ▸ hread) q
    exact ⟨u, t, hu, ht, hresult.trans hdata, hkept.trans hdata⟩
  · obtain ⟨u, hu, hlast⟩ := call_csrr (c := .pcRead) (s := readDriven r s) (cell := .busctl) hstub
    refine ⟨_, exec_rd_of_call hs hu, hlast.trans ?_⟩
    rw [cellRead, readDriven, drivenPins_of_released hb rfl]
    cases r <;> rfl
  · obtain ⟨u, hu, hlast⟩ := call_csrr (c := .pcWrite) (s := writeDriven r v s) (cell := .busctl) hstub
    refine ⟨_, exec_wr_of_call hs hu, hlast.trans ?_⟩
    rw [cellRead, writeDriven, drivenPins_of_released hb rfl]
    cases r <;> rfl

end Bus

end Sys2Proof.Proofs
end

section
/-! PROOFS. Family 45_serial_status_decode: the comparison with the reference (O43), its tolerance of leader bytes
(O44), and `POLL` (O41, O42). `COMPARE` is one equation for each of its cases, the handling of the status byte by a
running decoder one equation for all of them; the obligations only read these off. -/

namespace Sys2Proof.Proofs

open Sys2Proof Sys2Proof.Machine Sys2Proof.Claims

section Comparison

variable {s : State} {ref : List Byte} {b e leader first : Byte} {m : Nat} {rest : List Byte}

/-! ### `COMPARE`, case by case -/

/-- The decoder at another position of the reference. -/
def atPosition (pos : Nat) (s : State) : State := { s with dec := { s.dec with refPos := pos } }

/-- The decoder past the leader, at a position of the reference. -/
def pastLeader (pos : Nat) (s : State) : State := { s with dec := { s.dec with refPos := pos, inLeader := false } }

theorem exec_compare_between (hs : s.moment = .between) (b : Byte) : exec (.compare b) s = .next (compareByte b s) :=
  execCompare_between hs b

theorem compareByte_of_noReference (href : s.dec.ref = none) (b : Byte) : compareByte b s = s := by
  simp only [compareByte, href]

theorem compareLeader_of_pastLeader {d : Decoder} (ref : List Byte) (b : Byte) (hin : d.inLeader = false) :
    compareLeader ref b d = (d, false) := by
  simp only [compareLeader, hin]
  rw [← hin]

/-- Past the leader a byte is compared where the decoder stands. -/
theorem compareByte_of_pastLeader (href : s.dec.ref = some ref) (hin : s.dec.inLeader = false) (b : Byte) :
    compareByte b s = compareNext ref b s := by
  simp only [compareByte, href, compareLeader_of_pastLeader ref b hin]

theorem compareByte_end (href : s.dec.ref = some ref) (hin : s.dec.inLeader = false)
    (hend : ref.length ≤ s.dec.refPos) (b : Byte) :
    compareByte b s = { s with dec := { s.dec with endReports := s.dec.endReports + 1 } } := by
  rw [compareByte_of_pastLeader href hin, compareNext, List.getElem?_eq_none hend]

theorem compareByte_match (href : s.dec.ref = some ref) (hin : s.dec.inLeader = false)
    (hb : ref[s.dec.refPos]? = some b) : compareByte b s = atPosition (s.dec.refPos + 1) s := by
  rw [compareByte_of_pastLeader href hin, compareNext, hb]
  simp only [if_true, atPosition]

theorem compareByte_mismatch (href : s.dec.ref = some ref) (hin : s.dec.inLeader = false)
    (he : ref[s.dec.refPos]? = some e) (hne : e ≠ b) :
    compareByte b s = atPosition (s.dec.refPos + 1) (decoderError (.mismatch e b s.tick) s) := by
  rw [compareByte_of_pastLeader href hin, compareNext, he]
  simp only [if_neg hne]
  rfl

/-- In the leader a leader byte is used up. -/
theorem compareByte_leaderByte (href : s.dec.ref = some ref) (hin : s.dec.inLeader = true)
    (hhead : ref.head? = some b) :
    compareByte b s =
      atPosition (if ref[s.dec.refPos]? = some b then s.dec.refPos + 1 else s.dec.refPos) s := by
  simp only [compareByte, href, compareLeader, hin, hhead, if_true, atPosition]

/-- In the leader another byte is compared past the leader bytes of the reference. -/
theorem compareByte_bodyByte (href : s.dec.ref = some ref) (hin : s.dec.inLeader = true)
    (hhead : ref.head? = some leader) (hb : b ≠ leader) :
    compareByte b s = compareByte b (pastLeader (skipLeader ref leader s.dec.refPos) s) := by
  rw [compareByte_of_pastLeader (s := pastLeader _ s) href rfl]
  simp only [compareByte, href, compareLeader, hin, hhead, if_neg hb, pastLeader]

/-- Settles O43: each clause is one of the equations above. -/
theorem compareOperation : Obligations.CompareOperation := by
  intro b s hs
  simp only [exec_compare_between hs]
  refine ⟨fun href => ?_, fun ref href hin => ⟨fun hend => ?_, fun hb => ?_, fun e he hne => ?_⟩,
    fun ref href hin hhead => ?_, fun ref leader href hin hhead hb => ?_⟩
  · rw [compareByte_of_noReference href]
  · rw [compareByte_end href hin hend]
  · rw [compareByte_match href hin hb]; rfl
  · rw [compareByte_mismatch href hin he hne]; rfl
  · rw [compareByte_leaderByte href hin hhead]; rfl
  · rw [compareByte_bodyByte href hin hhead hb]
    exact (exec_compare_between (s := pastLeader _ s) hs b).symm

/-! ### Streams of bytes -/

theorem compareAll_cons (hs : s.moment = .between) (b : Byte) (bs : List Byte) :
    compareAll (b :: bs) s = compareAll bs (compareByte b s) := by
  rw [compareAll, exec_compare_between hs, andThen_next]

theorem compareAll_append (as bs : List Byte) (s : State) :
    compareAll (as ++ bs) s = andThen (compareAll as s) (compareAll bs) := by
  induction as generalizing s with
  | nil => rfl
  | cons a as ih =>
    simp only [List.cons_append, compareAll, andThen_assoc]
    exact congrArg (andThen _) (funext ih)

/-- Past the leader, data that is the rest of the reference is compared to its end without an error. -/
theorem compareAll_matching {bs : List Byte} (hs : s.moment = .between) (href : s.dec.ref = some ref)
    (hin : s.dec.inLeader = false) (hrest : ref.drop s.dec.refPos = bs) :
    compareAll bs s = .next (atPosition (s.dec.refPos + bs.length) s) := by
  induction bs generalizing s with
  | nil => rfl
  | cons b bs ih =>
    have hb : ref[s.dec.refPos]? = some b := by rw [← List.head?_drop, hrest, List.head?_cons]
    have hnext : ref.drop (s.dec.refPos + 1) = bs := by rw [← List.tail_drop, hrest, List.tail_cons]
    rw [compareAll_cons hs, compareByte_match href hin hb,
      ih (s := atPosition (s.dec.refPos + 1) s) hs href hin hnext, List.length_cons]
    simp only [atPosition, Nat.add_assoc, Nat.add_comm 1]

/-! ### A reference of leader bytes and a body -/

theorem head?_leader (hm : 0 < m) : (List.replicate m leader ++ first :: rest).head? = some leader := by
  simp [List.head?_replicate, hm.ne']

theorem leader_getElem?_eq_some_iff (hfirst : first ≠ leader) {pos : Nat} (hpos : pos ≤ m) :
    (List.replicate m leader ++ first :: rest)[pos]? = some leader ↔ pos < m := by
  rcases hpos.lt_or_eq with hlt | rfl
  · simp [List.getElem?_append_left, hlt]
  · simp [hfirst]

theorem skipLeader_of_leader (hfirst : first ≠ leader) {pos : Nat} (hpos : pos ≤ m) :
    skipLeader (List.replicate m leader ++ first :: rest) leader pos = m := by
  have hrun : ((List.replicate m leader ++ first :: rest).drop pos).takeWhile (· == leader) =
      List.replicate (m - pos) leader := by
    rw [List.drop_append_of_le_length (by simpa using hpos), List.drop_replicate,
      List.takeWhile_append_of_pos (by simp), List.takeWhile_cons_of_neg (by simpa using hfirst), List.append_nil]
  rw [skipLeader, hrun, List.length_replicate]
  omega

/-- Between two operations the decoder is in the leader of a reference of `m` leader bytes and a body (R266). -/
structure InLeader (leader first : Byte) (m : Nat) (rest : List Byte) (s : State) : Prop where
  moment : s.moment = .between
  ref : s.dec.ref = some (List.replicate m leader ++ first :: rest)
  inLeader : s.dec.inLeader = true
  refPos : s.dec.refPos ≤ m
  nonempty : 0 < m
  first_ne : first ≠ leader

theorem InLeader.atPosition (h : InLeader leader first m rest s) {pos : Nat} (hpos : pos ≤ m) :
    InLeader leader first m rest (atPosition pos s) :=
  ⟨h.moment, h.ref, h.inLeader, hpos, h.nonempty, h.first_ne⟩

/-- A leader byte of the data moves the decoder over a leader byte of the reference, if one is left. -/
theorem compareByte_inLeader (h : InLeader leader first m rest s) :
    compareByte leader s = atPosition (min (s.dec.refPos + 1) m) s := by
  have hpos := h.refPos
  rw [compareByte_leaderByte h.ref h.inLeader (head?_leader h.nonempty)]
  simp only [leader_getElem?_eq_some_iff h.first_ne hpos]
  congr 1
  split <;> omega

/-- Leader bytes of the data move the decoder over leader bytes of the reference, and no further. -/
theorem compareAll_leader (h : InLeader leader first m rest s) (k : Nat) :
    compareAll (List.replicate k leader) s = .next (atPosition (min (s.dec.refPos + k) m) s) := by
  induction k generalizing s with
  | zero => rw [Nat.add_zero, Nat.min_eq_left h.refPos]; rfl
  | succ k ih =>
    have hmin : min (min (s.dec.refPos + 1) m + k) m = min (s.dec.refPos + (k + 1)) m := by omega
    rw [List.replicate_succ, compareAll_cons h.moment, compareByte_inLeader h,
      ih (h.atPosition (Nat.min_le_right _ _))]
    exact congrArg (fun pos => Host.Outcome.next (atPosition pos s)) hmin

/-- The first byte of the data that is no leader byte meets the first body byte of the reference (R266). -/
theorem compareAll_body (h : InLeader leader first m rest s) (hb : b ≠ leader) (bs : List Byte) :
    compareAll (b :: bs) s = compareAll (b :: bs) (pastLeader m s) := by
  rw [compareAll_cons h.moment, compareAll_cons (s := pastLeader m s) h.moment,
    compareByte_bodyByte h.ref h.inLeader (head?_leader h.nonempty) hb, skipLeader_of_leader h.first_ne h.refPos]

/-- So it does however many leader bytes came before it (R270). -/
theorem compareAll_leader_body (h : InLeader leader first m rest s) (hb : b ≠ leader) (k : Nat) (bs : List Byte) :
    compareAll (List.replicate k leader ++ b :: bs) s = compareAll (b :: bs) (pastLeader m s) := by
  rw [compareAll_append, compareAll_leader h, andThen_next]
  exact compareAll_body (h.atPosition (Nat.min_le_right _ _)) hb bs

/-- Settles O44: both streams reach the body of the reference, where the one matches and the other does not. -/
theorem leaderTolerance : Obligations.LeaderTolerance := by
  intro leader first m k rest s hs hm hfirst href hpos hin
  have hleader : InLeader leader first m rest s := ⟨hs, href, hin, by omega, hm, hfirst⟩
  refine ⟨?_, fun b hb hne => ?_⟩
  · have hrest : (List.replicate m leader ++ first :: rest).drop m = first :: rest :=
      List.drop_left' List.length_replicate
    have hmatching := compareAll_matching (s := pastLeader m s) hs href rfl hrest
    refine ⟨_, (compareAll_leader_body hleader hfirst k rest).trans hmatching, rfl, rfl, rfl, ?_, rfl⟩
    simp only [atPosition, pastLeader, List.length_cons]
    omega
  · have hat : (List.replicate m leader ++ first :: rest)[m]? = some first := by simp
    have hmismatch := compareByte_mismatch (s := pastLeader m s) href rfl hat hne.symm
    refine ⟨_, (compareAll_leader_body hleader hb k []).trans (compareAll_cons (s := pastLeader m s) hs b []), ?_⟩
    rw [hmismatch]
    exact ⟨rfl, rfl⟩

end Comparison

section Polling

variable {s t u w : State}

/-! ### What a read of the bus and a comparison leave -/

/-- A read transaction leaves the host's procedures (R231). -/
theorem busReadOf_procedures {r : BusReg} (h : busReadOf r s = .next t) : ProceduresKept s t := by
  obtain ⟨u, hcall, rfl⟩ := busReadOf_eq_next h
  obtain ⟨hdec, hsrc, hsnk, herrors, houtcome, hexit⟩ := (callFrame_of_call hcall).procedures
  exact ⟨hdec, hsrc, hsnk, herrors, houtcome, hexit⟩

/-- What `COMPARE` can write (R266): the decoder, but not the bytes received, and the errors. -/
structure CompareEffect (s t : State) : Prop where
  same : t = { s with dec := t.dec, errors := t.errors }
  received : t.dec.received = s.dec.received

theorem compareNext_effect (ref : List Byte) (b : Byte) (s : State) : CompareEffect s (compareNext ref b s) := by
  unfold compareNext
  split
  · exact ⟨rfl, rfl⟩
  · dsimp only
    split <;> exact ⟨rfl, rfl⟩

theorem compareLeader_received (ref : List Byte) (b : Byte) (d : Decoder) :
    (compareLeader ref b d).1.received = d.received := by
  unfold compareLeader
  split
  · split <;> rfl
  · rfl

theorem compareByte_effect (b : Byte) (s : State) : CompareEffect s (compareByte b s) := by
  unfold compareByte
  split
  · exact ⟨rfl, rfl⟩
  · next ref _ =>
    have hreceived := compareLeader_received ref b s.dec
    split
    · next d hd => exact ⟨rfl, by rw [hd] at hreceived; exact hreceived⟩
    · next d hd =>
      rw [hd] at hreceived
      have hnext := compareNext_effect ref b { s with dec := d }
      exact ⟨by rw [hnext.same], hnext.received.trans hreceived⟩

/-! ### A byte is available -/

theorem receiveByte_of_read (h : busReadOf .data s = .next w) :
    receiveByte s = .next (compareByte w.hostResult
      { w with dec := { w.dec with received := w.dec.received ++ [w.hostResult] } }) :=
  andThen_eq_next.mpr ⟨w, h, rfl⟩

/-- One read event, and the byte it returned at the end of the bytes received (R262, R265). -/
theorem receiveByte_reads (h : receiveByte s = .next t) :
    t.calls = s.calls ++ [⟨.pcRead, s.tick⟩] ∧ t.dec.received = s.dec.received ++ [t.hostResult] := by
  obtain ⟨u, hread, rfl⟩ := receiveByte_eq_next h
  obtain ⟨hsame, hreceived⟩ := compareByte_effect u.hostResult
    { u with dec := { u.dec with received := u.dec.received ++ [u.hostResult] } }
  rw [hreceived, hsame]
  exact ⟨(busReadOf_effect hread).2.2.2, by rw [(busReadOf_procedures hread).dec]⟩

/-! ### The status byte -/

/-- The errors that a status byte reports (R117, R262). -/
def framingErrors (st : Byte) (tick : Nat) : List HostError := if st.getLsbD 3 then [.framing tick] else []
def parityErrors (st : Byte) (tick : Nat) : List HostError := if st.getLsbD 2 then [.parity tick] else []

theorem afterErrors_afterErrors (es fs : List HostError) (a b : Bool) (s : State) :
    afterErrors fs b (afterErrors es a s) = afterErrors (es ++ fs) b s := by
  simp only [afterErrors, List.append_assoc]

/-- One line of the status byte, for a running decoder: an error stops it unless keep-going is set (R262). -/
theorem errorLine_of_running (h : s.dec.stopped = false) (bit : Bool) (e : HostError) :
    (if bit then decoderError e s else s) =
      afterErrors (if bit then [e] else []) (bit && !s.dec.keepGoing) s := by
  cases bit with
  | true => simp [decoderError_of_running h]
  | false =>
    have hsame : ({ s.dec with stopped := false } : Decoder) = s.dec := by rw [← h]
    simp [afterErrors, hsame]

theorem unlessStopped_afterErrors (es : List HostError) (stop : Bool) (s : State) (k : State → Result) :
    unlessStopped (afterErrors es stop s) k =
      if stop then .next (afterErrors es true s) else k (afterErrors es false s) := by
  cases stop <;> rfl

/-- The rest of `POLL` once the status byte is there, for a running decoder (R262). -/
theorem handleStatus_of_running (h : s.dec.stopped = false) (st : Byte) :
    handleStatus st s =
      if st.getLsbD 3 && !s.dec.keepGoing then .next (afterErrors (framingErrors st s.tick) true s)
      else if st.getLsbD 2 && !s.dec.keepGoing then
        .next (afterErrors (framingErrors st s.tick ++ parityErrors st s.tick) true s)
      else if st.getLsbD 0 then
        .next (afterErrors (framingErrors st s.tick ++ parityErrors st s.tick) false s)
      else receiveByte (afterErrors (framingErrors st s.tick ++ parityErrors st s.tick) false s) := by
  have hparity := errorLine_of_running (s := afterErrors (framingErrors st s.tick) false s) rfl (st.getLsbD 2)
    (.parity s.tick)
  rw [afterErrors_afterErrors] at hparity
  rw [handleStatus, errorLine_of_running h, unlessStopped_afterErrors]
  congr 1
  exact (congrArg (unlessStopped · _) hparity).trans (unlessStopped_afterErrors _ _ _ _)

/-- A poll of a running decoder ends with the errors recorded, or goes on to receive a byte. -/
theorem handleStatus_cases {st : Byte} (hrunning : s.dec.stopped = false) (h : handleStatus st s = .next t) :
    (∃ es stop, t = afterErrors es stop s) ∨ ∃ es, receiveByte (afterErrors es false s) = .next t := by
  rw [handleStatus_of_running hrunning] at h
  split at h
  · cases h; exact .inl ⟨_, _, rfl⟩
  split at h
  · cases h; exact .inl ⟨_, _, rfl⟩
  split at h
  · cases h; exact .inl ⟨_, _, rfl⟩
  · exact .inr ⟨_, h⟩

/-! ### `POLL` -/

theorem exec_rd_eq_next {r : BusReg} : exec (.rd r) s = .next t ↔ s.moment = .between ∧ busReadOf r s = .next t :=
  betweenOperations_eq_next

theorem exec_poll_of_stopped (hs : s.moment = .between) (hstopped : s.dec.stopped = true) :
    exec .poll s = .next s :=
  (betweenOperations_between hs _).trans (unlessStopped_of_stopped hstopped _)

theorem pollOnce_of_read (hrunning : s.dec.stopped = false) (hread : busReadOf .control s = .next u) :
    pollOnce s = handleStatus u.hostResult u := by
  rw [pollOnce, unlessStopped_of_running hrunning, hread, andThen_next]

/-- Settles O41: the status byte of the read decides which line of `handleStatus_of_running` is taken. -/
theorem pollByStatus : Obligations.PollByStatus := by
  refine ⟨fun s hs hstopped => exec_poll_of_stopped hs hstopped, fun s u hrunning hrd => ?_⟩
  obtain ⟨hs, hread⟩ := exec_rd_eq_next.mp hrd
  have hdec : u.dec = s.dec := (busReadOf_procedures hread).dec
  have hpoll : exec .poll s = handleStatus u.hostResult u :=
    (betweenOperations_between hs _).trans (pollOnce_of_read hrunning hread)
  rw [handleStatus_of_running (hdec ▸ hrunning), hdec] at hpoll
  have hcontinues (hon : s.dec.keepGoing = true ∨
      (u.hostResult.getLsbD 3 = false ∧ u.hostResult.getLsbD 2 = false)) :
      (u.hostResult.getLsbD 3 && !s.dec.keepGoing) = false ∧
        (u.hostResult.getLsbD 2 && !s.dec.keepGoing) = false := by
    rcases hon with hgo | ⟨hframing, hparity⟩
    · simp only [hgo, Bool.not_true, Bool.and_false, and_self]
    · simp only [hframing, hparity, Bool.false_and, and_self]
  refine ⟨fun hgo hframing => ?_, fun hgo hframing hparity => ?_, fun hon hbusy => ?_, fun hon hready w hrd' => ?_⟩
  · rw [hpoll, framingErrors, hgo, hframing]
    rfl
  · rw [hpoll, framingErrors, parityErrors, hgo, hframing, hparity]
    rfl
  · obtain ⟨hframing, hparity⟩ := hcontinues hon
    rw [hpoll, hframing, hparity, hbusy]
    rfl
  · obtain ⟨hframing, hparity⟩ := hcontinues hon
    obtain ⟨hs', hread'⟩ := exec_rd_eq_next.mp hrd'
    have hbetween : w.moment = .between := (busReadOf_run hread').moment.trans hs'
    rw [hframing, hparity, hready] at hpoll
    exact ⟨_, exec_compare_between (by exact hbetween) _, hpoll.trans (receiveByte_of_read hread')⟩

/-- Settles O42: the frame is that of any poll; the events are those of its one or two reads. -/
theorem pollOperation : Obligations.PollOperation := by
  intro s hs hlegal
  obtain ⟨t, ht⟩ := pollOnce_total hlegal
  have hrun := pollOnce_run ht
  have heffect := pollOnce_poll ht
  obtain ⟨houtput, hcapture⟩ := pollEffect_signals heffect
  refine ⟨t, betweenOperations_eq_next.mpr ⟨hs, ht⟩, fun hrunning => ?_, fun hstopped => ?_, heffect.tick,
    houtput, by rw [heffect.same], hrun.moment.trans hs, hrun.bindings, hcapture, heffect.src, hrun.snk,
    heffect.config⟩
  · obtain ⟨u, hread⟩ := busReadOf_total (r := .control) hlegal
    have hdec : u.dec = s.dec := (busReadOf_procedures hread).dec
    have htick : u.tick = s.tick := (busReadOf_poll hread).tick
    obtain ⟨-, -, -, hcalls⟩ := busReadOf_effect hread
    rw [pollOnce_of_read hrunning hread] at ht
    rcases handleStatus_cases (hdec ▸ hrunning) ht with ⟨es, stop, rfl⟩ | ⟨es, hreceive⟩
    · exact .inl ⟨hcalls, congrArg (·.received) hdec⟩
    · obtain ⟨hcalls', hreceived⟩ := receiveByte_reads hreceive
      refine .inr ⟨hcalls'.trans ?_, hreceived.trans ?_⟩
      · simp [afterErrors, hcalls, htick]
      · simp [afterErrors, hdec]
  · rw [pollOnce, unlessStopped_of_stopped hstopped] at ht
    cases ht
    rfl

end Polling

end Sys2Proof.Proofs
end

section
/-! PROOFS. Family 46_audio_source_resampler: `CSV_PLAY` (O46), `WAV_PLAY` (O47) and the tick it ends at (O48). One
record, or one frame, is shown once to be the host operations it stands for and to lead from a point of the run to the
next; what a whole run leaves is then one induction over the records or frames, the ways a run can go on or end being
lemmas of their own. -/

namespace Sys2Proof.Proofs

open Sys2Proof Sys2Proof.Machine Sys2Proof.Claims

section ReadRun

variable {s t : State} {ref : List Byte} {leader : Byte} {pos : Nat}

/-! ### How a read run ends -/

theorem exists_mem_drop_iff : (∃ b, b ∈ ref.drop pos) ↔ pos < ref.length := by
  rw [← List.length_pos_iff_exists_mem, List.length_drop, Nat.sub_pos_iff_lt]

/-- Past the leader bytes something is left exactly if some byte left is no leader byte (R266). -/
theorem skipLeader_lt_length_iff : skipLeader ref leader pos < ref.length ↔ ∃ b ∈ ref.drop pos, b ≠ leader := by
  have hsplit := congrArg List.length (List.takeWhile_append_dropWhile (p := (· == leader)) (l := ref.drop pos))
  have hleft : 0 < ((ref.drop pos).dropWhile (· == leader)).length ↔ ∃ b ∈ ref.drop pos, b ≠ leader := by
    rw [List.length_pos_iff, Ne, List.dropWhile_eq_nil_iff]
    simp
  rw [List.length_append, List.length_drop] at hsplit
  rw [← hleft, skipLeader]
  omega

/-- The model's test for reference bytes left over is the one of R269. -/
theorem referenceLeft_iff (d : Decoder) : referenceLeft d = true ↔ LeftOver d := by
  unfold referenceLeft LeftOver
  cases href : d.ref with
  | none => simp
  | some ref =>
    cases hin : d.inLeader with
    | false => simp [exists_mem_drop_iff]
    | true =>
      cases ref with
      | nil => simp
      | cons leader rest =>
        have hleft := skipLeader_lt_length_iff (ref := leader :: rest) (leader := leader) (pos := d.refPos)
        simpa only [List.head?_cons, decide_eq_true_eq, Option.some.injEq, exists_eq_left', forall_const, ne_eq,
          eq_comm (a := leader)] using hleft

/-- A read run that ends in `s`: it succeeded if the decoder has not stopped and no error was recorded. -/
def endRead (s : State) : State := finishRead (!s.dec.stopped && s.errors.isEmpty) s

theorem endRead_of_stopped (h : s.dec.stopped = true) : endRead s = finishRead false s := by simp [endRead, h]

theorem endRead_of_running (h : s.dec.stopped = false) : endRead s = finishRead s.errors.isEmpty s := by
  simp [endRead, h]

theorem endRead_of_errors (h : s.errors ≠ []) : endRead s = finishRead false s := by
  rw [endRead, List.isEmpty_eq_false_iff.mpr h, Bool.and_false]

theorem endRead_recordError (e : HostError) (s : State) :
    endRead (recordError e s) = finishRead false (recordError e s) :=
  endRead_of_errors (List.append_ne_nil_of_right_ne_nil _ (List.cons_ne_nil _ _))

theorem readRunEnded_endRead (s : State) : ReadRunEnded (endRead s) where
  stopped (h : s.dec.stopped = true) := by
    rw [endRead_of_stopped h]
    exact ⟨rfl, rfl⟩
  outcome (h : s.dec.stopped = false) := by
    rw [endRead_of_running h]
    rfl
  good (h : s.dec.stopped = false) (herrors : s.errors = []) (hleft : ¬ LeftOver s.dec) := by
    have hnone : referenceLeft s.dec = false := Bool.eq_false_iff.mpr fun hr => hleft ((referenceLeft_iff _).mp hr)
    rw [endRead_of_running h, herrors, finishRead, hnone]
    rfl
  bad (h : s.errors ≠ [] ∨ LeftOver s.dec) := by
    rcases h with herrors | hleft
    · rw [endRead_of_errors herrors]
      rfl
    · simp [endRead, finishRead, (referenceLeft_iff s.dec).mpr hleft]

end ReadRun

section Csv

variable {start origin n : Nat} {v : Int} {rs records : List (Nat × Int)} {s t u : State}

/-! ### `CSV_PLAY` -/

/-- Between two records of a CSV run the origin of which is set (R281, R284). -/
structure CsvPoint (start origin : Nat) (s : State) : Prop where
  moment : s.moment = .between
  t0 : s.src.t0 = start
  origin : s.src.origin = some origin

/-- A record is `FEEDAT` of its level at its tick, then `POLL` (R283). -/
theorem csvRecord_operations (hp : CsvPoint start origin s) (h : csvRecord n v s = .next u) :
    ∃ w, exec (.feedAt (start + (n - origin) / 10) (decide (v ≠ 0))) s = .next w ∧ exec .poll w = .next u := by
  obtain ⟨-, a, w, hrun, hfeed, hpoll⟩ := csvRecord_eq_next h
  have hsame : { s with src := { s.src with origin := some (s.src.origin.getD n) } } = s := by
    rw [hp.origin, Option.getD_some, ← hp.origin]
  rw [hsame, hp.t0, hp.origin] at hrun
  have hw : w.moment = .between := ((runToTick_run hrun).trans (feedLevel_run hfeed)).moment.trans hp.moment
  exact ⟨w, (execFeedAt_between hp.moment).trans (andThen_eq_next.mpr ⟨a, hrun, hfeed⟩),
    betweenOperations_eq_next.mpr ⟨hw, hpoll⟩⟩

/-- A record that is not refused is not before the origin (R285). -/
theorem csvRecord_fromOrigin (hp : CsvPoint start origin s) (h : csvRecord n v s = .next u) : origin ≤ n := by
  have hfrom := (csvRecord_eq_next h).1
  rwa [hp.origin] at hfrom

theorem csvRecord_point (hp : CsvPoint start origin s) (h : csvRecord n v s = .next u) : CsvPoint start origin u := by
  have hsrc := csvRecord_src h
  exact ⟨(csvRecord_run h).moment.trans hp.moment, by rw [hsrc]; exact hp.t0, by rw [hsrc, hp.origin]; rfl⟩

theorem csvRecord_tick_of_point (hp : CsvPoint start origin s) (h : csvRecord n v s = .next u) :
    u.tick = max s.tick (start + (n - origin) / 10) := by
  rw [csvRecord_tick h, hp.t0, hp.origin]
  rfl

/-- What the records of a CSV run leave. -/
structure CsvPlayed (start origin : Nat) (rs : List (Nat × Int)) (s t : State) : Prop where
  operations : ∃ u, playCsv start origin rs s = .next u ∧ t = endRead u
  tick : t.dec.stopped = false → t.tick = (rs.map fun r => start + (r.1 - origin) / 10).foldl max s.tick
  fromOrigin : t.dec.stopped = false → ∀ r ∈ rs, origin ≤ r.1

theorem CsvPlayed.nil (hrunning : s.dec.stopped = false) :
    CsvPlayed start origin [] s (finishRead s.errors.isEmpty s) where
  operations := ⟨s, rfl, (endRead_of_running hrunning).symm⟩
  tick _ := rfl
  fromOrigin _ := nofun

theorem playCsv_cons (hp : CsvPoint start origin s) (h : csvRecord n v s = .next u) :
    playCsv start origin ((n, v) :: rs) s = if u.dec.stopped then .next u else playCsv start origin rs u := by
  obtain ⟨w, hfeed, hpoll⟩ := csvRecord_operations hp h
  rw [playCsv, hfeed, andThen_next, hpoll, andThen_next]

theorem CsvPlayed.stopped (hp : CsvPoint start origin s) (h : csvRecord n v s = .next u)
    (hstopped : u.dec.stopped = true) : CsvPlayed start origin ((n, v) :: rs) s (finishRead false u) where
  operations := ⟨u, by rw [playCsv_cons hp h, if_pos hstopped], (endRead_of_stopped hstopped).symm⟩
  tick hrunning := absurd hstopped (by simpa using hrunning)
  fromOrigin hrunning := absurd hstopped (by simpa using hrunning)

theorem CsvPlayed.cons (hp : CsvPoint start origin s) (h : csvRecord n v s = .next u)
    (hrunning : u.dec.stopped = false) (hrest : CsvPlayed start origin rs u t) :
    CsvPlayed start origin ((n, v) :: rs) s t where
  operations := by rw [playCsv_cons hp h, hrunning]; exact hrest.operations
  tick ht := by rw [hrest.tick ht, csvRecord_tick_of_point hp h, List.map_cons, List.foldl_cons]
  fromOrigin ht := List.forall_mem_cons.mpr ⟨csvRecord_fromOrigin hp h, hrest.fromOrigin ht⟩

theorem csvLoop_played : ∀ {rs : List (Nat × Int)} {s t : State}, CsvPoint start origin s →
    s.dec.stopped = false → csvLoop rs s = .next t → CsvPlayed start origin rs s t
  | [], s, t, _, hrunning, h => by cases h; exact .nil hrunning
  | (n, v) :: rs, s, t, hp, _, h => by
    obtain ⟨u, hrecord, hrest⟩ := andThen_eq_next.mp h
    split at hrest
    next hstopped => cases hrest; exact .stopped hp hrecord hstopped
    next hrunning =>
      have hrunning : u.dec.stopped = false := by simpa using hrunning
      exact .cons hp hrecord hrunning (csvLoop_played (csvRecord_point hp hrecord) hrunning hrest)

/-- A CSV run begun, with the origin that its first record sets (R281, R284). -/
def csvBegun (records : List (Nat × Int)) (s : State) : State :=
  { startRead s with src := { (startRead s).src with origin := records.head?.map Prod.fst } }

/-- The first record sets the origin to its own time, so the run is the same with the origin set before it. -/
theorem csvLoop_csvBegun : ∀ records : List (Nat × Int),
    csvLoop records (csvBegun records s) = csvLoop records (startRead s)
  | [] => rfl
  | (_, _) :: _ => rfl

theorem csvPlayAll_played (hs : s.moment = .between) (h : csvPlayAll records s = .next t) :
    CsvPlayed s.tick (records.headD (0, 0)).1 records (csvBegun records s) t := by
  rw [csvPlayAll, ← csvLoop_csvBegun] at h
  cases records with
  | nil => cases h; exact .nil rfl
  | cons r rs => exact csvLoop_played ⟨hs, rfl, rfl⟩ rfl h

theorem recordsFromOrigin_eq_true (h : ∀ r ∈ records, (records.headD (0, 0)).1 ≤ r.1) :
    recordsFromOrigin records = true := by
  cases records with
  | nil => rfl
  | cons r rs => exact List.all_eq_true.mpr fun x hx => decide_eq_true (h x (List.mem_cons_of_mem r hx))

/-- Settles O46: a list from its origin is played through; one that is not ends, if it ends, where the decoder
stopped. -/
theorem csvPlayOperation : Obligations.CsvPlayOperation := by
  intro records s hs hlegal
  refine ⟨fun hfrom => ?_, fun hbefore t h => ?_⟩
  · obtain ⟨t, h⟩ := csvPlayAll_total hlegal hfrom
    have hrun := csvPlayAll_run h
    obtain ⟨⟨u, hu, rfl⟩, htick, -⟩ := csvPlayAll_played hs h
    exact ⟨u, _, betweenOperations_eq_next.mpr ⟨hs, h⟩, hu, rfl, htick, readRunEnded_endRead u, hrun.tick,
      hrun.moment.trans hs, hrun.snk, hrun.bindings⟩
  · have hplayed := csvPlayAll_played hs (betweenOperations_eq_next.mp h).2
    by_contra hrunning
    have hfrom := recordsFromOrigin_eq_true (hplayed.fromOrigin (by simpa using hrunning))
    rw [hbefore] at hfrom
    cases hfrom

end Csv

section KeepGoing

variable {s t : State}

/-! ### With keep-going the decoder does not stop (R264) -/

theorem compareLeader_stopped (ref : List Byte) (b : Byte) (d : Decoder) :
    (compareLeader ref b d).1.stopped = d.stopped := by
  unfold compareLeader
  split
  · split <;> rfl
  · rfl

theorem compareNext_stopped (hgo : s.dec.keepGoing = true) (ref : List Byte) (b : Byte) :
    (compareNext ref b s).dec.stopped = s.dec.stopped := by
  unfold compareNext
  split
  · rfl
  · dsimp only
    split
    · rfl
    · simp [decoderError, recordError, hgo]

theorem compareByte_stopped (hgo : s.dec.keepGoing = true) (b : Byte) :
    (compareByte b s).dec.stopped = s.dec.stopped := by
  unfold compareByte
  split
  · rfl
  · next ref _ =>
    have hstopped := compareLeader_stopped ref b s.dec
    have hconfig := (compareLeader_config ref b s.dec).1
    split
    · next d hd => rwa [hd] at hstopped
    · next d hd =>
      rw [hd] at hstopped hconfig
      exact (compareNext_stopped (s := { s with dec := d }) (hconfig.trans hgo) ref b).trans hstopped

theorem receiveByte_stopped (hgo : s.dec.keepGoing = true) (h : receiveByte s = .next t) :
    t.dec.stopped = s.dec.stopped := by
  obtain ⟨u, hread, rfl⟩ := receiveByte_eq_next h
  have hdec := (busReadOf_procedures hread).dec
  rw [compareByte_stopped (by rw [← hgo, ← hdec]), hdec]

theorem handleStatus_running {st : Byte} (hgo : s.dec.keepGoing = true) (hrunning : s.dec.stopped = false)
    (h : handleStatus st s = .next t) : t.dec.stopped = false := by
  rw [handleStatus_of_running hrunning, hgo] at h
  simp only [Bool.not_true, Bool.and_false, Bool.false_eq_true, if_false] at h
  split at h
  · cases h; rfl
  · exact receiveByte_stopped (s := afterErrors _ false s) hgo h

theorem pollOnce_running (hgo : s.dec.keepGoing = true) (hrunning : s.dec.stopped = false)
    (h : pollOnce s = .next t) : t.dec.stopped = false := by
  rw [pollOnce, unlessStopped_of_running hrunning] at h
  obtain ⟨u, hread, hstatus⟩ := andThen_eq_next.mp h
  have hdec := (busReadOf_procedures hread).dec
  exact handleStatus_running (hdec ▸ hgo) (hdec ▸ hrunning) hstatus

end KeepGoing

section Wav

variable {bytes : List Byte} {start clockHz m : Nat} {l : Bool} {x : Source} {s t u w : State}

/-! ### One frame -/

theorem sampleTick_zero (clockHz rate : Nat) : sampleTick 0 clockHz rate = 0 := by
  rw [sampleTick, roundDiv, Nat.zero_mul, Nat.mul_zero, Nat.zero_add]
  rcases Nat.eq_zero_or_pos rate with rfl | hrate
  · exact Nat.zero_div _
  · exact Nat.div_eq_of_lt (by omega)

theorem sampleTick_le_succ (k clockHz rate : Nat) : sampleTick k clockHz rate ≤ sampleTick (k + 1) clockHz rate := by
  have hle : k * clockHz ≤ (k + 1) * clockHz := Nat.mul_le_mul_right _ k.le_succ
  exact Nat.div_le_div_right (by omega)

/-- One second of samples takes one second of ticks (R292). -/
theorem sampleTick_one_second {rate : Nat} (hrate : 0 < rate) (clockHz : Nat) :
    sampleTick rate clockHz rate = clockHz := by
  have hsum : 2 * (rate * clockHz) + rate = rate + 2 * rate * clockHz := by ring
  rw [sampleTick, roundDiv, hsum, Nat.add_mul_div_left _ _ (by omega), Nat.div_eq_of_lt (by omega), Nat.zero_add]

/-- The bytes of the frame that is played next. -/
def wavFrame (bytes : List Byte) (s : State) : List Byte :=
  slice bytes (44 + s.src.k * wavBlockAlign bytes) (wavBlockAlign bytes)

/-- Between two frames of a WAV run the clock stands at the tick of the next sample (R281, R290). -/
structure WavPoint (bytes : List Byte) (start clockHz : Nat) (s : State) : Prop where
  moment : s.moment = .between
  t0 : s.src.t0 = start
  clock : s.params.clockHz = clockHz
  tick : s.tick = start + sampleTick s.src.k clockHz (wavSampleRate bytes)

/-- One sample more is consumed (R281). -/
def sampleConsumed (s : State) : State := { s with src := { s.src with k := s.src.k + 1 } }

/-- `w` is what is left of `s` by one frame whose level is `l`: the level is fed, the clock runs to the next sample's
tick, a poll is made (R287, R291). -/
def FramePlayed (bytes : List Byte) (l : Bool) (s w : State) : Prop :=
  ∃ u v, feedLevel l s = .next u ∧
    runToTick (u.src.t0 + sampleTick (u.src.k + 1) u.params.clockHz (wavSampleRate bytes))
      (sampleConsumed u) = .next v ∧
    pollOnce v = .next w

theorem feedLevel_src (h : feedLevel l s = .next u) : u.src = s.src := by rw [(feedLevel_effect h).1.same]

theorem FramePlayed.src (h : FramePlayed bytes l s w) : w.src = { s.src with k := s.src.k + 1 } := by
  obtain ⟨u, v, hfeed, hrun, hpoll⟩ := h
  have hran : v.src = (sampleConsumed u).src := by rw [(runToTick_effect hrun).same]
  rw [(pollOnce_poll hpoll).src, hran, sampleConsumed, feedLevel_src hfeed]

/-- The tick that the clock runs to, by the point at which the frame begins. -/
theorem FramePlayed.parts (hp : WavPoint bytes start clockHz s) (h : FramePlayed bytes l s w) :
    ∃ u v, feedLevel l s = .next u ∧
      runToTick (start + sampleTick (s.src.k + 1) clockHz (wavSampleRate bytes)) (sampleConsumed u) = .next v ∧
      pollOnce v = .next w := by
  obtain ⟨u, v, hfeed, hrun, hpoll⟩ := h
  have htarget : u.src.t0 + sampleTick (u.src.k + 1) u.params.clockHz (wavSampleRate bytes) =
      start + sampleTick (s.src.k + 1) clockHz (wavSampleRate bytes) := by
    rw [(feedLevel_run hfeed).bindings.params, hp.clock, feedLevel_src hfeed, hp.t0]
  exact ⟨u, v, hfeed, htarget ▸ hrun, hpoll⟩

/-- A frame is `FEED` of its level, `RUNTO` the next sample's tick and `POLL`, whatever the source adapter holds: the
host's operations neither read nor write it. -/
theorem FramePlayed.operations (hp : WavPoint bytes start clockHz s) (h : FramePlayed bytes l s w) (x : Source) :
    ∃ u v, exec (.feed l) (withSource x s) = .next (withSource x u) ∧
      exec (.runTo (start + sampleTick (s.src.k + 1) clockHz (wavSampleRate bytes))) (withSource x u) =
        .next (withSource x v) ∧
      exec .poll (withSource x v) = .next (withSource x w) := by
  obtain ⟨u, v, hfeed, hrun, hpoll⟩ := h.parts hp
  have hu : u.moment = .between := (feedLevel_run hfeed).moment.trans hp.moment
  have hv : v.moment = .between := (runToTick_run hrun).moment.trans hu
  exact ⟨u, v, betweenOperations_eq_next.mpr ⟨hp.moment, (feedLevel_hostFree l).sourceFree x s u hfeed⟩,
    betweenOperations_eq_next.mpr ⟨hu, (runToTick_hostFree _).sourceFree x (sampleConsumed u) v hrun⟩,
    betweenOperations_eq_next.mpr ⟨hv, pollOnce_sourceFree x v w hpoll⟩⟩

theorem sampleConsumed_run (s : State) : RunEffect s (sampleConsumed s) :=
  RunEffect.host s s.dec _ s.errors s.outcome s.exitStatus

/-- The clock never runs past the next sample's tick, so a frame ends at it exactly (R290). -/
theorem FramePlayed.point (hp : WavPoint bytes start clockHz s) (h : FramePlayed bytes l s w) :
    WavPoint bytes start clockHz w := by
  obtain ⟨u, v, hfeed, hrun, hpoll⟩ := h.parts hp
  have heffect : RunEffect s w :=
    (((feedLevel_run hfeed).trans (sampleConsumed_run u)).trans (runToTick_run hrun)).trans (pollOnce_run hpoll)
  have hfed : (sampleConsumed u).tick = start + sampleTick s.src.k clockHz (wavSampleRate bytes) :=
    (feedLevel_effect hfeed).1.tick.trans hp.tick
  have htick : w.tick = start + sampleTick (s.src.k + 1) clockHz (wavSampleRate bytes) := by
    rw [(pollOnce_poll hpoll).tick, runToTick_tick hrun, hfed]
    exact max_eq_right (Nat.add_le_add_left (sampleTick_le_succ _ _ _) _)
  exact ⟨heffect.moment.trans hp.moment, by rw [h.src]; exact hp.t0,
    (congrArg Params.clockHz heffect.bindings.params).trans hp.clock, by rw [htick, h.src]⟩

/-- A frame writes the decoder by its poll only. -/
theorem FramePlayed.keepsGoing (h : FramePlayed bytes l s w) (hgo : s.dec.keepGoing = true)
    (hrunning : s.dec.stopped = false) : w.dec.keepGoing = true ∧ w.dec.stopped = false := by
  obtain ⟨u, v, hfeed, hrun, hpoll⟩ := h
  have hfed : u.dec = s.dec := by rw [(feedLevel_effect hfeed).1.same]
  have hran : v.dec = u.dec := by rw [(runToTick_effect hrun).same]; rfl
  have hdec : v.dec = s.dec := hran.trans hfed
  rw [← hdec] at hgo hrunning
  exact ⟨(pollOnce_poll hpoll).config.1.trans hgo, pollOnce_running hgo hrunning hpoll⟩

/-! ### The frames of a run -/

/-- What `m` frames of a WAV run leave, as host operations from `s` with any source adapter `x`. -/
structure WavPlayed (bytes : List Byte) (start clockHz m : Nat) (x : Source) (s t : State) : Prop where
  operations : ∃ u y, playWav bytes start clockHz m s.src.k (withSource x s) = .next u ∧
    t = endRead (withSource y u)
  point : WavPoint bytes start clockHz t
  src : t.src = { s.src with k := t.src.k }
  frames : t.dec.stopped = false → 44 + (s.src.k + m) * wavBlockAlign bytes ≤ bytes.length → t.src.k = s.src.k + m
  keepsGoing : s.dec.keepGoing = true → t.dec.stopped = false

theorem WavPlayed.nil (hp : WavPoint bytes start clockHz s) (hrunning : s.dec.stopped = false) :
    WavPlayed bytes start clockHz 0 x s (finishRead s.errors.isEmpty s) where
  operations := ⟨withSource x s, s.src, rfl, (endRead_of_running hrunning).symm⟩
  point := ⟨hp.moment, hp.t0, hp.clock, hp.tick⟩
  src := rfl
  frames _ _ := rfl
  keepsGoing _ := hrunning

/-- A frame of a stream that is long enough is all there. -/
theorem wavFrame_length (hm : 0 < m) (hlength : 44 + (s.src.k + m) * wavBlockAlign bytes ≤ bytes.length) :
    (wavFrame bytes s).length = wavBlockAlign bytes := by
  have hnext : (s.src.k + 1) * wavBlockAlign bytes ≤ (s.src.k + m) * wavBlockAlign bytes :=
    Nat.mul_le_mul_right _ (by omega)
  rw [Nat.succ_mul] at hnext
  rw [wavFrame, slice, List.length_take, List.length_drop]
  omega

theorem WavPlayed.truncated (hp : WavPoint bytes start clockHz s) (hrunning : s.dec.stopped = false)
    (hshort : (wavFrame bytes s).length < wavBlockAlign bytes) :
    WavPlayed bytes start clockHz (m + 1) x s (finishRead false (recordError (.truncated s.tick) s)) where
  operations := ⟨recordError (.truncated s.tick) (withSource x s), s.src, if_pos hshort,
    (endRead_recordError _ s).symm⟩
  point := ⟨hp.moment, hp.t0, hp.clock, hp.tick⟩
  src := rfl
  frames _ hlength := absurd (wavFrame_length m.succ_pos hlength) hshort.ne
  keepsGoing _ := hrunning

/-- The level of the frame that is played next (R289). -/
def wavLevel (bytes : List Byte) (s : State) : Bool := decide (0 < sampleValue (wavBits bytes) (wavFrame bytes s))

theorem playWav_succ (hp : WavPoint bytes start clockHz s) (hlong : ¬ (wavFrame bytes s).length < wavBlockAlign bytes)
    (h : FramePlayed bytes (wavLevel bytes s) s w) :
    playWav bytes start clockHz (m + 1) s.src.k (withSource x s) =
      if w.dec.stopped then .next (withSource x w) else playWav bytes start clockHz m w.src.k (withSource x w) := by
  obtain ⟨u, v, hfeed, hrun, hpoll⟩ := h.operations hp x
  have hk : w.src.k = s.src.k + 1 := by rw [h.src]
  rw [wavLevel, wavFrame] at hfeed
  simp only [playWav]
  rw [if_neg (by exact hlong), hfeed, andThen_next, hrun, andThen_next, hpoll, andThen_next, hk]
  rfl

theorem WavPlayed.stopped (hp : WavPoint bytes start clockHz s) (hrunning : s.dec.stopped = false)
    (hlong : ¬ (wavFrame bytes s).length < wavBlockAlign bytes) (h : FramePlayed bytes (wavLevel bytes s) s w)
    (hstopped : w.dec.stopped = true) : WavPlayed bytes start clockHz (m + 1) x s (finishRead false w) where
  operations := ⟨withSource x w, w.src, by rw [playWav_succ hp hlong h, if_pos hstopped],
    (endRead_of_stopped hstopped).symm⟩
  point :=
    have hw := h.point hp
    ⟨hw.moment, hw.t0, hw.clock, hw.tick⟩
  src := by rw [finishRead_src, h.src]
  frames hend := absurd hstopped (by simpa using hend)
  keepsGoing hgo := (h.keepsGoing hgo hrunning).2

theorem WavPlayed.succ (hp : WavPoint bytes start clockHz s) (hrunning : s.dec.stopped = false)
    (hlong : ¬ (wavFrame bytes s).length < wavBlockAlign bytes) (h : FramePlayed bytes (wavLevel bytes s) s w)
    (hgoes : w.dec.stopped = false) (hrest : WavPlayed bytes start clockHz m x w t) :
    WavPlayed bytes start clockHz (m + 1) x s t where
  operations := by rw [playWav_succ hp hlong h, hgoes]; exact hrest.operations
  point := hrest.point
  src := by rw [hrest.src, h.src]
  frames hend hlength := by
    have hk : w.src.k = s.src.k + 1 := by rw [h.src]
    have hsum : w.src.k + m = s.src.k + (m + 1) := by omega
    exact (hrest.frames hend (hsum ▸ hlength)).trans hsum
  keepsGoing hgo := hrest.keepsGoing (h.keepsGoing hgo hrunning).1

theorem wavLoop_played (x : Source) : ∀ {m : Nat} {s t : State}, WavPoint bytes start clockHz s →
    s.dec.stopped = false → wavLoop bytes m s = .next t → WavPlayed bytes start clockHz m x s t
  | 0, s, t, hp, hrunning, h => by cases h; exact .nil hp hrunning
  | m + 1, s, t, hp, hrunning, h => by
    rcases wavLoop_succ_eq_next h with ⟨hshort, rfl⟩ | ⟨hlong, u, v, w, hfeed, hrun, hpoll, hrest⟩
    · exact .truncated hp hrunning hshort
    · have hframe : FramePlayed bytes (wavLevel bytes s) s w := ⟨u, v, hfeed, hrun, hpoll⟩
      rcases hrest with ⟨hstopped, rfl⟩ | ⟨hgoes, hrest⟩
      · exact .stopped hp hrunning hlong hframe hstopped
      · exact .succ hp hrunning hlong hframe hgoes (wavLoop_played x (hframe.point hp) hgoes hrest)

/-! ### `WAV_PLAY` -/

/-- A WAV run begun, with the descriptor of its stream (R281). -/
def wavBegun (bytes : List Byte) (s : State) : State :=
  withSource { (startRead s).src with
    descriptor := some ⟨wavChannels bytes, wavSampleRate bytes, wavBits bytes, .littleEndian⟩ } (startRead s)

theorem wavPlayAll_of_short (h : bytes.length < 44) :
    wavPlayAll bytes s = .next (finishRead false (recordError (.truncated s.tick) (startRead s))) := if_pos h

theorem wavPlayAll_of_badHeader (hlength : 44 ≤ bytes.length) (hbad : wavHeaderOk bytes = false) :
    wavPlayAll bytes s = .next (finishRead false (recordError (.unsupportedFormat s.tick) (startRead s))) := by
  simp only [wavPlayAll, if_neg (Nat.not_lt.mpr hlength), hbad]
  rfl

theorem wavPlayAll_of_goodHeader (hlength : 44 ≤ bytes.length) (hok : wavHeaderOk bytes = true) :
    wavPlayAll bytes s = wavLoop bytes (wavDataSize bytes / wavBlockAlign bytes) (wavBegun bytes s) := by
  simp only [wavPlayAll, if_neg (Nat.not_lt.mpr hlength), hok]
  rfl

/-- From a good header the frames that it promises are played, and the adapter may as well hold no descriptor. -/
theorem wavPlayAll_played (hs : s.moment = .between) (hlength : 44 ≤ bytes.length) (hok : wavHeaderOk bytes = true)
    (h : wavPlayAll bytes s = .next t) :
    WavPlayed bytes s.tick s.params.clockHz (wavDataSize bytes / wavBlockAlign bytes) (startRead s).src
      (wavBegun bytes s) t := by
  rw [wavPlayAll_of_goodHeader hlength hok] at h
  have htick : s.tick = s.tick + sampleTick 0 s.params.clockHz (wavSampleRate bytes) := by
    rw [sampleTick_zero, Nat.add_zero]
  exact wavLoop_played _ ⟨hs, rfl, rfl, htick⟩ rfl h

/-- However a WAV run ends, it ends as a read run does. -/
theorem wavPlayAll_ended (hs : s.moment = .between) (h : wavPlayAll bytes s = .next t) : ReadRunEnded t := by
  rcases Nat.lt_or_ge bytes.length 44 with hshort | hlength
  · rw [wavPlayAll_of_short hshort, ← endRead_recordError] at h
    cases h
    exact readRunEnded_endRead _
  cases hok : wavHeaderOk bytes with
  | false =>
    rw [wavPlayAll_of_badHeader hlength hok, ← endRead_recordError] at h
    cases h
    exact readRunEnded_endRead _
  | true =>
    obtain ⟨u, y, -, rfl⟩ := (wavPlayAll_played hs hlength hok h).operations
    exact readRunEnded_endRead _

/-- A rejected stream: its error is recorded, and nothing of the block or of the capture unit moves (R294). -/
structure WavRejected (e : HostError) (s t : State) : Prop where
  errors : t.errors = [e]
  outcome : t.outcome = some false
  exitStatus : t.exitStatus = some 1
  calls : t.calls = s.calls
  tick : t.tick = s.tick
  csr : t.csr = s.csr
  fwst : t.fwst = s.fwst
  capture : CaptureKept s t

theorem wavRejected (e : HostError) (s : State) : WavRejected e s (finishRead false (recordError e (startRead s))) :=
  ⟨rfl, rfl, rfl, rfl, rfl, rfl, rfl, rfl, rfl⟩

theorem wavPlayAll_short_rejected (hshort : bytes.length < 44) (h : wavPlayAll bytes s = .next t) :
    WavRejected (.truncated s.tick) s t := by
  rw [wavPlayAll_of_short hshort] at h
  cases h
  exact wavRejected _ s

theorem wavPlayAll_badHeader_rejected (hlength : 44 ≤ bytes.length) (hbad : wavHeaderOk bytes = false)
    (h : wavPlayAll bytes s = .next t) : WavRejected (.unsupportedFormat s.tick) s t := by
  rw [wavPlayAll_of_badHeader hlength hbad] at h
  cases h
  exact wavRejected _ s

/-- Settles O47: the two rejections, and the frames of a good header. -/
theorem wavPlayOperation : Obligations.WavPlayOperation := by
  intro bytes s hs hlegal
  obtain ⟨t, h⟩ := wavPlayAll_total (bytes := bytes) hlegal
  have hrun := wavPlayAll_run h
  refine ⟨t, betweenOperations_eq_next.mpr ⟨hs, h⟩, fun hshort => (wavPlayAll_short_rejected hshort h).errors,
    fun hlength hbad => (wavPlayAll_badHeader_rejected hlength hbad h).errors, fun hrejected => ?_,
    fun hlength hok => ?_, wavPlayAll_ended hs h, hrun.tick, hrun.moment.trans hs, hrun.snk, hrun.bindings⟩
  · have hsome : ∃ e, WavRejected e s t := by
      rcases Nat.lt_or_ge bytes.length 44 with hshort | hlength
      · exact ⟨_, wavPlayAll_short_rejected hshort h⟩
      · exact ⟨_, wavPlayAll_badHeader_rejected hlength (hrejected.resolve_left (Nat.not_lt.mpr hlength)) h⟩
    obtain ⟨e, -, houtcome, hexit, hcalls, htick, hcsr, hfwst, hcapture⟩ := hsome
    exact ⟨houtcome, hexit, hcalls, htick, hcsr, hfwst, hcapture⟩
  · have hplayed := wavPlayAll_played hs hlength hok h
    have hsrc := hplayed.src
    obtain ⟨u, y, hu, rfl⟩ := hplayed.operations
    exact ⟨u, hu, rfl, by rw [hsrc]; rfl, by rw [hsrc]; rfl, by rw [hsrc]; rfl⟩

theorem wavSampleRate_pos (hok : wavHeaderOk bytes = true) : 0 < wavSampleRate bytes := by
  rw [wavHeaderOk, Bool.and_eq_true, bne_iff_ne] at hok
  exact Nat.pos_of_ne_zero hok.2

/-- Settles O48: with every frame present all are played, and the clock stands where the last leaves it. -/
theorem wavPlayClock : Obligations.WavPlayClock := by
  intro bytes s hs hlegal hok frames hlength
  obtain ⟨t, h⟩ := wavPlayAll_total (bytes := bytes) hlegal
  have hplayed := wavPlayAll_played hs (by omega) hok h
  refine ⟨t, betweenOperations_eq_next.mpr ⟨hs, h⟩, hplayed.keepsGoing, fun hrunning => ?_⟩
  have hstart : (wavBegun bytes s).src.k + frames = frames := Nat.zero_add _
  have hk : t.src.k = frames := (hplayed.frames hrunning (by rw [hstart]; exact hlength)).trans hstart
  have htick : t.tick = s.tick + sampleTick frames s.params.clockHz (wavSampleRate bytes) := by
    rw [hplayed.point.tick, hk]
  refine ⟨htick, hk, fun hsecond => ?_, (wavPlayAll_ended hs h).outcome hrunning⟩
  rw [htick, hsecond, sampleTick_one_second (wavSampleRate_pos hok)]

end Wav

end Sys2Proof.Proofs
end

section
/-! PROOFS. Family 47_audio_sink_resampler: the filter (O54), and a sink run (O51, O52, O60). A run is its passes: the
points between them are computed by the host operations alone, so the levels of the output, which the stuck detector,
the filter and the samples depend on, are known beforehand. One invariant says what the sink's state is at each point;
it holds at the start, each pass keeps it, and how a run ends is read off it. -/

namespace Sys2Proof.Proofs

open Sys2Proof Sys2Proof.Machine Sys2Proof.Claims

/-! ### The filter -/

/-- Settles O54: the sign of the sum decides which way the fraction is dropped. -/
theorem filterTowardZero : Obligations.FilterTowardZero := by
  intro p level hlow hhigh x y
  obtain ⟨hylow, hyhigh⟩ := filterValue_bounded (p := p) level ⟨hlow, hhigh⟩
  have hylow' : -120 ≤ y := hylow
  have hyhigh' : y ≤ 120 := hyhigh
  have hbyte := toNat_sampleByte (v := y) (by omega) (by omega)
  have hdiv : (0 ≤ x ∧ y = x / 3) ∨ (x < 0 ∧ y = -(-x / 3)) := tdiv_three x
  clear_value x y
  omega

section Grid

variable {k m clockHz rate : Nat}

/-! ### The grid of the output samples -/

theorem sampleTick_mono (clockHz rate : Nat) : Monotone fun k => sampleTick k clockHz rate :=
  monotone_nat_of_le_succ fun k => sampleTick_le_succ k clockHz rate

/-- The samples of `m` seconds of the rate, at a positive clock, take `m` ticks at least (R326). -/
theorem le_sampleTick (hclock : 0 < clockHz) (hrate : 0 < rate) (hk : rate * m ≤ k) :
    m ≤ sampleTick k clockHz rate := by
  rw [sampleTick, roundDiv, Nat.le_div_iff_mul_le (by omega)]
  calc m * (2 * rate) = 2 * (rate * m) := by ring
    _ ≤ 2 * k := Nat.mul_le_mul_left 2 hk
    _ ≤ 2 * (k * clockHz) := Nat.mul_le_mul_left 2 (Nat.le_mul_of_pos_right k hclock)
    _ ≤ 2 * (k * clockHz) + rate := Nat.le_add_right _ _

end Grid

section Emit

variable {s : State}

/-! ### `EMIT` -/

/-- `s` with `m` further samples of the filter's value. -/
def emitted (m : Nat) (s : State) : State :=
  { s with snk := { s.snk with
      samples := s.snk.samples ++ List.replicate m (sampleByte s.snk.prev), n := s.snk.n + m } }

theorem emitted_zero (s : State) : emitted 0 s = s := by simp [emitted]

theorem emitted_succ (m : Nat) (s : State) : emitted (m + 1) s = emitted m (emitted 1 s) := by
  simp [emitted, List.replicate_succ, Nat.add_assoc, Nat.add_comm 1 m]

/-- The tick of sample `j` of the run. -/
def sampleDue (s : State) (j : Nat) : Nat := s.snk.t0 + sampleTick j s.params.clockHz Config.outRate

/-- The loop of `EMIT` writes the samples due, until the next is not due or the passes are used up (R322). -/
theorem emitLoop_eq_emitted : ∀ (fuel : Nat) (s : State), ∃ m, emitLoop fuel s = emitted m s ∧
    (∀ j, j < m → sampleDue s (s.snk.n + j) ≤ s.tick) ∧ (m = fuel ∨ s.tick < sampleDue s (s.snk.n + m))
  | 0, s => ⟨0, (emitted_zero s).symm, nofun, .inl rfl⟩
  | fuel + 1, s => by
    by_cases hdue : sampleDue s s.snk.n ≤ s.tick
    · obtain ⟨m, hloop, hbefore, hend⟩ := emitLoop_eq_emitted fuel (emitted 1 s)
      refine ⟨m + 1, (if_pos hdue).trans (hloop.trans (emitted_succ m s).symm), fun j hj => ?_, ?_⟩
      · cases j with
        | zero => exact hdue
        | succ j => rw [Nat.add_comm j 1, ← Nat.add_assoc]; exact hbefore j (by omega)
      · rw [Nat.add_comm m 1, ← Nat.add_assoc, Nat.add_comm fuel 1]
        exact hend.imp_left (congrArg (1 + ·))
    · exact ⟨0, (if_neg hdue).trans (emitted_zero s).symm, nofun, .inr (Nat.lt_of_not_le hdue)⟩

/-- `EMIT` writes the samples due and stops at the first that is not: at a positive clock the passes are enough. -/
theorem emitSamples_eq_emitted (hclock : 0 < s.params.clockHz) :
    ∃ m, emitSamples s = emitted m s ∧ (∀ j, j < m → sampleDue s (s.snk.n + j) ≤ s.tick) ∧
      s.tick < sampleDue s (s.snk.n + m) := by
  obtain ⟨m, hloop, hbefore, hend⟩ := emitLoop_eq_emitted (Config.outRate * (s.tick + 1 - s.snk.t0)) s
  refine ⟨m, hloop, hbefore, hend.elim (fun hm => ?_) id⟩
  have henough := le_sampleTick (rate := Config.outRate) hclock (by decide)
    (show Config.outRate * (s.tick + 1 - s.snk.t0) ≤ s.snk.n + m by omega)
  rw [sampleDue]
  omega

end Emit

section Levels

variable {level : Nat → Bool} {c d i start : Nat}

/-! ### The stuck detector -/

/-- The last change of level up to tick `i` came with tick `c + 1` (R318). -/
structure LastChanged (level : Nat → Bool) (c i : Nat) : Prop where
  changed : level c ≠ level (c + 1)
  still : ∀ m, c + 1 ≤ m → m ≤ i → level m = level (c + 1)

theorem stuckAt_iff : StuckAt level i ↔ ∃ c, LastChanged level c i ∧ c + 1 + 1250 < i :=
  ⟨fun ⟨c, hchanged, hstill, hlong⟩ => ⟨c, ⟨hchanged, hstill⟩, hlong⟩,
    fun ⟨c, ⟨hchanged, hstill⟩, hlong⟩ => ⟨c, hchanged, hstill, hlong⟩⟩

theorem LastChanged.not_lt (hc : LastChanged level c i) (hd : LastChanged level d i) (hi : d + 1 ≤ i) : ¬ c < d := by
  intro hlt
  exact hd.changed ((hc.still d (by omega) (by omega)).trans (hc.still (d + 1) (by omega) hi).symm)

theorem LastChanged.unique (hc : LastChanged level c i) (hd : LastChanged level d i) (hci : c + 1 ≤ i)
    (hdi : d + 1 ≤ i) : c = d :=
  Nat.le_antisymm (Nat.le_of_not_lt (hd.not_lt hc hci)) (Nat.le_of_not_lt (hc.not_lt hd hdi))

/-- What the stuck detector has noted after tick `i` of a run that began at `start` (R318). -/
structure LevelNoted (level : Nat → Bool) (start i : Nat) (k : Sink) : Prop where
  last : k.lastLevel = level i
  constant : k.toggled = false → ∀ m, m ≤ i → level m = level 0
  changed : k.toggled = true → ∃ c, c + 1 ≤ i ∧ k.lastChange = start + (c + 1) ∧ LastChanged level c i

theorem LastChanged.succ (h : LastChanged level c i) (hci : c + 1 ≤ i) (hsame : level (i + 1) = level i) :
    LastChanged level c (i + 1) where
  changed := h.changed
  still m hcm hm := by
    rcases Nat.le_or_eq_of_le_succ hm with hm | rfl
    · exact h.still m hcm hm
    · exact hsame.trans (h.still i hci le_rfl)

theorem trackLevel_of_eq {w : State} (h : w.oc2a = w.snk.lastLevel) : trackLevel w = w := if_pos h

theorem trackLevel_of_ne {w : State} (h : w.oc2a ≠ w.snk.lastLevel) :
    trackLevel w = { w with snk := { w.snk with lastLevel := w.oc2a, lastChange := w.tick, toggled := true } } :=
  if_neg h

theorem outputStuck_iff {w : State} : outputStuck w = true ↔
    w.oc2a = w.snk.lastLevel ∧ w.snk.toggled = true ∧ 1250 < w.tick - w.snk.lastChange := by
  rw [outputStuck, Bool.and_eq_true, Bool.and_eq_true, beq_iff_eq, decide_eq_true_eq, and_assoc]
  rfl

/-- The verdict at the next tick is that of R318 on the levels. -/
theorem LevelNoted.stuck_iff {w : State} (h : LevelNoted level start i w.snk) (htick : w.tick = start + (i + 1))
    (hlevel : w.oc2a = level (i + 1)) : outputStuck w = true ↔ StuckAt level (i + 1) := by
  rw [outputStuck_iff, stuckAt_iff, hlevel, h.last]
  constructor
  · rintro ⟨hsame, htoggled, hlong⟩
    obtain ⟨c, hci, hchange, hlast⟩ := h.changed htoggled
    exact ⟨c, hlast.succ hci hsame, by omega⟩
  · rintro ⟨c, hlast, hlong⟩
    have hlast' : LastChanged level c i := ⟨hlast.changed, fun m hcm hm => hlast.still m hcm (by omega)⟩
    have htoggled : w.snk.toggled = true := by
      by_contra hnot
      have hconstant := h.constant (Bool.eq_false_iff.mpr hnot)
      exact hlast.changed ((hconstant c (by omega)).trans (hconstant (c + 1) (by omega)).symm)
    obtain ⟨d, hdi, hchange, hlastd⟩ := h.changed htoggled
    have hcd := hlast'.unique hlastd (by omega) hdi
    exact ⟨(hlast.still (i + 1) (by omega) le_rfl).trans (hlast.still i (by omega) (by omega)).symm, htoggled, by omega⟩

/-- What is noted of the level at the next tick. -/
theorem LevelNoted.track {w : State} (h : LevelNoted level start i w.snk) (htick : w.tick = start + (i + 1))
    (hlevel : w.oc2a = level (i + 1)) : LevelNoted level start (i + 1) (trackLevel w).snk := by
  by_cases hsame : w.oc2a = w.snk.lastLevel
  · rw [trackLevel_of_eq hsame]
    have hnext : level (i + 1) = level i := by rw [← hlevel, hsame, h.last]
    refine ⟨h.last.trans hnext.symm, fun hnot m hm => ?_, fun htoggled => ?_⟩
    · rcases Nat.le_or_eq_of_le_succ hm with hm | rfl
      · exact h.constant hnot m hm
      · exact hnext.trans (h.constant hnot i le_rfl)
    · obtain ⟨c, hci, hchange, hlast⟩ := h.changed htoggled
      exact ⟨c, by omega, hchange, hlast.succ hci hnext⟩
  · rw [trackLevel_of_ne hsame]
    have hchanged : level i ≠ level (i + 1) := by rw [← hlevel, ← h.last]; exact Ne.symm hsame
    refine ⟨hlevel, nofun, fun _ => ⟨i, le_rfl, htick, hchanged, fun m hlow hhigh => ?_⟩⟩
    rw [Nat.le_antisymm hhigh hlow]

theorem not_stuckAt_zero : ¬ StuckAt level 0 := by
  rintro ⟨c, -, -, hlong⟩
  omega

end Levels

section Samples

variable {level : Nat → Bool} {clockHz i m : Nat} {samples : List Byte}

/-! ### The samples of a run -/

/-- The samples of the ticks before tick `i` of a run are written, each the filter's value after its tick (R322). -/
structure SamplesBefore (level : Nat → Bool) (clockHz i : Nat) (samples : List Byte) : Prop where
  count : ∀ j, j < samples.length ↔ sampleTick j clockHz 48000 < i
  value : ∀ j b, samples[j]? = some b → b = sampleByte (filterAfter level (sampleTick j clockHz 48000))

theorem SamplesBefore.nil : SamplesBefore level clockHz 0 [] := ⟨by simp, by simp⟩

/-- The samples due at tick `i` take the filter's value after it. -/
theorem SamplesBefore.emit (h : SamplesBefore level clockHz i samples)
    (hdue : ∀ j, j < m → sampleTick (samples.length + j) clockHz 48000 ≤ i)
    (hnext : i < sampleTick (samples.length + m) clockHz 48000) :
    SamplesBefore level clockHz (i + 1) (samples ++ List.replicate m (sampleByte (filterAfter level i))) where
  count j := by
    rw [List.length_append, List.length_replicate]
    constructor
    · intro hj
      rcases Nat.lt_or_ge j samples.length with hold | hnew
      · exact Nat.lt_succ_of_lt ((h.count j).mp hold)
      · have := hdue (j - samples.length) (by omega)
        rw [Nat.add_sub_cancel' hnew] at this
        omega
    · intro hj
      by_contra hge
      have : sampleTick (samples.length + m) clockHz 48000 ≤ sampleTick j clockHz 48000 :=
        sampleTick_mono clockHz 48000 (Nat.le_of_not_lt hge)
      omega
  value j b hb := by
    rcases Nat.lt_or_ge j samples.length with hold | hnew
    · rw [List.getElem?_append_left hold] at hb
      exact h.value j b hb
    · rw [List.getElem?_append_right hnew, List.getElem?_replicate] at hb
      obtain ⟨hj, rfl⟩ := Option.ite_some_none_eq_some.mp hb
      have hlow := mt (h.count j).mpr (by omega)
      have hhigh := hdue (j - samples.length) hj
      rw [Nat.add_sub_cancel' hnew] at hhigh
      rw [Nat.le_antisymm hhigh (Nat.le_of_not_lt hlow)]

end Samples

section Pass

variable {s t u v w : State} {data : List Byte} {leaderEnd sent : Nat} {a b : SinkPoint} {x : Byte}

/-! ### A pass as host operations -/

/-- The byte that a pass writes after the status read that left `u`: there is room, the leader is over, a byte is left
(R313). -/
def byteToSend (data : List Byte) (leaderEnd sent : Nat) (u : State) : Option Byte :=
  if u.hostResult.getLsbD (TxBusyBit.position u.params.txBusyBit) = false ∧ leaderEnd ≤ u.tick then data[sent]?
  else none

/-- The state an operation leaves. -/
def stateAfter (i : Instr) (s : State) : State :=
  match exec i s with
  | .next t => t
  | _ => s

theorem stateAfter_of_next {i : Instr} (h : exec i s = .next t) : stateAfter i s = t := by rw [stateAfter, h]

/-- The point after a pass, computed: the operations have one outcome each. -/
def nextPoint (data : List Byte) (leaderEnd : Nat) (a : SinkPoint) : SinkPoint :=
  let u := stateAfter (.rd .control) a.state
  match byteToSend data leaderEnd a.sent u with
  | some x => ⟨stateAfter .step (stateAfter (.wr .data x) u), a.sent + 1, u.tick + u.params.clockHz⟩
  | none => ⟨stateAfter .step u, a.sent, a.bound⟩

theorem sinkPass_of_some (ha : a.state.tick < a.bound) (hread : exec (.rd .control) a.state = .next u)
    (hbyte : byteToSend data leaderEnd a.sent u = some x) (hwrite : exec (.wr .data x) u = .next v)
    (hstep : exec .step v = .next t) :
    SinkPass data leaderEnd a ⟨t, a.sent + 1, u.tick + u.params.clockHz⟩ := by
  refine ⟨ha, u, v, hread, hstep, ?_⟩
  rw [byteToSend] at hbyte
  rw [hbyte]
  exact ⟨hwrite, rfl, rfl⟩

theorem sinkPass_of_none (ha : a.state.tick < a.bound) (hread : exec (.rd .control) a.state = .next u)
    (hbyte : byteToSend data leaderEnd a.sent u = none) (hstep : exec .step u = .next t) :
    SinkPass data leaderEnd a ⟨t, a.sent, a.bound⟩ := by
  refine ⟨ha, u, u, hread, hstep, ?_⟩
  rw [byteToSend] at hbyte
  rw [hbyte]
  exact ⟨rfl, rfl, rfl⟩

theorem nextPoint_of_sinkPass (h : SinkPass data leaderEnd a b) : nextPoint data leaderEnd a = b := by
  obtain ⟨-, u, v, hread, hstep, hsend⟩ := h
  rw [nextPoint, stateAfter_of_next hread]
  cases hbyte : byteToSend data leaderEnd a.sent u with
  | some x =>
    rw [byteToSend] at hbyte
    rw [hbyte] at hsend
    obtain ⟨hwrite, hsent, hbound⟩ := hsend
    simp only [stateAfter_of_next hwrite, stateAfter_of_next hstep, ← hsent, ← hbound]
  | none =>
    rw [byteToSend] at hbyte
    rw [hbyte] at hsend
    obtain ⟨rfl, hsent, hbound⟩ := hsend
    simp only [stateAfter_of_next hstep, ← hsent, ← hbound]

/-! ### A pass of the loop -/

/-- A pass of the loop of `SINK_RUN` from `s`, up to its `STEP` (R312): the status read leaves `u`, the write of the
next byte `v`, the `STEP` `w`. -/
structure PassMade (s u v w : State) : Prop where
  before : s.tick < s.snk.endTime
  read : busReadOf .control s = .next u
  send : whenDo (statusHasRoom u.params u.hostResult) sendNext u = .next v
  step : stepTick v = .next w

/-- A byte sent is noted: the position, and the bound one second after this tick (R314). -/
def byteSent (s : State) : State :=
  { s with snk := { s.snk with pos := s.snk.pos + 1, endTime := s.tick + s.params.clockHz } }

/-- What a pass does after the status read (R313). -/
theorem whenDo_sendNext_cases (h : whenDo (statusHasRoom u.params u.hostResult) sendNext u = .next v) :
    (∃ x y, byteToSend u.snk.data u.snk.leaderEnd u.snk.pos u = some x ∧ busWriteOf .data x u = .next y ∧
      v = byteSent y) ∨
    (byteToSend u.snk.data u.snk.leaderEnd u.snk.pos u = none ∧ v = u) := by
  unfold byteToSend
  rcases whenDo_eq_next.mp h with ⟨hroom, hsend⟩ | ⟨hfull, rfl⟩
  · rw [statusHasRoom, Bool.not_eq_true'] at hroom
    rcases sendNext_eq_next hsend with ⟨hleader | hnone, rfl⟩ | ⟨hleader, x, y, hx, hwrite, rfl⟩
    · exact .inr ⟨if_neg (by omega), rfl⟩
    · exact .inr ⟨by rw [hnone, ite_self], rfl⟩
    · exact .inl ⟨x, y, (if_pos ⟨hroom, hleader⟩).trans hx, hwrite, rfl⟩
  · rw [statusHasRoom, Bool.not_eq_false'] at hfull
    exact .inr ⟨if_neg (by simp [hfull]), rfl⟩

/-- The point at which a run stands: the machine as its host operations leave it, with the host's own state `p`. -/
def sinkPoint (p : HostPart) (s : State) : SinkPoint := ⟨withHost p s, s.snk.pos, s.snk.endTime⟩

/-- What the parts of a sink run carry along besides the sink's state. -/
structure Carried (s t : State) : Prop where
  moment : t.moment = s.moment
  params : t.params = s.params
  dec : t.dec = s.dec
  src : t.src = s.src
  errors : t.errors = s.errors

theorem Carried.trans (h : Carried s t) (k : Carried t u) : Carried s u :=
  ⟨k.moment.trans h.moment, k.params.trans h.params, k.dec.trans h.dec, k.src.trans h.src, k.errors.trans h.errors⟩

theorem hostEffect_carried (h : HostEffect s t) : Carried s t := by rw [h.same]; exact ⟨rfl, rfl, rfl, rfl, rfl⟩

theorem hostEffect_snk (h : HostEffect s t) : t.snk = s.snk := by rw [h.same]

theorem stepEffect_carried (h : StepEffect s t) : Carried s t := by rw [h.same]; exact ⟨rfl, rfl, rfl, rfl, rfl⟩

theorem byteSent_carried (s : State) : Carried s (byteSent s) := ⟨rfl, rfl, rfl, rfl, rfl⟩

theorem PassMade.send_cases (h : PassMade s u v w) :
    (∃ x y, byteToSend s.snk.data s.snk.leaderEnd s.snk.pos u = some x ∧ busWriteOf .data x u = .next y ∧
      v = byteSent y) ∨
    (byteToSend s.snk.data s.snk.leaderEnd s.snk.pos u = none ∧ v = u) := by
  rw [← hostEffect_snk (busReadOf_effect h.read).1]
  exact whenDo_sendNext_cases h.send

/-- What a pass leaves (R312): the tick is one more, and of the sink's state only the bytes sent and the bound are
written, these if a byte was sent (R314). -/
structure PassEffect (s w : State) : Prop where
  carried : Carried s w
  tick : w.tick = s.tick + 1
  snk : w.snk = { s.snk with pos := w.snk.pos, endTime := w.snk.endTime }
  sent : (w.snk.pos = s.snk.pos ∧ w.snk.endTime = s.snk.endTime) ∨
    (s.snk.pos < s.snk.data.length ∧ w.snk.pos = s.snk.pos + 1 ∧ w.snk.endTime = s.tick + s.params.clockHz)

theorem pos_lt_of_byteToSend (h : byteToSend data leaderEnd sent u = some x) : sent < data.length := by
  unfold byteToSend at h
  split at h
  · exact (List.getElem?_eq_some_iff.mp h).1
  · cases h

theorem PassMade.effect (h : PassMade s u v w) : PassEffect s w := by
  have hread := (busReadOf_effect h.read).1
  have hstep := stepEffect_carried (stepTick_effect h.step)
  have hsnk : w.snk = v.snk := (stepEffect_host (stepTick_effect h.step)).1.snk
  rcases h.send_cases with ⟨x, y, hbyte, hwrite, rfl⟩ | ⟨-, rfl⟩
  · have hy := hread.trans (busWriteOf_effect hwrite).1
    have hcarried := hostEffect_carried hy
    have hw : w.snk = { s.snk with pos := s.snk.pos + 1, endTime := s.tick + s.params.clockHz } := by
      rw [hsnk, byteSent, hostEffect_snk hy, hy.tick, hcarried.params]
    refine ⟨(hcarried.trans (byteSent_carried y)).trans hstep, ?_, by rw [hw],
      .inr ⟨pos_lt_of_byteToSend hbyte, by rw [hw], by rw [hw]⟩⟩
    rw [stepTick_tick h.step]
    exact congrArg (· + 1) hy.tick
  · have hw : w.snk = s.snk := hsnk.trans (hostEffect_snk hread)
    exact ⟨(hostEffect_carried hread).trans hstep, by rw [stepTick_tick h.step, hread.tick], by rw [hw],
      .inl ⟨by rw [hw], by rw [hw]⟩⟩

/-- The operations of a pass do the same whatever the host's own state is. -/
theorem PassMade.sinkPass (h : PassMade s u v w) (hs : s.moment = .between) (p : HostPart) :
    SinkPass s.snk.data s.snk.leaderEnd (sinkPoint p s) (sinkPoint p w) := by
  have hread := (busReadOf_effect h.read).1
  have hbetween : u.moment = .between := hread.moment.trans hs
  have hrd : exec (.rd .control) (withHost p s) = .next (withHost p u) :=
    exec_rd_eq_next.mpr ⟨hs, busReadOf_hostFree _ p _ _ h.read⟩
  have hsnk : w.snk = v.snk := (stepEffect_host (stepTick_effect h.step)).1.snk
  have hstep := stepTick_hostFree p _ _ h.step
  rcases h.send_cases with ⟨x, y, hbyte, hwrite, rfl⟩ | ⟨hbyte, rfl⟩
  · have hy := (busWriteOf_effect hwrite).1
    have hpoint : sinkPoint p w = ⟨withHost p w, s.snk.pos + 1, u.tick + u.params.clockHz⟩ := by
      rw [sinkPoint, hsnk, byteSent, hostEffect_snk (hread.trans hy), hy.tick, (hostEffect_carried hy).params]
    rw [hpoint]
    exact sinkPass_of_some (a := sinkPoint p s) (u := withHost p u) (v := withHost p y) h.before hrd hbyte
      (betweenOperations_eq_next.mpr ⟨hbetween, busWriteOf_hostFree _ _ p _ _ hwrite⟩)
      (betweenOperations_eq_next.mpr ⟨hy.moment.trans hbetween, hstep⟩)
  · have hpoint : sinkPoint p w = ⟨withHost p w, s.snk.pos, s.snk.endTime⟩ := by
      rw [sinkPoint, hsnk, hostEffect_snk hread]
    rw [hpoint]
    exact sinkPass_of_none (a := sinkPoint p s) (u := withHost p v) h.before hrd hbyte
      (betweenOperations_eq_next.mpr ⟨hbetween, hstep⟩)

end Pass

section Run

variable {s₀ s t u v w : State} {data : List Byte} {last i k : Nat} {ok : Bool}

/-! ### The points of a run -/

/-- The host's own state. -/
def hostOf (s : State) : HostPart := ⟨s.dec, s.src, s.snk, s.errors, s.outcome, s.exitStatus⟩

/-- The end of the leader of a run begun in `s` (R311). -/
def leaderEndOf (s : State) : Nat := s.tick + 3 * s.params.clockHz + s.params.leaderOffset

/-- The points of a run begun in `s`, one per tick. -/
def sinkPoints (data : List Byte) (s : State) : Nat → SinkPoint
  | 0 => ⟨s, 0, leaderEndOf s + s.params.idleTimeout⟩
  | i + 1 => nextPoint data (leaderEndOf s) (sinkPoints data s i)

/-- The levels of the output at these points. -/
def sinkLevel (data : List Byte) (s : State) (i : Nat) : Bool := (sinkPoints data s i).state.oc2a

/-- After `i` passes of a run begun in `s₀` the machine is in `s`: at point `i` but for the host's own state, of which
all but the sink's state is as at the start (R311 to R314). -/
structure SinkAt (data : List Byte) (s₀ : State) (i : Nat) (s : State) : Prop where
  point : sinkPoints data s₀ i = sinkPoint (hostOf s₀) s
  passes : ∀ j, j < i → SinkPass data (leaderEndOf s₀) (sinkPoints data s₀ j) (sinkPoints data s₀ (j + 1))
  moment : s.moment = .between
  tick : s.tick = s₀.tick + i
  params : s.params = s₀.params
  dec : s.dec = s₀.dec
  src : s.src = s₀.src
  errors : s.errors = []
  pos : s.snk.pos ≤ data.length
  data : s.snk.data = data
  leaderEnd : s.snk.leaderEnd = leaderEndOf s₀
  start : s.snk.t0 = s₀.tick

theorem SinkAt.level (h : SinkAt data s₀ i s) : s.oc2a = sinkLevel data s₀ i := by
  rw [sinkLevel, h.point]
  rfl

theorem sinkAt_start (data : List Byte) (hs : s.moment = .between) : SinkAt data s 0 (startSink data s) where
  point := rfl
  passes := nofun
  moment := hs
  tick := rfl
  params := rfl
  dec := rfl
  src := rfl
  errors := rfl
  data := rfl
  leaderEnd := rfl
  start := rfl
  pos := Nat.zero_le _

/-- A pass leads from a point to the next. -/
theorem SinkAt.pass (h : SinkAt data s₀ i s) (hp : PassMade s u v w) : SinkAt data s₀ (i + 1) w := by
  obtain ⟨hcarried, htick, hsnk, hsent⟩ := hp.effect
  have hpass := hp.sinkPass h.moment (hostOf s₀)
  rw [h.data, h.leaderEnd, ← h.point] at hpass
  have hpoint : sinkPoints data s₀ (i + 1) = sinkPoint (hostOf s₀) w := nextPoint_of_sinkPass hpass
  have hlength : s.snk.data.length = data.length := congrArg List.length h.data
  have hpos := h.pos
  exact {
    point := hpoint
    passes := fun j hj => by
      rcases Nat.lt_succ_iff_lt_or_eq.mp hj with hj | rfl
      · exact h.passes j hj
      · rw [hpoint]; exact hpass
    moment := hcarried.moment.trans h.moment
    tick := by rw [htick, h.tick]; rfl
    params := hcarried.params.trans h.params
    dec := hcarried.dec.trans h.dec
    src := hcarried.src.trans h.src
    errors := hcarried.errors.trans h.errors
    data := by rw [hsnk]; exact h.data
    leaderEnd := by rw [hsnk]; exact h.leaderEnd
    start := by rw [hsnk]; exact h.start
    pos := by omega }

/-- What the sink notes of the output does not move the run. -/
theorem SinkAt.note (h : SinkAt data s₀ i s) {k : Sink} (hk : k.data = s.snk.data ∧ k.leaderEnd = s.snk.leaderEnd ∧
    k.t0 = s.snk.t0 ∧ k.pos = s.snk.pos ∧ k.endTime = s.snk.endTime) : SinkAt data s₀ i { s with snk := k } := by
  obtain ⟨hdata, hleader, hstart, hpos, hend⟩ := hk
  exact {
    point := by rw [h.point, sinkPoint, ← hpos, ← hend]; rfl
    passes := h.passes
    moment := h.moment
    tick := h.tick
    params := h.params
    dec := h.dec
    src := h.src
    errors := h.errors
    data := hdata.trans h.data
    leaderEnd := hleader.trans h.leaderEnd
    start := hstart.trans h.start
    pos := hpos.trans_le h.pos }

/-- The detector does not touch the filter and the samples. -/
theorem trackLevel_output (s : State) : (trackLevel s).snk.prev = s.snk.prev ∧
    (trackLevel s).snk.samples = s.snk.samples ∧ (trackLevel s).snk.n = s.snk.n := by
  unfold trackLevel
  split <;> exact ⟨rfl, rfl, rfl⟩

theorem SinkAt.track (h : SinkAt data s₀ i s) : SinkAt data s₀ i (trackLevel s) := by
  by_cases hsame : s.oc2a = s.snk.lastLevel
  · rw [trackLevel_of_eq hsame]; exact h
  · rw [trackLevel_of_ne hsame]; exact h.note ⟨rfl, rfl, rfl, rfl, rfl⟩

/-! ### The invariant of a run -/

/-- A sink run after `i` passes: the machine, and what the sink has noted of the output, with the samples before tick
`k` written (R318 to R322). It has not been stuck. -/
structure SinkRunning (data : List Byte) (s₀ : State) (i k : Nat) (s : State) : Prop where
  machine : SinkAt data s₀ i s
  noted : LevelNoted (sinkLevel data s₀) s₀.tick i s.snk
  filter : s.snk.prev = filterAfter (sinkLevel data s₀) i
  count : s.snk.n = s.snk.samples.length
  samples : SamplesBefore (sinkLevel data s₀) s₀.params.clockHz k s.snk.samples
  notStuck : ∀ j, j ≤ i → ¬ StuckAt (sinkLevel data s₀) j

theorem sinkRunning_start (data : List Byte) (hs : s.moment = .between) :
    SinkRunning data s 0 0 (startSink data s) where
  machine := sinkAt_start data hs
  noted := ⟨rfl, fun _ m hm => by rw [Nat.le_zero.mp hm], nofun⟩
  filter := rfl
  count := rfl
  samples := SamplesBefore.nil
  notStuck j hj := by rw [Nat.le_zero.mp hj]; exact not_stuckAt_zero

/-- `EMIT` writes the samples of this tick. -/
theorem SinkRunning.emit (h : SinkRunning data s₀ i i s) (hclock : 0 < s₀.params.clockHz) :
    SinkRunning data s₀ i (i + 1) (emitSamples s) := by
  have hmachine := h.machine
  obtain ⟨m, hemit, hdue, hnext⟩ := emitSamples_eq_emitted (s := s) (by rw [hmachine.params]; exact hclock)
  simp only [sampleDue, hmachine.start, hmachine.tick, hmachine.params, h.count, Config.outRate,
    Nat.add_le_add_iff_left, Nat.add_lt_add_iff_left] at hdue hnext
  rw [hemit]
  exact {
    machine := hmachine.note ⟨rfl, rfl, rfl, rfl, rfl⟩
    noted := ⟨h.noted.last, h.noted.constant, h.noted.changed⟩
    filter := h.filter
    count := by simp [emitted, h.count]
    samples := by
      rw [emitted, h.filter]
      exact h.samples.emit hdue hnext
    notStuck := h.notStuck }

/-- At the `STEP` of a pass the sink has noted no more than the pass before did. -/
theorem SinkRunning.notedAfter (h : SinkRunning data s₀ i k s) (hp : PassMade s u v w) :
    LevelNoted (sinkLevel data s₀) s₀.tick i w.snk := by
  rw [hp.effect.snk]
  exact ⟨h.noted.last, h.noted.constant, h.noted.changed⟩

/-- A pass that does not find the output stuck goes on with the detector and the filter (R312). -/
theorem SinkRunning.pass (h : SinkRunning data s₀ i k s) (hp : PassMade s u v w) (hfree : outputStuck w = false) :
    SinkRunning data s₀ (i + 1) k (filterLevel (trackLevel w)) := by
  have hw := h.machine.pass hp
  have hsnk := hp.effect.snk
  obtain ⟨hprev, hsamples, hn⟩ := trackLevel_output w
  rw [hsnk] at hprev hsamples hn
  have hnoted := h.notedAfter hp
  have htracked := hnoted.track hw.tick hw.level
  have hnext : ¬ StuckAt (sinkLevel data s₀) (i + 1) := by
    rw [← hnoted.stuck_iff hw.tick hw.level, hfree]
    decide
  exact {
    machine := hw.track.note ⟨rfl, rfl, rfl, rfl, rfl⟩
    noted := ⟨htracked.last, htracked.constant, htracked.changed⟩
    filter := by
      show filterValue (trackLevel w).snk.prev (trackLevel w).oc2a = _
      rw [hprev, h.filter, trackLevel_oc2a, hw.level]
      rfl
    count := by
      show (trackLevel w).snk.n = (trackLevel w).snk.samples.length
      rw [hn, hsamples]
      exact h.count
    samples := by
      show SamplesBefore _ _ _ (trackLevel w).snk.samples
      rw [hsamples]
      exact h.samples
    notStuck := fun j hj => by
      rcases Nat.le_or_eq_of_le_succ hj with hj | rfl
      · exact h.notStuck j hj
      · exact hnext }

/-! ### How a run ends -/

/-- The fuel of the loop is enough: a pass uses up one tick, and a byte sent brings at most a second (R314, R316). -/
theorem PassMade.fuel (hp : PassMade s u v w) (hclock : 0 < s.params.clockHz) : sinkFuel w + 1 ≤ sinkFuel s := by
  obtain ⟨hcarried, htick, hsnk, hsent⟩ := hp.effect
  have hbefore := hp.before
  have hdata : w.snk.data = s.snk.data := by rw [hsnk]
  rw [sinkFuel, sinkFuel, hdata, hcarried.params, htick]
  rcases hsent with ⟨hpos, hend⟩ | ⟨hleft, hpos, hend⟩
  · rw [hpos, hend]
    omega
  · rw [hpos, hend, show s.snk.data.length - s.snk.pos = (s.snk.data.length - (s.snk.pos + 1)) + 1 by omega,
      Nat.add_one_mul]
    omega

theorem sinkFuel_sample (s : State) : sinkFuel (emitSamples (filterLevel (trackLevel s))) = sinkFuel s := by
  obtain ⟨m, hemit, -⟩ := emitLoop_eq_emitted
    (Config.outRate * ((filterLevel (trackLevel s)).tick + 1 - (filterLevel (trackLevel s)).snk.t0))
    (filterLevel (trackLevel s))
  rw [emitSamples, hemit]
  show sinkFuel (trackLevel s) = sinkFuel s
  unfold trackLevel
  split <;> rfl

/-- The end of a run in `s`, with the verdict `ok`: a run that fails records the fault first (R318). -/
def endSink (ok : Bool) (s : State) : State :=
  finishSink ok (if ok then s else recordError (.bufferStuck s.tick) s)

theorem endSink_tick (ok : Bool) (s : State) : (endSink ok s).tick = s.tick := by cases ok <;> rfl

/-- The sink's state at the end: the file is written (R324). -/
theorem endSink_snk (ok : Bool) (s : State) :
    (endSink ok s).snk = { s.snk with file := outputHeader s.snk.n ++ s.snk.samples } := by
  cases ok <;> rfl

theorem endSink_outcome (ok : Bool) (s : State) : (endSink ok s).outcome = some ok := by cases ok <;> rfl

/-- But for the sink's state and the results a run ends as its operations leave it. -/
theorem endSink_eq {p : HostPart} (hdec : s.dec = p.dec) (hsrc : s.src = p.src) :
    endSink ok s = { withHost p s with
      snk := (endSink ok s).snk, errors := (endSink ok s).errors, outcome := (endSink ok s).outcome
      exitStatus := (endSink ok s).exitStatus } := by
  rw [withHost, ← hdec, ← hsrc]
  cases ok <;> rfl

/-- What holds where a run ends after `last` passes (R316, R318, R323): a run that succeeds has reached its bound and
written the samples of its last tick; one that fails is stuck, and has written those of the tick before. -/
structure SinkEnd (data : List Byte) (s₀ : State) (last : Nat) (ok : Bool) (s : State) : Prop where
  machine : SinkAt data s₀ last s
  count : s.snk.n = s.snk.samples.length
  samples : SamplesBefore (sinkLevel data s₀) s₀.params.clockHz (if ok then last + 1 else last) s.snk.samples
  notBefore : ∀ j, j < last → ¬ StuckAt (sinkLevel data s₀) j
  stuck : ok = false ↔ StuckAt (sinkLevel data s₀) last
  bound : ok = true → s.snk.endTime ≤ s.tick
  detected : ok = false → outputStuck s = true ∧ s.tick ≤ s.snk.endTime

theorem SinkRunning.end_bound (h : SinkRunning data s₀ i (i + 1) s) (hbound : s.snk.endTime ≤ s.tick) :
    SinkEnd data s₀ i true s where
  machine := h.machine
  count := h.count
  samples := h.samples
  notBefore j hj := h.notStuck j hj.le
  stuck := ⟨nofun, fun hstuck => absurd hstuck (h.notStuck i le_rfl)⟩
  bound _ := hbound
  detected := nofun

theorem SinkRunning.end_stuck (h : SinkRunning data s₀ i (i + 1) s) (hclock : 0 < s₀.params.clockHz)
    (hp : PassMade s u v w) (hstuck : outputStuck w = true) : SinkEnd data s₀ (i + 1) false w := by
  have hw := h.machine.pass hp
  obtain ⟨-, htick, hsnk, hsent⟩ := hp.effect
  exact {
    machine := hw
    count := by rw [hsnk]; exact h.count
    samples := by rw [hsnk]; exact h.samples
    notBefore := fun j hj => h.notStuck j (Nat.le_of_lt_succ hj)
    stuck := ⟨fun _ => ((h.notedAfter hp).stuck_iff hw.tick hw.level).mp hstuck, fun _ => rfl⟩
    bound := nofun
    detected := fun _ => ⟨hstuck, by
      have hbefore := hp.before
      have hparams := h.machine.params
      rw [htick]
      rcases hsent with ⟨-, hend⟩ | ⟨-, -, hend⟩ <;> rw [hend]
      · exact hbefore
      · rw [hparams]; omega⟩ }

/-- The loop of a run that is under way, by the ways a pass can go on or end. -/
theorem sinkLoop_ends (hclock : 0 < s₀.params.clockHz) : ∀ {fuel i : Nat} {s t : State},
    SinkRunning data s₀ i (i + 1) s → sinkFuel s ≤ fuel → sinkLoop fuel s = .next t →
    ∃ last ok w, SinkEnd data s₀ last ok w ∧ t = endSink ok w
  | 0, i, s, t, h, hfuel, hloop => by
    cases hloop
    refine ⟨i, true, s, h.end_bound ?_, rfl⟩
    rw [sinkFuel] at hfuel
    omega
  | fuel + 1, i, s, t, h, hfuel, hloop => by
    rcases sinkLoop_succ_eq_next hloop with ⟨hbound, rfl⟩ | ⟨hbefore, u, v, w, hread, hsend, hstep, hrest⟩
    · exact ⟨i, true, s, h.end_bound hbound, rfl⟩
    · have hp : PassMade s u v w := ⟨hbefore, hread, hsend, hstep⟩
      rcases hrest with ⟨hstuck, rfl⟩ | ⟨hfree, hloop⟩
      · exact ⟨i + 1, false, w, h.end_stuck hclock hp hstuck, rfl⟩
      · have hdecrease := hp.fuel (h.machine.params ▸ hclock)
        exact sinkLoop_ends hclock ((h.pass hp hfree).emit hclock) (by rw [sinkFuel_sample]; omega) hloop

/-- How a sink run ends. -/
theorem sinkRun_ends (hclock : 0 < s.params.clockHz) (h : exec (.sinkRun data) s = .next t) :
    ∃ last ok w, SinkEnd data s last ok w ∧ t = endSink ok w := by
  obtain ⟨hs, hloop⟩ := betweenOperations_eq_next.mp h
  exact sinkLoop_ends hclock ((sinkRunning_start data hs).emit hclock) le_rfl hloop

/-! ### What a run leaves -/

theorem outputHeader_length (n : Nat) : (outputHeader n).length = 44 := by
  simp [outputHeader, sizeField, leBytes, riffMark, waveMark, fmtMark, dataMark]

/-- The verdict of a run and what stands with it (R316, R318, R341). -/
theorem SinkEnd.verdict (h : SinkEnd data s last ok w) (ht : t = endSink ok w) :
    (t.outcome = some true ∧ t.exitStatus = some 0 ∧ t.errors = [] ∧ t.snk.endTime ≤ t.tick) ∨
      (t.outcome = some false ∧ t.exitStatus = some 1 ∧ t.errors = [.bufferStuck t.tick] ∧ t.tick ≤ t.snk.endTime ∧
        t.snk.toggled = true ∧ t.snk.lastChange + 1250 < t.tick) := by
  have herrors := h.machine.errors
  subst ht
  cases ok with
  | true => exact .inl ⟨rfl, rfl, herrors, h.bound rfl⟩
  | false =>
    obtain ⟨hstuck, hwithin⟩ := h.detected rfl
    obtain ⟨-, htoggled, hlong⟩ := outputStuck_iff.mp hstuck
    have herrors' : w.errors ++ [.bufferStuck w.tick] = [.bufferStuck w.tick] := by rw [herrors, List.nil_append]
    exact .inr ⟨rfl, rfl, herrors', hwithin, htoggled, Nat.add_lt_of_lt_sub' hlong⟩

/-- Settles O51: the run completes, its end has the verdict, the file is the header and the samples, and the frame
is that of all of its parts. -/
theorem sinkRunOperation : Obligations.SinkRunOperation := by
  intro data s hs hlegal hclock
  obtain ⟨t, hrun⟩ := sinkRunAll_total (data := data) hlegal
  have hexec : exec (.sinkRun data) s = .next t := betweenOperations_eq_next.mpr ⟨hs, hrun⟩
  obtain ⟨last, ok, w, hend, ht⟩ := sinkRun_ends hclock hexec
  have hcontinues := sinkEffect_continues (sinkRunAll_effect hrun)
  have hmachine := hend.machine
  have hsnk : t.snk = { w.snk with file := outputHeader w.snk.n ++ w.snk.samples } := by rw [ht, endSink_snk]
  refine ⟨t, hexec, hend.verdict ht, ?_, ?_, ?_, ?_, ?_, hcontinues.tick, hcontinues.moment.trans hs, ?_, ?_,
    sinkRunAll_capture hrun, hcontinues.bindings⟩
  · rw [hsnk, List.length_append, outputHeader_length]
  · rw [hsnk]
    exact List.drop_left' (outputHeader_length _)
  · rw [hsnk]; exact hend.count
  · rw [hsnk]; exact hmachine.pos
  · rw [hsnk]; exact hmachine.data
  · rw [← hmachine.dec, ht]; cases ok <;> rfl
  · rw [← hmachine.src, ht]; cases ok <;> rfl

/-- Settles O52: the samples written at the end are those of the ticks before the one the run ends in, and of that
one if it succeeds. -/
theorem sinkSampleCount : Obligations.SinkSampleCount := by
  intro data s t hclock h j
  obtain ⟨last, ok, w, hend, rfl⟩ := sinkRun_ends hclock h
  have hcount := hend.samples.count j
  rw [endSink_snk, endSink_outcome, endSink_tick, hend.machine.tick]
  refine hcount.trans ?_
  show sampleTick j s.params.clockHz 48000 < _ ↔ s.tick + sampleTick j s.params.clockHz 48000 ≤ _
  cases ok with
  | true => simp only [if_true]; omega
  | false =>
    obtain ⟨c, -, -, hlong⟩ := hend.stuck.mp rfl
    simp only [Option.some.injEq, Bool.false_eq_true, if_false]
    omega

/-- The first sample is that of tick 0, where the filter is at 0 (R320, R322). -/
theorem SamplesBefore.head {level : Nat → Bool} {clockHz : Nat} {samples : List Byte}
    (h : SamplesBefore level clockHz i samples) (hi : 0 < i) : samples.head? = some 128 := by
  have hfirst : 0 < samples.length := (h.count 0).mpr (by rw [sampleTick_zero]; exact hi)
  have hvalue := h.value 0 samples[0] (List.getElem?_eq_getElem hfirst)
  rw [sampleTick_zero] at hvalue
  rw [List.head?_eq_getElem?, List.getElem?_eq_getElem hfirst, hvalue]
  rfl

/-- Settles O60: the points of the run are computed by its passes; the invariant says what is written between them, and
how the run ends. -/
theorem sinkRunBytesAndSamples : Obligations.SinkRunBytesAndSamples := by
  intro data s t hclock h leaderEnd last
  obtain ⟨n, ok, w, hend, rfl⟩ := sinkRun_ends hclock h
  have hmachine := hend.machine
  have hlast : last = n := by
    show (endSink ok w).tick - s.tick = n
    rw [endSink_tick, hmachine.tick, Nat.add_sub_cancel_left]
  have hpos : 0 < if ok then n + 1 else n := by
    cases ok with
    | true => exact Nat.succ_pos n
    | false =>
      obtain ⟨c, -, -, hlong⟩ := hend.stuck.mp rfl
      exact Nat.zero_lt_of_lt hlong
  rw [hlast]
  refine ⟨sinkPoints data s, rfl, hmachine.passes, ?_, ?_, ?_, ⟨?_, hend.notBefore⟩, ?_, ?_⟩
  · rw [hmachine.point]; exact endSink_eq hmachine.dec hmachine.src
  · rw [hmachine.point, endSink_snk]; rfl
  · rw [hmachine.point, endSink_snk]; rfl
  · rw [endSink_outcome, Option.some.injEq]; exact hend.stuck
  · rw [endSink_snk]; exact hend.samples.head hpos
  · rw [endSink_snk]; exact hend.samples.value

end Run

end Sys2Proof.Proofs
end

section
/-! PROOFS. Family 60_exceptions: who may act when (O6). Each agent's operations pass through one gate, and the gate
decides by what is under way. -/

namespace Sys2Proof.Proofs

open Sys2Proof Sys2Proof.Machine

section Moments

variable {i : Instr} {s : State} {c : Callback}

/-! ### Every operation passes its agent's gate -/

theorem exec_of_firmware (hi : i.performer = .firmware) (s : State) : ∃ k, exec i s = insideCallback s k := by
  cases i with
  | reset | step | feed | rd | wr | busRead | busWrite | statusFraming | statusParity | statusByteAvailable
  | statusRoom | timerTick | overflow | matchA | matchB | dispatch | oc2aUpdate | poll | compare | csvPlay | wavPlay
  | sinkRun | steps | runTo | feedAt => exact nomatch hi
  | _ => exact ⟨_, by with_unfolding_all rfl⟩

theorem exec_of_block (hi : i.performer = .block) (s : State) : ∃ k, exec i s = insideStep s k := by
  cases i with
  | timerTick | overflow | matchA | matchB | dispatch | oc2aUpdate => exact ⟨_, by with_unfolding_all rfl⟩
  | _ => exact nomatch hi

theorem exec_of_host (hi : i.performer = .host) (s : State) : ∃ k, exec i s = betweenOperations s k := by
  cases i with
  | reset | step | feed | rd | wr | busRead | busWrite | statusFraming | statusParity | statusByteAvailable
  | statusRoom | poll | compare | csvPlay | wavPlay | sinkRun | steps | runTo | feedAt =>
    exact ⟨_, by with_unfolding_all rfl⟩
  | _ => exact nomatch hi

/-! ### What a gate refuses -/

/-- The firmware alone acts inside a callback (R362). -/
theorem exec_inCallback_refused (hi : i.performer ≠ .firmware) (hs : s.moment = .callback c) :
    exec i s = .refused .hostOperationInCallback := by
  cases hagent : i.performer with
  | firmware => exact absurd hagent hi
  | host =>
    obtain ⟨k, hk⟩ := exec_of_host hagent s
    rw [hk, betweenOperations, hs]
  | block =>
    obtain ⟨k, hk⟩ := exec_of_block hagent s
    rw [hk, insideStep, hs]

theorem exec_host_inStep_refused (hi : i.performer = .host) (hs : s.moment = .step) :
    exec i s = .refused .hostOperationInStep := by
  obtain ⟨k, hk⟩ := exec_of_host hi s
  rw [hk, betweenOperations, hs]

theorem exec_block_between_refused (hi : i.performer = .block) (hs : s.moment = .between) :
    exec i s = .refused .subOperationOutsideStep := by
  obtain ⟨k, hk⟩ := exec_of_block hi s
  rw [hk, insideStep, hs]

theorem exec_firmware_outside_refused (hi : i.performer = .firmware) (hs : s.moment = .between ∨ s.moment = .step) :
    exec i s = .refused .firmwareOperationOutsideCallback := by
  obtain ⟨k, hk⟩ := exec_of_firmware hi s
  rcases hs with hs | hs <;> rw [hk, insideCallback, hs]

/-- Settles O6: the gates; a step performs its operation at the moment the state is at. -/
theorem agentsAreSeparated : Obligations.AgentsAreSeparated :=
  ⟨fun _ _ => ⟨fun _ => exec_inCallback_refused, exec_host_inStep_refused, exec_block_between_refused,
      exec_firmware_outside_refused⟩,
    fun _ _ _ _ htrace hdecode hs =>
      ⟨fun hi => (step_of_ok htrace hdecode).trans (exec_firmware_outside_refused hi (.inl hs)),
        fun hi => (step_of_ok htrace hdecode).trans (exec_block_between_refused hi hs)⟩⟩

end Moments

end Sys2Proof.Proofs
end

section
/-! PROOFS. Family 70_reset_and_hazards: `RESET` (O8), and that it forgets the past (O9): it is the call of `setup` on
the reset values, and a stub reads nothing but what these fix. -/

namespace Sys2Proof.Proofs

open Sys2Proof Sys2Proof.Machine

section Reset

variable {s t : State}

theorem exec_reset_total (hs : s.moment = .between) (hlegal : s.fw.legal = true) :
    ∃ t, exec .reset s = .next t ∧ resetAndBoot s = .next t := by
  obtain ⟨t, ht⟩ := resetAndBoot_total hlegal
  exact ⟨t, betweenOperations_eq_next.mpr ⟨hs, ht⟩, ht⟩

/-- A `setup` that writes no register leaves each at its reset value, 0. -/
theorem resetAndBoot_passive (h : resetAndBoot s = .next t) (hp : s.fw.setup.passive = true) (cell : CsrCell) :
    cellRead t.csr cell = 0 := by
  have hcsr : t.csr = {} := call_passive_csr h hp
  rw [hcsr]
  cases cell <;> rfl

/-- A `setup` that is not supplied leaves the firmware's state at `fwst0` (R7). -/
theorem resetAndBoot_skip (h : resetAndBoot s = .next t) (hskip : s.fw.setup = .skip) : t.fwst = s.fwst0 := by
  rw [resetAndBoot, call_skip (c := .setup) (s := resetBlock s) hskip] at h
  cases h
  rfl

/-- The boot leaves the block at its reset values, but for the registers that `setup` writes and the firmware's state
(R380). -/
structure BlockReset (t : State) : Prop where
  tick : t.tick = 0
  prevLevel : t.prevLevel = false
  lastAccept : t.lastAccept = none
  oc2aMatch : t.oc2aMatch = false
  oc2a : t.oc2a = false

theorem resetAndBoot_blockReset (h : resetAndBoot s = .next t) : BlockReset t := by
  rw [(resetAndBoot_eq_next h).1]
  exact ⟨rfl, rfl, rfl, rfl, rfl⟩

/-- The boot is one call and leaves what belongs to the host (R384, log 11). -/
theorem resetAndBoot_host (h : resetAndBoot s = .next t) :
    t.calls = s.calls ++ [⟨.setup, 0⟩] ∧ ProceduresKept s t ∧ t.hostResult = s.hostResult := by
  rw [(resetAndBoot_eq_next h).1]
  exact ⟨rfl, ⟨rfl, rfl, rfl, rfl, rfl, rfl⟩, rfl⟩

/-- Settles O8: the call of `setup` on the reset values, by what it can write. -/
theorem resetOperation : Obligations.ResetOperation := by
  intro s hs hlegal
  obtain ⟨t, hexec, hboot⟩ := exec_reset_total hs hlegal
  obtain ⟨htick, hprev, haccept, hlatch, houtput⟩ := resetAndBoot_blockReset hboot
  obtain ⟨hbindings, hmoment⟩ := resetAndBoot_keeps hboot
  obtain ⟨hcalls, hprocedures, hresult⟩ := resetAndBoot_host hboot
  exact ⟨t, hexec, hboot, htick, hprev, haccept, hlatch, houtput, (resetAndBoot_eq_next hboot).2, hmoment.trans hs,
    hcalls, resetAndBoot_passive hboot, resetAndBoot_skip hboot, hbindings, hprocedures, hresult⟩

/-- Two calls of one callback on states that agree leave states that agree (R51). -/
theorem call_agree {a b a' b' : State} {c : Callback} (h : Agree a b) (hfw : a.fw = b.fw) (ha : call c a = .next a')
    (hb : call c b = .next b') : Agree a' b' := by
  obtain ⟨u, hu, ha'⟩ := andThen_eq_next.mp ha
  obtain ⟨v, hv, hb'⟩ := andThen_eq_next.mp hb
  cases ha'
  cases hb'
  rw [← hfw] at hv
  obtain ⟨w, hw, hagree⟩ := runStub_agree (a := enterCallback c a) (b := enterCallback c b) h hu
  rw [hv] at hw
  cases hw
  exact hagree

/-- Settles O9: the reset values of the two runs agree, so do their boots; the rest is fixed. -/
theorem resetForgetsThePast : Obligations.ResetForgetsThePast := by
  intro s₁ s₂ hs₁ hs₂ hfw hfwst0 hlegal
  obtain ⟨t₁, hexec₁, hboot₁⟩ := exec_reset_total hs₁ hlegal
  obtain ⟨t₂, hexec₂, hboot₂⟩ := exec_reset_total hs₂ (hfw ▸ hlegal)
  obtain ⟨hcsr, hfwst, htick⟩ :=
    call_agree (a := resetBlock s₁) (b := resetBlock s₂) ⟨rfl, hfwst0, rfl⟩ hfw hboot₁ hboot₂
  have hblock₁ := resetAndBoot_blockReset hboot₁
  have hblock₂ := resetAndBoot_blockReset hboot₂
  exact ⟨t₁, t₂, hexec₁, hexec₂, htick, hcsr, hfwst, hblock₁.prevLevel.trans hblock₂.prevLevel.symm,
    hblock₁.lastAccept.trans hblock₂.lastAccept.symm, hblock₁.oc2aMatch.trans hblock₂.oc2aMatch.symm,
    hblock₁.oc2a.trans hblock₂.oc2a.symm⟩

end Reset

end Sys2Proof.Proofs
end
